-- ==== Sys2Proof/Word.lean ====
section
/-! DEFINITION. The CORE's data types below the state: a bit, a bit buffer, a symbol
(spec/00_scope.md R9, R14; spec/20_memory.md R50). -/

namespace Sys2Proof

/-- One bit; `true` is 1 (R9). -/
abbrev Bit := Bool

/-- A bit buffer: a finite ordered sequence of bits, index 0 the first appended and the first consumed (R9, R50). -/
abbrev Bits := List Bit

/-- A symbol: a natural number; a symbol of width `w` is below `2^w` (R14). -/
abbrev Symbol := Nat

end Sys2Proof
end

