-- ==== Sys2Proof/Config.lean ====
section
/-! DEFINITION. The build parameters of the CORE that spec/00_scope.md R7 leaves OPEN. A parameter is a natural number
or infinite ("the model may take it as infinite", R7). They are fixed for one machine; the model carries them in State so
that a statement over every state is a statement over every build (log entry 4). -/

namespace Sys2Proof

/-- A build parameter: `none` is infinite, `some n` is the number `n` (R7, D4, D6, D13). -/
abbrev Limit := Option Nat

/-- A count is within a capacity. -/
def Limit.allows (cap : Limit) (n : Nat) : Bool :=
  match cap with
  | none => true
  | some c => decide (n ≤ c)

/-- A natural number fits a width in bits. -/
def Limit.fits (width : Limit) (v : Nat) : Bool :=
  match width with
  | none => true
  | some w => decide (v < 2 ^ w)

/-- An integer fits a signed register of `width + 1` bits: `-2^width ≤ v < 2^width` (R24). -/
def Limit.fitsSigned (width : Limit) (v : Int) : Bool :=
  match width with
  | none => true
  | some w => decide (-(2 ^ w : Int) ≤ v) && decide (v < (2 ^ w : Int))

/-- The build parameters of R7. `REG_ORDER` and `HUF_TIE` are not here: the spec fixes them (D17, D21; log entries 8, 9). -/
structure Config where
  /-- `PW`: width of every parameter register. -/
  pw : Limit
  /-- `NUM_BITS`: largest bit length of an integer the NumberCodec handles. -/
  numBits : Limit
  /-- `IN_CAP`: capacity of IN in bits. -/
  inCap : Limit
  /-- `OUT_CAP`: capacity of OUT in bits. -/
  outCap : Limit
  /-- `TOK_CAP`: capacity of TOK in tokens. -/
  tokCap : Limit
  deriving DecidableEq, Repr

/-- The build with every OPEN parameter infinite, which R7 allows for each.
DESIGN CHOICE (log entry 4): it is the build of `State.reset`. Safe for statements over every state. -/
def Config.unbounded : Config :=
  { pw := none, numBits := none, inCap := none, outCap := none, tokCap := none }

end Sys2Proof
end

