-- ==== Sys2Proof/Syntax.lean ====
section
/-! DEFINITION. The twelve commands (spec/30_encoding.md R76), the registers (spec/10_state.md R21), the token record
(R28) and the host's primitives (spec/43_system.md R191 to R193). -/

namespace Sys2Proof

/-- The commands of R76, one constructor per row of spec/opcode_table.json. A command word carries no operand (R75). -/
inductive Instr where
  | numEnc
  | numDec
  | lzMatch
  | lzRecon
  | lzSer
  | lzDeser
  | lzEnc
  | lzDec
  | hufEnc
  | hufDec
  | clrOut
  | hufTree
  deriving DecidableEq, Repr

/-- An LZ token, the triple `(offset, length, literal)` (R28, R37). -/
structure Token where
  offset : Nat
  length : Nat
  literal : Symbol
  deriving DecidableEq, Repr

/-- The registers of R21 by name; `reserved n` is register number `n`, 0x0E or above. -/
inductive Reg where
  | cmd
  | status
  | numS
  | lzW
  | lzL
  | lzK
  | lzB
  | hufSB
  | numN
  | numR
  | inLen
  | inRd
  | outLen
  | tokCnt
  | reserved (n : Nat)
  deriving DecidableEq, Repr

/-- One action of the host or the platform, taken between commands (R191 to R193, R195, R230). -/
inductive HostAction where
  /-- `WR reg, v` (R191); a write to register number 0x00 starts a command. -/
  | wr (reg : Nat) (v : Int)
  /-- `RD reg` (R192). -/
  | rd (reg : Nat)
  /-- `LOAD_IN bits` (R193). -/
  | loadIn (bits : Bits)
  /-- `LOAD_TOK list` (R193). -/
  | loadTok (toks : List Token)
  /-- `READ_OUT` (R193). -/
  | readOut
  /-- `READ_TOK` (R193). -/
  | readTok
  /-- The platform applies reset (R230). -/
  | reset
  deriving DecidableEq, Repr

/-- What a host read returns (R192, R193). -/
inductive Reply where
  | value (v : Int)
  | bits (b : Bits)
  | tokens (toks : List Token)
  deriving DecidableEq, Repr

end Sys2Proof
end

