-- ==== Sys2Proof/WellFormed.lean ====
section
/-! DEFINITION. What is well formed. A command has no operand (spec/30_encoding.md R75), so every term of `Instr` is well
formed and an ill-formed command WORD is refused by the decoder (Decode.lean). What carries a check is the build, a token
held in TOK, and a value written to a register. -/

namespace Sys2Proof

/-- The lengths and positions of buffers of capacity `cap` fit registers of `width` bits. -/
def Limit.covers (width cap : Limit) : Bool :=
  match width, cap with
  | none, _ => true
  | some _, none => false
  | some w, some c => decide (c < 2 ^ w)

/-- A width is at least `n` bits. -/
def Limit.atLeast (width : Limit) (n : Nat) : Bool :=
  match width with
  | none => true
  | some w => decide (n ≤ w)

/-- A coherent build: the bounds of R7 (`PW ≥ 17`, `NUM_BITS ≥ 33`); the length registers hold every length
(`IN_LEN`, `OUT_LEN`, `TOK_CNT` are `PW` bits, R21) and a match's offset and length fit a token's `NUM_BITS` fields (R28).
DEDUCED (log entry 6): the spec states the widths and capacities but not that they fit together. -/
def Config.wf (c : Config) : Bool :=
  c.pw.atLeast 17 && c.numBits.atLeast 33
    && c.pw.covers c.inCap && c.pw.covers c.outCap && c.pw.covers c.tokCap
    && c.numBits.covers c.inCap

/-- A token as TOK holds it: offset and length below `2^NUM_BITS`, literal below `2^8` (R28, R193, D39). -/
def Token.wf (c : Config) (t : Token) : Bool :=
  c.numBits.fits t.offset && c.numBits.fits t.length && decide (t.literal < 2 ^ 8)

/-- The value `v` can be presented to register `r` (R191): `0 ≤ v < 2^PW` for `CMD`, `IN_RD` and the parameter registers,
`-2^NUM_BITS ≤ v < 2^NUM_BITS` for `NUM_N`; a write to any other register has no effect whatever the value. -/
def Reg.accepts (c : Config) (r : Reg) (v : Int) : Bool :=
  match r with
  | .cmd | .numS | .lzW | .lzL | .lzK | .lzB | .hufSB | .inRd => decide (0 ≤ v) && c.pw.fits v.toNat
  | .numN => c.numBits.fitsSigned v
  | .status | .numR | .inLen | .outLen | .tokCnt | .reserved _ => true

end Sys2Proof
end

