-- ==== Sys2Proof/Decode.lean ====
section
/-! DEFINITION. The command word `CMDW` and the register numbers: decoder and encoder
(spec/30_encoding.md R75 to R77; spec/10_state.md R21). -/

namespace Sys2Proof

/-- Why a command word is illegal (R77): a bit of the ZERO field is set, or OP is reserved. -/
inductive IllegalWord where
  | zeroFieldSet
  | reservedOp (op : Nat)
  deriving DecidableEq, Repr

/-- The OP column of R76; `none` for the reserved codes. -/
def opTable (op : Nat) : Option Instr :=
  match op with
  | 0x1 => some .numEnc
  | 0x2 => some .numDec
  | 0x3 => some .lzMatch
  | 0x4 => some .lzRecon
  | 0x5 => some .lzSer
  | 0x6 => some .lzDeser
  | 0x7 => some .lzEnc
  | 0x8 => some .lzDec
  | 0x9 => some .hufEnc
  | 0xA => some .hufDec
  | 0xB => some .clrOut
  | 0xC => some .hufTree
  | _ => none

/-- Decode the value written to `CMD` (R75 to R77): bits [3:0] are OP, every higher bit must be zero. -/
def decodeWord (v : Nat) : Except IllegalWord Instr :=
  if v / 16 = 0 then
    match opTable (v % 16) with
    | some i => .ok i
    | none => .error (.reservedOp (v % 16))
  else .error .zeroFieldSet

/-- The command word of a command: its OP of R76, the ZERO field 0 (R75). -/
def encode (i : Instr) : Nat :=
  match i with
  | .numEnc => 0x1
  | .numDec => 0x2
  | .lzMatch => 0x3
  | .lzRecon => 0x4
  | .lzSer => 0x5
  | .lzDeser => 0x6
  | .lzEnc => 0x7
  | .lzDec => 0x8
  | .hufEnc => 0x9
  | .hufDec => 0xA
  | .clrOut => 0xB
  | .hufTree => 0xC

/-- The decoder on a row's word of spec/opcode_table.json: the word IS the value written to `CMD`, bit 0 least
significant (R75); the bits above the row's `nbits` are 0. -/
def decodeTableWord (nbits w : Nat) : Option Instr :=
  match decodeWord (w % 2 ^ nbits) with
  | .ok i => some i
  | .error _ => none

/-- The register a register number names (R21). -/
def decodeReg (n : Nat) : Reg :=
  match n with
  | 0x00 => .cmd
  | 0x01 => .status
  | 0x02 => .numS
  | 0x03 => .lzW
  | 0x04 => .lzL
  | 0x05 => .lzK
  | 0x06 => .lzB
  | 0x07 => .hufSB
  | 0x08 => .numN
  | 0x09 => .numR
  | 0x0A => .inLen
  | 0x0B => .inRd
  | 0x0C => .outLen
  | 0x0D => .tokCnt
  | n => .reserved n

/-- The number of a register (R21). -/
def encodeReg (r : Reg) : Nat :=
  match r with
  | .cmd => 0x00
  | .status => 0x01
  | .numS => 0x02
  | .lzW => 0x03
  | .lzL => 0x04
  | .lzK => 0x05
  | .lzB => 0x06
  | .hufSB => 0x07
  | .numN => 0x08
  | .numR => 0x09
  | .inLen => 0x0A
  | .inRd => 0x0B
  | .outLen => 0x0C
  | .tokCnt => 0x0D
  | .reserved n => n

end Sys2Proof
end

