-- ==== Sys2Proof/Machine/State.lean ====
section
/-! DEFINITION. The state of the CORE as plain data (spec/10_state.md R20 to R36), the error kinds (spec/60_exceptions.md
R200), the model's stop reasons, and the state after reset (R36, spec/70_reset_and_hazards.md R230). -/

namespace Sys2Proof.Machine

/-- The error kinds of R200 and R204. Each is reported in STATUS by a next state; none stops the machine. -/
inductive ErrorKind where
  | invalidInput
  | capacityExceeded
  | malformedStream
  | illegalCommand
  deriving DecidableEq, Repr

/-- What STATUS holds (R23): no command since reset, the last command succeeded, or it raised an error. Only the
combinations R23 says are produced can be written; the word a host reads is `Status.word`. -/
inductive Status where
  | idle
  | done
  | error (e : ErrorKind)
  deriving DecidableEq, Repr

/-- Why a step stops. The spec leaves no command stuck (spec/93_implementation_defined.md, end of part 1); these three are
for host actions the spec says cannot be presented (R191, R193). DESIGN CHOICE (log entry 5); safe: the model stops
where the spec gives the action no move. -/
inductive Fault where
  /-- Raised by `hostWrite`: the value lies outside the range of the register's port (R191). Safe. -/
  | valueNotPresentable (reg : Nat)
  /-- Raised by `hostLoadIn`: more bits than `IN_CAP` (R193). Safe. -/
  | loadInNotPresentable
  /-- Raised by `hostLoadTok`: more tokens than `TOK_CAP`, or a token outside its field widths (R193). Safe. -/
  | loadTokNotPresentable
  deriving DecidableEq, Repr

/-- Why an instruction has no meaning. -/
inductive Refusal where
  /-- Raised by `exec`'s arm of a command the model gives no meaning yet (none is left). Safe. -/
  | notModelled (mnemonic : String)
  deriving DecidableEq, Repr

/-- The state (R20). `CMD` holds no value (R22); `IN_LEN`, `OUT_LEN`, `TOK_CNT` are the lengths of `inBuf`, `outBuf`,
`tok` (R26 to R28) and are not stored twice (log entry 13). Registers are integers, their widths bounds (log entry 14).
`build`, `pending`, `replies` are the model's own fields. -/
structure State where
  /-- The build parameters of R7, fixed for the machine: no step changes them (log entry 4). -/
  build : Config
  /-- `STATUS` (R23). -/
  status : Status
  /-- `NUM_S` (R21). -/
  numS : Nat
  /-- `LZ_W` (R21). -/
  lzW : Nat
  /-- `LZ_L` (R21). -/
  lzL : Nat
  /-- `LZ_K` (R21). -/
  lzK : Nat
  /-- `LZ_B` (R21). -/
  lzB : Nat
  /-- `HUF_SB` (R21). -/
  hufSB : Nat
  /-- `NUM_N`, signed (R24). -/
  numN : Int
  /-- `NUM_R` (R25). -/
  numR : Nat
  /-- `IN` (R26). -/
  inBuf : Bits
  /-- `IN_RD`, the read cursor into IN in bits (R26, R30). -/
  inRd : Nat
  /-- `OUT` (R27). -/
  outBuf : Bits
  /-- `TOK` (R28). -/
  tok : List Token
  /-- Host actions not yet taken, oldest first (log entry 1). -/
  pending : List HostAction
  /-- What the host has read, oldest first (log entry 3). -/
  replies : List Reply
  deriving DecidableEq, Repr

/-- Every spec-given piece of state at the value R36 gives it, in the build `c`, with nothing pending. -/
def State.resetOf (c : Config) : State :=
  { build := c
    status := .idle
    numS := 5
    lzW := 0
    lzL := 0
    lzK := 0
    lzB := 8
    hufSB := 8
    numN := 0
    numR := 0
    inBuf := []
    inRd := 0
    outBuf := []
    tok := []
    pending := []
    replies := [] }

/-- The machine right after reset (R36, R230). The spec gives every register's value; `build`, `pending` and `replies`
are DESIGN CHOICE (log entries 4, 1, 3). -/
def State.reset : State := State.resetOf Config.unbounded

end Sys2Proof.Machine
end

