-- ==== Sys2Proof/Machine/BitOps.lean ====
section
/-! DEFINITION. The bit-buffer primitive: integers to and from bits, slices, partitions (spec/00_scope.md R9 to R14;
spec/20_memory.md R50 to R52; spec/42_huffman.md R161). -/

namespace Sys2Proof.Machine

/-- `uint(b)`: the number `b` spells most significant bit first (R10). -/
def uint (b : Bits) : Nat :=
  b.foldl (fun acc x => 2 * acc + x.toNat) 0

/-- `bits_k(v)`: `v` as exactly `k` bits, most significant first (R10); rules use it only where `v < 2^k`. -/
def bitsOf : Nat → Nat → Bits
  | 0, _ => []
  | k + 1, v => v.testBit k :: bitsOf k v

/-- `bitlen(n)`: the smallest `k` with `n < 2^k` (R11). -/
def bitlen (n : Nat) : Nat :=
  if n = 0 then 0 else n.log2 + 1

/-- `minbits(n)` (R11). -/
def minbits (n : Nat) : Bits :=
  bitsOf (bitlen n) n

/-- `zeros(k)` (R9). -/
def zeros (k : Nat) : Bits :=
  List.replicate k false

/-- The slice `b[lo:hi)` (R9). -/
def slice {α : Type} (b : List α) (lo hi : Nat) : List α :=
  (b.drop lo).take (hi - lo)

/-- How many 0 bits stand before the first 1 bit; the whole length if there is none (R81, R101). -/
def leadingZeros : Bits → Nat
  | false :: rest => leadingZeros rest + 1
  | _ => 0

/-- `ceil(a / b)` (R12). -/
def ceilDiv (a b : Nat) : Nat :=
  (a + b - 1) / b

/-- `Chunks(d, w)` (R161) from the front; `fuel` bounds the number of chunks. -/
def chunksFuel : Nat → Nat → Bits → List Bits
  | 0, _, _ => []
  | _ + 1, _, [] => []
  | fuel + 1, w, b :: rest => (b :: rest).take w :: chunksFuel fuel w ((b :: rest).drop w)

/-- `Chunks(d, w)` for `w ≥ 1`: consecutive slices of `w` bits, the last one possibly shorter (R161). -/
def chunks (w : Nat) (d : Bits) : List Bits :=
  chunksFuel d.length w d

/-- `ChunkVals(d, w)` (R161): a short last chunk counts as the number its own bits spell, unpadded. -/
def chunkVals (w : Nat) (d : Bits) : List Nat :=
  (chunks w d).map uint

/-- `Syms(d, w)` (R14), used only where `w` divides `len(d)`: every chunk then has `w` bits. -/
def syms (w : Nat) (d : Bits) : List Symbol :=
  chunkVals w d

/-- Symbols written back as `w` bits each, in order (R139, R143). -/
def symBits (w : Nat) (l : List Symbol) : Bits :=
  l.flatMap (bitsOf w)

end Sys2Proof.Machine
end

