-- ==== Sys2Proof/Machine/HuffmanCodec.lean ====
section
/-! DEFINITION. The pure functions of the HuffmanCodec (spec/42_huffman.md R160 to R173; formats spec/30_encoding.md R85 to
R89; tree, frequency table and code table spec/10_state.md R38, R40, R41). -/

namespace Sys2Proof.Machine

/-- A Huffman tree node (R38). `φ` is the type of the frequencies: `Nat` in a built tree, `Unit` in a rebuilt one, which
"carries no frequencies" (log entry 10). The absent tree is `none` of an `Option`. -/
inductive HufTree (φ : Type) where
  | leaf (symbol : Symbol) (freq : φ)
  | internal (freq : φ) (left right : HufTree φ)
  deriving DecidableEq, Repr

/-- The frequency of a node (R38). -/
def HufTree.freq {φ : Type} (t : HufTree φ) : φ :=
  match t with
  | .leaf _ f => f
  | .internal f _ _ => f

/-- The tree without its frequencies (R166). -/
def HufTree.bare {φ : Type} : HufTree φ → HufTree Unit
  | .leaf v _ => .leaf v ()
  | .internal _ l r => .internal () l.bare r.bare

/-- The symbols on the leaves, left to right. -/
def HufTree.leaves {φ : Type} : HufTree φ → List Symbol
  | .leaf v _ => [v]
  | .internal _ l r => l.leaves ++ r.leaves

/-- A frequency table: symbol and positive count, ascending in the symbol, absent symbols not listed (R40). -/
abbrev FreqTable := List (Symbol × Nat)

/-- Tally one occurrence, keeping the table ascending. -/
def freqTally (v : Symbol) : FreqTable → FreqTable
  | [] => [(v, 1)]
  | (u, n) :: rest =>
    if v < u then (v, 1) :: (u, n) :: rest
    else if v = u then (u, n + 1) :: rest
    else (u, n) :: freqTally v rest

/-- The table of a list of chunk values. -/
def freqOf (vals : List Nat) : FreqTable :=
  vals.foldl (fun f v => freqTally v f) []

/-- `HufFreq(d, SB)` (R161). -/
def hufFreq (d : Bits) (SB : Nat) : FreqTable :=
  freqOf (chunkVals SB d)

/-- A node of the priority structure with its sequence number (R162, R163). -/
structure HufNode where
  seq : Nat
  tree : HufTree Nat
  deriving DecidableEq, Repr

/-- The key order: frequency first, then sequence number (R162, R163, D21; DEDUCED, log entry 9). -/
def HufNode.before (a b : HufNode) : Bool :=
  decide (a.tree.freq < b.tree.freq) || (decide (a.tree.freq = b.tree.freq) && decide (a.seq < b.seq))

/-- Insert into the priority structure, kept in ascending key order so that its head has the least key. -/
def hufInsert (e : HufNode) : List HufNode → List HufNode
  | [] => [e]
  | x :: xs => if e.before x then e :: x :: xs else x :: hufInsert e xs

/-- The leaves inserted in ascending symbol value, numbered from `seq` on (R163 (a)). -/
def hufLeaves : Nat → FreqTable → List HufNode → List HufNode
  | _, [], q => q
  | seq, (v, n) :: rest, q => hufLeaves (seq + 1) rest (hufInsert { seq := seq, tree := .leaf v n } q)

/-- The merge loop of R162: the first node removed becomes the left child (R163 (d)), the merged node takes the next
sequence number (R163 (b)). `fuel` bounds the number of merges. -/
def hufMerge : Nat → Nat → List HufNode → Option (HufTree Nat)
  | _, _, [] => none
  | _, _, [e] => some e.tree
  | 0, _, _ :: _ :: _ => none
  | fuel + 1, seq, a :: b :: rest =>
    hufMerge fuel (seq + 1)
      (hufInsert { seq := seq, tree := .internal (a.tree.freq + b.tree.freq) a.tree b.tree } rest)

/-- `HufTree(f)` (R162): `none` for the empty table, the leaf itself for a single symbol. -/
def hufTree (f : FreqTable) : Option (HufTree Nat) :=
  hufMerge f.length f.length (hufLeaves 0 f [])

/-- A code table: symbol and codeword (R41). -/
abbrev CodeTable := List (Symbol × Bits)

/-- `Walk` (R164): 0 on a left edge, 1 on a right edge. -/
def hufWalk {φ : Type} : HufTree φ → Bits → CodeTable
  | .leaf v _, path => [(v, path)]
  | .internal _ l r, path => hufWalk l (path ++ [false]) ++ hufWalk r (path ++ [true])

/-- `HufCodes(tree)` (R164): a single-leaf root has the one-bit codeword 0. -/
def hufCodes {φ : Type} (t : Option (HufTree φ)) : CodeTable :=
  match t with
  | none => []
  | some (.leaf v _) => [(v, [false])]
  | some (.internal _ l r) => hufWalk l [false] ++ hufWalk r [true]

/-- The codeword of a symbol; the empty sequence for a symbol the table does not hold, which no rule asks for. -/
def codeFor (c : CodeTable) (v : Symbol) : Bits :=
  (c.lookup v).getD []

/-- A node in preorder (R85, R165). -/
def hufSerNode {φ : Type} (SB : Nat) : HufTree φ → Bits
  | .leaf v _ => true :: bitsOf SB v
  | .internal _ l r => false :: (hufSerNode SB l ++ hufSerNode SB r)

/-- `HufSerTree(tree, SB)` (R165). -/
def hufSerTree {φ : Type} (t : Option (HufTree φ)) (SB : Nat) : Bits :=
  match t with
  | none => []
  | some n => hufSerNode SB n

/-- `HufDeserTree(b, pos, SB)` (R166); every call takes at least one bit, so `fuel` above `len(b) - pos` is never used
up. -/
def hufDeserFuel (SB : Nat) (b : Bits) : Nat → Nat → Except ErrorKind (HufTree Unit × Nat)
  | 0, _ => .error .malformedStream
  | fuel + 1, pos =>
    match b.drop pos with
    | [] => .error .malformedStream
    | true :: rest =>
      if rest.length < SB then .error .malformedStream
      else .ok (.leaf (uint (rest.take SB)) (), pos + 1 + SB)
    | false :: _ =>
      match hufDeserFuel SB b fuel (pos + 1) with
      | .error e => .error e
      | .ok (l, p1) =>
        match hufDeserFuel SB b fuel p1 with
        | .error e => .error e
        | .ok (r, p2) => .ok (.internal () l r, p2)

/-- `HufDeserTree(b, pos, SB)` (R166): the tree and the cursor after it. -/
def hufDeserTree (b : Bits) (pos SB : Nat) : Except ErrorKind (HufTree Unit × Nat) :=
  hufDeserFuel SB b (b.length + 1) pos

/-- Serialized trees longer than this many bits do not fit the 16-bit field (R88, R168). -/
def hufMaxTreeBits : Nat := 65535

/-- More input bytes than this do not fit the 17-bit field (R88, R168). -/
def hufMaxBytes : Nat := 131071

/-- The largest symbol width the 6-bit field holds (R88, R160). -/
def hufMaxSymbolBits : Nat := 63

/-- The payload: one codeword per input chunk, in order (R167). -/
def hufPayload (c : CodeTable) (vals : List Nat) : Bits :=
  vals.flatMap (codeFor c)

/-- The frame of R86 from its fields. -/
def hufFrame (SB : Nat) (ts : Bits) (nbytes : Nat) (payload : Bits) : Bits :=
  bitsOf 6 SB ++ bitsOf 16 ts.length ++ ts ++ bitsOf 17 nbytes ++ payload

/-- `HufEncode(d, SB)` (R167): the empty-input test is first; then SB, then the capacity checks of R168. -/
def hufEncode (d : Bits) (SB : Nat) : Except ErrorKind Bits :=
  if d = [] then .ok []
  else if SB = 0 then .error .invalidInput
  else if hufMaxSymbolBits < SB then .error .capacityExceeded
  else if hufMaxBytes < ceilDiv d.length 8 then .error .capacityExceeded
  else
    let tree := hufTree (hufFreq d SB)
    let ts := hufSerTree tree SB
    if hufMaxTreeBits < ts.length then .error .capacityExceeded
    else .ok (hufFrame SB ts (ceilDiv d.length 8) (hufPayload (hufCodes tree) (chunkVals SB d)))

/-- Follow the payload from an internal node to a leaf: its symbol and the payload after it (R169, R172). -/
def hufFollow : HufTree Unit → Bits → Except ErrorKind (Symbol × Bits)
  | .leaf v _, rest => .ok (v, rest)
  | .internal _ _ _, [] => .error .malformedStream
  | .internal _ l _, false :: rest => hufFollow l rest
  | .internal _ _ r, true :: rest => hufFollow r rest

/-- One emitted symbol: a leaf root takes one payload bit, whose value is not examined (R169, R170); the absent tree has
no symbol (R173). -/
def hufSymbol (t : Option (HufTree Unit)) (payload : Bits) : Except ErrorKind (Symbol × Bits) :=
  match t, payload with
  | none, _ => .error .malformedStream
  | some (.leaf _ _), [] => .error .malformedStream
  | some (.leaf v _), _ :: rest => .ok (v, rest)
  | some (.internal f l r), payload => hufFollow (.internal f l r) payload

/-- The loop of R169 after `emitted` bits: whole `SB`-bit values until `target` bits are out (R171). Every symbol takes a
payload bit, so a fuel above the payload's length is never used up. -/
def hufDecodeLoop (t : Option (HufTree Unit)) (SB target : Nat) : Nat → Nat → Bits → Except ErrorKind Bits
  | 0, emitted, _ => if emitted < target then .error .malformedStream else .ok []
  | fuel + 1, emitted, payload =>
    if emitted < target then
      match hufSymbol t payload with
      | .error e => .error e
      | .ok (v, rest) =>
        match hufDecodeLoop t SB target fuel (emitted + SB) rest with
        | .error e => .error e
        | .ok out => .ok (bitsOf SB v ++ out)
    else .ok []

/-- The tree field of a frame: empty for `ts = 0`, else parsed from the `ts`-bit slice, which it must fill exactly
(R169, R173). -/
def hufTreeField (field : Bits) (SB : Nat) : Except ErrorKind (Option (HufTree Unit)) :=
  if field = [] then .ok none
  else
    match hufDeserTree field 0 SB with
    | .error e => .error e
    | .ok (t, used) => if used = field.length then .ok (some t) else .error .malformedStream

/-- `HufDecode(b)` (R169); bits after the last needed codeword are ignored (R89). -/
def hufDecode (b : Bits) : Except ErrorKind Bits :=
  if b = [] then .ok []
  else if b.length < 22 then .error .malformedStream
  else
    let SB := uint (slice b 0 6)
    let ts := uint (slice b 6 22)
    if SB = 0 then .error .malformedStream
    else if b.length < 22 + ts + 17 then .error .malformedStream
    else
      match hufTreeField (slice b 22 (22 + ts)) SB with
      | .error e => .error e
      | .ok tree =>
        let nbytes := uint (slice b (22 + ts) (39 + ts))
        hufDecodeLoop tree SB (8 * nbytes) (b.length + 1) 0 (b.drop (39 + ts))

end Sys2Proof.Machine
end

