-- ==== Sys2Proof/Machine/NumberCodec.lean ====
section
/-! DEFINITION. The pure functions of the NumberCodec (spec/40_numbercodec.md R100, R101; wire format
spec/30_encoding.md R79 to R82). -/

namespace Sys2Proof.Machine

/-- The code of a natural number: small form for `n < 2^S`, else large form (R79, R80, R100). -/
def numCode (S n : Nat) : Bits :=
  if n < 2 ^ S then true :: bitsOf S n
  else
    let logn := bitlen n
    let loglogn := bitlen logn
    zeros loglogn ++ bitsOf loglogn logn ++ bitsOf logn n

/-- `NumEncode(n, S)` (R100): the negative check comes first. -/
def numEncode (n : Int) (S : Nat) : Except ErrorKind Bits :=
  if n < 0 then .error .invalidInput else .ok (numCode S n.toNat)

/-- `NumDecode` on the bits from the cursor on: the number and how many bits its code takes (R101). All length checks
come before the `NUM_BITS` check (R101, R207, conflict C11). No check that the code is canonical (R82).
DEDUCED (log entry 7): a small-form value that does not fit `NUM_BITS` raises `CapacityExceeded` ("a value too large for
`NUM_BITS` is an error, never truncated", R107). -/
def numDecodeFront (numBits : Limit) (S : Nat) (u : Bits) : Except ErrorKind (Nat × Nat) :=
  match u with
  | [] => .error .malformedStream
  | true :: rest =>
    if rest.length < S then .error .malformedStream
    else if numBits.fits (uint (rest.take S)) then .ok (uint (rest.take S), 1 + S)
    else .error .capacityExceeded
  | false :: rest =>
    let loglogn := leadingZeros (false :: rest)
    if loglogn = (false :: rest).length then .error .malformedStream
    else if (false :: rest).length < 2 * loglogn then .error .malformedStream
    else
      let logn := uint (slice (false :: rest) loglogn (2 * loglogn))
      if (false :: rest).length < 2 * loglogn + logn then .error .malformedStream
      else if numBits.allows logn then
        .ok (uint (slice (false :: rest) (2 * loglogn) (2 * loglogn + logn)), 2 * loglogn + logn)
      else .error .capacityExceeded

/-- `NumDecode(b, pos, S)` (R101): the number and the cursor after its code. -/
def numDecode (numBits : Limit) (S : Nat) (b : Bits) (pos : Nat) : Except ErrorKind (Nat × Nat) :=
  match numDecodeFront numBits S (b.drop pos) with
  | .ok (n, used) => .ok (n, pos + used)
  | .error e => .error e

end Sys2Proof.Machine
end

