-- ==== Sys2Proof/Machine/LzMatcher.lean ====
section
/-! DEFINITION. The pure functions of the LZMatcher (spec/41_lzmatcher.md R122 to R137; token stream spec/30_encoding.md
R83, R84). Positions, offsets and lengths count symbols and never wrap (R148). -/

namespace Sys2Proof.Machine

/-- The hash index (spec/10_state.md R39) as its registrations in insertion order: a key (a k-gram) and the position it
was registered for. The list under a key is the positions registered for that key, in order; duplicates are kept
(R131), keys are compared symbol for symbol (R130). -/
abbrev HashIndex := List (List Symbol × Nat)

/-- The list under a key (R39). -/
def hashLookup (index : HashIndex) (key : List Symbol) : List Nat :=
  (index.filter fun e => e.1 == key).map Prod.snd

/-- Equal symbols counted from the front of two lists, at most `cap` of them (R124). -/
def commonPrefix : Nat → List Symbol → List Symbol → Nat
  | cap + 1, a :: as, b :: bs => if a = b then commonPrefix cap as bs + 1 else 0
  | _, _, _ => 0

/-- `run(j, i)`: capped at `L` and never reaching the last symbol (R124). -/
def runLength (sym : List Symbol) (L j i : Nat) : Nat :=
  commonPrefix (min L (sym.length - 1 - i)) (sym.drop j) (sym.drop i)

/-- The candidates at `i`: entries under the key of `i` inside the window `i - W ≤ j < i`, in list order; none when
fewer than `K` symbols remain (R122, R123). `i - W ≤ j` is written `i ≤ j + W` (R148). -/
def lzCandidates (sym : List Symbol) (W K : Nat) (index : HashIndex) (i : Nat) : List Nat :=
  if i + K ≤ sym.length then
    (hashLookup index (slice sym i (i + K))).filter fun j => decide (i ≤ j + W) && decide (j < i)
  else []

/-- Keep the best `(offset, length)`; only a strictly longer run replaces it (R125). -/
def lzBetter (sym : List Symbol) (L i : Nat) (best : Nat × Nat) (j : Nat) : Nat × Nat :=
  if best.2 < runLength sym L j i then (i - j, runLength sym L j i) else best

/-- `(best_offset, best_length)` of the step at `i` (R125). -/
def lzBest (sym : List Symbol) (W L K : Nat) (index : HashIndex) (i : Nat) : Nat × Nat :=
  (lzCandidates sym W K index i).foldl (lzBetter sym L i) (0, 0)

/-- The registrations of the step at `i`: every full k-gram starting in `[max(0, i-K+1), i]`, in ascending start position
(R126, D17, D18; DEDUCED, log entry 8). -/
def lzRegistrations (sym : List Symbol) (K i : Nat) : HashIndex :=
  ((List.range' (i + 1 - K) (i + 1 - (i + 1 - K))).filter fun p => decide (p + K ≤ sym.length)).map
    fun p => (slice sym p (p + K), p)

/-- The loop of R129 from position `i` on; `fuel` bounds the number of steps (R128: at most `N`). -/
def lzMatchLoop (sym : List Symbol) (W L K : Nat) : Nat → HashIndex → Nat → List Token
  | 0, _, _ => []
  | fuel + 1, index, i =>
    if i < sym.length then
      let best := lzBest sym W L K index i
      { offset := best.1, length := best.2, literal := sym.getD (i + best.2) 0 } ::
        lzMatchLoop sym W L K fuel (index ++ lzRegistrations sym K i) (i + best.2 + 1)
    else []

/-- `LzMatch(sym, W, L, K)` (R129). -/
def lzMatch (sym : List Symbol) (W L K : Nat) : List Token :=
  lzMatchLoop sym W L K sym.length [] 0

/-- The overlapping copy: `n` symbols from position `start` on, each read after the one before it was appended
(R134, spec/20_memory.md R58). -/
def lzCopy : Nat → Nat → List Symbol → List Symbol
  | 0, _, out => out
  | n + 1, start, out => lzCopy n (start + 1) (out ++ [out.getD start 0])

/-- Execute one token on the output so far (R133, R135). -/
def lzApply (out : List Symbol) (t : Token) : Except ErrorKind (List Symbol) :=
  if out.length < t.offset then .error .malformedStream
  else if 0 < t.length ∧ t.offset = 0 then .error .malformedStream
  else .ok (lzCopy t.length (out.length - t.offset) out ++ [t.literal])

/-- `LzReconstruct` from an output already written (R133). -/
def lzReconstructFrom (out : List Symbol) : List Token → Except ErrorKind (List Symbol)
  | [] => .ok out
  | t :: toks =>
    match lzApply out t with
    | .ok out' => lzReconstructFrom out' toks
    | .error e => .error e

/-- `LzReconstruct(toks)` (R133). -/
def lzReconstruct (toks : List Token) : Except ErrorKind (List Symbol) :=
  lzReconstructFrom [] toks

/-- The bits of one token whose literal fits (R83). -/
def tokenBits (S B : Nat) (t : Token) : Bits :=
  numCode S t.offset ++ numCode S t.length ++ bitsOf B t.literal

/-- `LzSerialize(toks, S, B)` (R136). -/
def lzSerialize (S B : Nat) : List Token → Except ErrorKind Bits
  | [] => .ok []
  | t :: toks =>
    if 2 ^ B ≤ t.literal then .error .invalidInput
    else
      match lzSerialize S B toks with
      | .ok rest => .ok (tokenBits S B t ++ rest)
      | .error e => .error e

/-- One token of the stream at `pos`: offset code, length code, `B` literal bits; the token and the cursor after it
(R137). -/
def lzDeserToken (numBits : Limit) (S B : Nat) (b : Bits) (pos : Nat) : Except ErrorKind (Token × Nat) :=
  match numDecode numBits S b pos with
  | .error e => .error e
  | .ok (offset, p1) =>
    match numDecode numBits S b p1 with
    | .error e => .error e
    | .ok (length, p2) =>
      if b.length - p2 < B then .error .malformedStream
      else .ok ({ offset := offset, length := length, literal := uint (slice b p2 (p2 + B)) }, p2 + B)

/-- The loop of R137 from `pos` on; every token takes at least two bits, so a fuel of `len(b)` is never used up. -/
def lzDeserLoop (numBits : Limit) (S B : Nat) (b : Bits) : Nat → Nat → Except ErrorKind (List Token)
  | 0, pos => if pos < b.length then .error .malformedStream else .ok []
  | fuel + 1, pos =>
    if pos < b.length then
      match lzDeserToken numBits S B b pos with
      | .error e => .error e
      | .ok (t, pos') =>
        match lzDeserLoop numBits S B b fuel pos' with
        | .error e => .error e
        | .ok toks => .ok (t :: toks)
    else .ok []

/-- `LzDeserialize(b, S, B)` (R137). -/
def lzDeserialize (numBits : Limit) (S B : Nat) (b : Bits) : Except ErrorKind (List Token) :=
  lzDeserLoop numBits S B b b.length 0

end Sys2Proof.Machine
end

