-- ==== Sys2Proof/Machine/Flags.lean ====
section
/-! DEFINITION. The CORE's only flags: the fields of STATUS (spec/10_state.md R23, R31; spec/60_exceptions.md R200). -/

namespace Sys2Proof.Machine

/-- The code of an error kind, the ERR field (R200). -/
def ErrorKind.code (e : ErrorKind) : Nat :=
  match e with
  | .invalidInput => 1
  | .capacityExceeded => 2
  | .malformedStream => 3
  | .illegalCommand => 4

/-- `STATUS.STATE`, bits [1:0] (R23). -/
def Status.stateField (st : Status) : Nat :=
  match st with
  | .idle => 0
  | .done => 1
  | .error _ => 2

/-- `STATUS.ERR`, bits [4:2] (R23). -/
def Status.errField (st : Status) : Nat :=
  match st with
  | .idle => 0
  | .done => 0
  | .error e => e.code

/-- The word a read of STATUS returns; the bits above ERR read 0 (R23). -/
def Status.word (st : Status) : Nat :=
  st.stateField + 4 * st.errField

end Sys2Proof.Machine
end

