-- ==== Sys2Proof/Machine/Ops.lean ====
section
/-! DEFINITION. The named operations over registers and buffers (spec/10_state.md R21 to R28; spec/20_memory.md R50 to R57),
raising an error and ending a command (spec/43_system.md R194; spec/60_exceptions.md R208, R209). -/

namespace Sys2Proof.Machine

/-- `IN_LEN` (R26). -/
abbrev State.inLen (s : State) : Nat := s.inBuf.length

/-- `OUT_LEN` (R27). -/
abbrev State.outLen (s : State) : Nat := s.outBuf.length

/-- `TOK_CNT` (R28). -/
abbrev State.tokCnt (s : State) : Nat := s.tok.length

/-- The unread part of IN, `IN[IN_RD : IN_LEN)` (R26). -/
abbrev State.unread (s : State) : Bits := s.inBuf.drop s.inRd

/-- What a host read of a register returns (R21, R192): `CMD` and reserved numbers read 0. -/
def readReg (r : Reg) (s : State) : Int :=
  match r with
  | .cmd => 0
  | .status => s.status.word
  | .numS => s.numS
  | .lzW => s.lzW
  | .lzL => s.lzL
  | .lzK => s.lzK
  | .lzB => s.lzB
  | .hufSB => s.hufSB
  | .numN => s.numN
  | .numR => s.numR
  | .inLen => s.inLen
  | .inRd => s.inRd
  | .outLen => s.outLen
  | .tokCnt => s.tokCnt
  | .reserved _ => 0

/-- What a host write of `v` to a register other than `CMD` does (R34, R191, D38): parameters and `NUM_N` take it, `IN_RD`
takes it if `v ≤ IN_LEN`, every other register ignores it. -/
def writeReg (r : Reg) (v : Int) (s : State) : State :=
  match r with
  | .numS => { s with numS := v.toNat }
  | .lzW => { s with lzW := v.toNat }
  | .lzL => { s with lzL := v.toNat }
  | .lzK => { s with lzK := v.toNat }
  | .lzB => { s with lzB := v.toNat }
  | .hufSB => { s with hufSB := v.toNat }
  | .numN => { s with numN := v }
  | .inRd => if v.toNat ≤ s.inLen then { s with inRd := v.toNat } else s
  | .cmd | .status | .numR | .inLen | .outLen | .tokCnt | .reserved _ => s

/-- `LOAD_IN` (R26, R193): IN takes the bits, `IN_RD` is 0. -/
def loadIn (b : Bits) (s : State) : State := { s with inBuf := b, inRd := 0 }

/-- `LOAD_TOK` (R28, R193). -/
def loadTok (toks : List Token) (s : State) : State := { s with tok := toks }

/-- OUT emptied (R27, R190). -/
def clearOut (s : State) : State := { s with outBuf := [] }

/-- A command's token list stored in TOK; the capacity was checked where the rule checks it. -/
def setTok (toks : List Token) (s : State) : State := { s with tok := toks }

/-- The whole unread part is consumed: `IN_RD ← IN_LEN` (R26). -/
def consumeIn (s : State) : State := { s with inRd := s.inLen }

/-- `MemWrite(OUT, len(OUT), …)`: append, or `CapacityExceeded` (R13, R27). -/
def appendOut (b : Bits) (s : State) : Except ErrorKind State :=
  if s.build.outCap.allows (s.outLen + b.length) then .ok { s with outBuf := s.outBuf ++ b }
  else .error .capacityExceeded

/-- OUT replaced by a whole result, or `CapacityExceeded` (R27). -/
def putOut (b : Bits) (s : State) : Except ErrorKind State :=
  if s.build.outCap.allows b.length then .ok { s with outBuf := b }
  else .error .capacityExceeded

/-- A token list that fits TOK, or `CapacityExceeded` (R28, R138, R141). -/
def fitTok (toks : List Token) (s : State) : Except ErrorKind (List Token) :=
  if s.build.tokCap.allows toks.length then .ok toks else .error .capacityExceeded

/-- The whole-buffer destinations of a command (R27, R28). -/
structure Dest where
  out : Bool
  tok : Bool
  deriving DecidableEq, Repr

/-- Empty the whole-buffer destinations of a failing command (R194, R208, D8). -/
def emptyDest (d : Dest) (s : State) : State :=
  { s with
    outBuf := if d.out then [] else s.outBuf
    tok := if d.tok then [] else s.tok }

/-- Raise an error, the CORE's only exception entry (R208): the destinations are emptied and STATUS says which error;
nothing is saved, no mode changes, control returns to the host. -/
def raiseError (d : Dest) (e : ErrorKind) (s : State) : State :=
  { emptyDest d s with status := .error e }

/-- The command reached its end: `STATUS ← DONE` (R194). There is no return from an error (R209): the next command's
outcome overwrites STATUS, here or in `raiseError`. -/
def completeCommand (s : State) : State := { s with status := .done }

/-- The end of every command (R194): `s` is the state it started in, `r` the state its pseudocode ended in or the error it
raised. A command always leaves a next state. -/
def endCommand (d : Dest) (s : State) (r : Except ErrorKind State) : Host.Outcome State Fault Refusal :=
  match r with
  | .ok s' => .next (completeCommand s')
  | .error e => .next (raiseError d e s)

/-- Every register and buffer at its reset value; the build and the host's side are not the CORE's registers
(R36, R230; log entry 11). -/
def applyReset (s : State) : State :=
  { State.resetOf s.build with pending := s.pending, replies := s.replies }

/-- The bounds the three buffers keep: at most `IN_CAP`, `OUT_CAP` bits and `TOK_CAP` tokens, every token inside its
fields, the cursor inside IN (R26 to R28). A buffer is a list, so equal contents are equal data
(DESIGN CHOICE, log entry 13). -/
def Memory.wf (s : State) : Bool :=
  s.build.inCap.allows s.inBuf.length && s.build.outCap.allows s.outBuf.length
    && s.build.tokCap.allows s.tok.length && s.tok.all (Token.wf s.build) && decide (s.inRd ≤ s.inBuf.length)

end Sys2Proof.Machine
end

