-- ==== Sys2Proof/Machine/Operands.lean ====
section
/-! DEFINITION. Operand sourcing (spec/30_encoding.md R78): what each family reads when its command starts, and the checks the
commands make on it, in the written order (spec/60_exceptions.md R207). -/

namespace Sys2Proof.Machine

/-- The legal LZ symbol widths are 1 and 8 (R121, D14). -/
def lzWidthLegal (B : Nat) : Bool :=
  decide (B = 1) || decide (B = 8)

/-- The input symbols of `LZ_MATCH` and `LZ_ENC`: `B`, then `L` and `K`, then the input length (R120, R121, R138). -/
def lzMatchOperand (s : State) : Except ErrorKind (List Symbol) :=
  if lzWidthLegal s.lzB = false then .error .invalidInput
  else if s.lzL = 0 ∨ s.lzK = 0 then .error .invalidInput
  else if s.unread.length % s.lzB ≠ 0 then .error .invalidInput
  else .ok (syms s.lzB s.unread)

/-- The token list `LZ_MATCH` and `LZ_ENC` find, fitted to TOK (R138, R142). -/
def lzMatchTokens (s : State) : Except ErrorKind (List Token) :=
  match lzMatchOperand s with
  | .error e => .error e
  | .ok sym => fitTok (lzMatch sym s.lzW s.lzL s.lzK) s

/-- The token list `LZ_DESER` and `LZ_DEC` read from the unread part, fitted to TOK (R141, R143). -/
def lzDeserTokens (s : State) : Except ErrorKind (List Token) :=
  if lzWidthLegal s.lzB = false then .error .invalidInput
  else
    match lzDeserialize s.build.numBits s.numS s.lzB s.unread with
    | .error e => .error e
    | .ok toks => fitTok toks s

/-- Reconstruct tokens and put the symbols into OUT as `B` bits each (R139, R143). -/
def lzReconOut (toks : List Token) (s : State) : Except ErrorKind State :=
  match lzReconstruct toks with
  | .error e => .error e
  | .ok out => putOut (symBits s.lzB out) s

/-- Serialize tokens into OUT (R140, R142). -/
def lzSerOut (toks : List Token) (s : State) : Except ErrorKind State :=
  match lzSerialize s.numS s.lzB toks with
  | .error e => .error e
  | .ok b => putOut b s

end Sys2Proof.Machine
end

