-- ==== Sys2Proof/Machine/HufCommands.lean ====
section
/-! DEFINITION. The commands of the HuffmanCodec (spec/42_huffman.md R174 to R176). -/

namespace Sys2Proof.Machine

/-- A Huffman command's result put into OUT with the whole unread part consumed (R174, R175). -/
def hufResult (r : Except ErrorKind Bits) (s : State) : Except ErrorKind State :=
  match r with
  | .error e => .error e
  | .ok b =>
    match putOut b s with
    | .error e => .error e
    | .ok s' => .ok (consumeIn s')

/-- `HUF_ENC` (R174). -/
def execHufEnc (s : State) : Host.Outcome State Fault Refusal :=
  endCommand { out := true, tok := false } s (hufResult (hufEncode s.unread s.hufSB) s)

/-- `HUF_DEC` (R175): `HUF_SB` is not read, the frame carries its own width. -/
def execHufDec (s : State) : Host.Outcome State Fault Refusal :=
  endCommand { out := true, tok := false } s (hufResult (hufDecode s.unread) s)

/-- The bits `HUF_TREE` puts into OUT (R176): no limit on the input length or the tree size but `OUT_CAP`. -/
def hufTreeOnly (d : Bits) (SB : Nat) : Except ErrorKind Bits :=
  if d = [] then .ok []
  else if SB = 0 then .error .invalidInput
  else if hufMaxSymbolBits < SB then .error .capacityExceeded
  else .ok (hufSerTree (hufTree (hufFreq d SB)) SB)

/-- `HUF_TREE` (R176). -/
def execHufTree (s : State) : Host.Outcome State Fault Refusal :=
  endCommand { out := true, tok := false } s (hufResult (hufTreeOnly s.unread s.hufSB) s)

end Sys2Proof.Machine
end

