-- ==== Sys2Proof/Machine/LzCommands.lean ====
section
/-! DEFINITION. The commands of the LZMatcher (spec/41_lzmatcher.md R138 to R143). -/

namespace Sys2Proof.Machine

/-- The pseudocode of `LZ_MATCH` (R138). -/
def lzMatchResult (s : State) : Except ErrorKind State :=
  match lzMatchTokens s with
  | .error e => .error e
  | .ok toks => .ok (consumeIn (setTok toks s))

/-- `LZ_MATCH` (R138). -/
def execLzMatch (s : State) : Host.Outcome State Fault Refusal :=
  endCommand { out := false, tok := true } s (lzMatchResult s)

/-- The pseudocode of `LZ_RECON` (R139): the width, then every literal, then the tokens in order, then the capacity. -/
def lzReconResult (s : State) : Except ErrorKind State :=
  if lzWidthLegal s.lzB = false then .error .invalidInput
  else if s.tok.any (fun t => decide (2 ^ s.lzB ≤ t.literal)) then .error .invalidInput
  else lzReconOut s.tok s

/-- `LZ_RECON` (R139). -/
def execLzRecon (s : State) : Host.Outcome State Fault Refusal :=
  endCommand { out := true, tok := false } s (lzReconResult s)

/-- The pseudocode of `LZ_SER` (R140). -/
def lzSerResult (s : State) : Except ErrorKind State :=
  if lzWidthLegal s.lzB = false then .error .invalidInput else lzSerOut s.tok s

/-- `LZ_SER` (R140). -/
def execLzSer (s : State) : Host.Outcome State Fault Refusal :=
  endCommand { out := true, tok := false } s (lzSerResult s)

/-- The pseudocode of `LZ_DESER` (R141). -/
def lzDeserResult (s : State) : Except ErrorKind State :=
  match lzDeserTokens s with
  | .error e => .error e
  | .ok toks => .ok (consumeIn (setTok toks s))

/-- `LZ_DESER` (R141). -/
def execLzDeser (s : State) : Host.Outcome State Fault Refusal :=
  endCommand { out := false, tok := true } s (lzDeserResult s)

/-- The pseudocode of `LZ_ENC` (R142): `LZ_MATCH` then `LZ_SER`; TOK keeps the token list (D40). -/
def lzEncResult (s : State) : Except ErrorKind State :=
  match lzMatchTokens s with
  | .error e => .error e
  | .ok toks =>
    match lzSerOut toks s with
    | .error e => .error e
    | .ok s' => .ok (consumeIn (setTok toks s'))

/-- `LZ_ENC` (R142), one atomic command. -/
def execLzEnc (s : State) : Host.Outcome State Fault Refusal :=
  endCommand { out := true, tok := true } s (lzEncResult s)

/-- The pseudocode of `LZ_DEC` (R143): `LZ_DESER` then `LZ_RECON`; TOK keeps the token list (D40). -/
def lzDecResult (s : State) : Except ErrorKind State :=
  match lzDeserTokens s with
  | .error e => .error e
  | .ok toks =>
    match lzReconOut toks s with
    | .error e => .error e
    | .ok s' => .ok (consumeIn (setTok toks s'))

/-- `LZ_DEC` (R143), one atomic command. -/
def execLzDec (s : State) : Host.Outcome State Fault Refusal :=
  endCommand { out := true, tok := true } s (lzDecResult s)

end Sys2Proof.Machine
end

