-- ==== Sys2Proof/Machine/NumCommands.lean ====
section
/-! DEFINITION. The commands NUM_ENC and NUM_DEC (spec/40_numbercodec.md R102, R103). -/

namespace Sys2Proof.Machine

/-- The pseudocode of `NUM_ENC` (R102): append the code of `NUM_N` to OUT. -/
def numEncResult (s : State) : Except ErrorKind State :=
  match numEncode s.numN s.numS with
  | .error e => .error e
  | .ok c => appendOut c s

/-- `NUM_ENC` (R102): on an error nothing is appended. -/
def execNumEnc (s : State) : Host.Outcome State Fault Refusal :=
  endCommand { out := false, tok := false } s (numEncResult s)

/-- The pseudocode of `NUM_DEC` (R103): one number from the unread part into `NUM_R`, `IN_RD` past its code. -/
def numDecResult (s : State) : Except ErrorKind State :=
  match numDecode s.build.numBits s.numS s.inBuf s.inRd with
  | .error e => .error e
  | .ok (n, p) => .ok { s with numR := n, inRd := p }

/-- `NUM_DEC` (R103): on an error `NUM_R` and `IN_RD` keep their values. -/
def execNumDec (s : State) : Host.Outcome State Fault Refusal :=
  endCommand { out := false, tok := false } s (numDecResult s)

end Sys2Proof.Machine
end

