-- ==== Sys2Proof/Machine/SysCommands.lean ====
section
/-! DEFINITION. The command CLR_OUT (spec/43_system.md R190). -/

namespace Sys2Proof.Machine

/-- `CLR_OUT` (R190). -/
def execClrOut (s : State) : Host.Outcome State Fault Refusal :=
  endCommand { out := true, tok := false } s (.ok (clearOut s))

end Sys2Proof.Machine
end

