-- ==== Sys2Proof/Machine/Dispatch.lean ====
section
/-! DEFINITION. One arm per command of spec/30_encoding.md R76. -/

namespace Sys2Proof.Machine

def exec (i : Instr) (s : State) : Host.Outcome State Fault Refusal :=
  match i with
  | .numEnc => Sys2Proof.Machine.execNumEnc s
  | .numDec => Sys2Proof.Machine.execNumDec s
  | .lzMatch => Sys2Proof.Machine.execLzMatch s
  | .lzRecon => Sys2Proof.Machine.execLzRecon s
  | .lzSer => Sys2Proof.Machine.execLzSer s
  | .lzDeser => Sys2Proof.Machine.execLzDeser s
  | .lzEnc => Sys2Proof.Machine.execLzEnc s
  | .lzDec => Sys2Proof.Machine.execLzDec s
  | .hufEnc => Sys2Proof.Machine.execHufEnc s
  | .hufDec => Sys2Proof.Machine.execHufDec s
  | .clrOut => Sys2Proof.Machine.execClrOut s
  | .hufTree => Sys2Proof.Machine.execHufTree s

end Sys2Proof.Machine
end

