-- ==== Sys2Proof/Machine/HostPort.lean ====
section
/-! DEFINITION. The command envelope and the host's primitives (spec/43_system.md R191 to R195). -/

namespace Sys2Proof.Machine

/-- `StartCommand(v)` (R194): an illegal word only sets STATUS (R204), a legal one runs its command. -/
def startCommand (v : Nat) (s : State) : Host.Outcome State Fault Refusal :=
  match decodeWord v with
  | .ok i => exec i s
  | .error _ => .next (raiseError { out := false, tok := false } .illegalCommand s)

/-- `WR reg, v` (R191). A value outside the register's range cannot be presented: the model faults (log entry 5). -/
def hostWrite (reg : Nat) (v : Int) (s : State) : Host.Outcome State Fault Refusal :=
  if (decodeReg reg).accepts s.build v then
    match decodeReg reg with
    | .cmd => startCommand v.toNat s
    | r => .next (writeReg r v s)
  else .fault (.valueNotPresentable reg)

/-- A value handed to the host, after those it has already (log entry 3). -/
def reply (r : Reply) (s : State) : State := { s with replies := s.replies ++ [r] }

/-- `RD reg` (R192): no read changes any state of the CORE. -/
def hostRead (reg : Nat) (s : State) : Host.Outcome State Fault Refusal :=
  .next (reply (.value (readReg (decodeReg reg) s)) s)

/-- `LOAD_IN bits` (R193): a sequence longer than `IN_CAP` cannot be presented. -/
def hostLoadIn (b : Bits) (s : State) : Host.Outcome State Fault Refusal :=
  if s.build.inCap.allows b.length then .next (loadIn b s) else .fault .loadInNotPresentable

/-- `LOAD_TOK list` (R193): at most `TOK_CAP` tokens, each inside its field widths. -/
def hostLoadTok (toks : List Token) (s : State) : Host.Outcome State Fault Refusal :=
  if s.build.tokCap.allows toks.length && toks.all (Token.wf s.build) then .next (loadTok toks s)
  else .fault .loadTokNotPresentable

/-- One action of the host or the platform (R191 to R193, R230). -/
def hostStep (a : HostAction) (s : State) : Host.Outcome State Fault Refusal :=
  match a with
  | .wr reg v => hostWrite reg v s
  | .rd reg => hostRead reg s
  | .loadIn b => hostLoadIn b s
  | .loadTok toks => hostLoadTok toks s
  | .readOut => .next (reply (.bits s.outBuf) s)
  | .readTok => .next (reply (.tokens s.tok) s)
  | .reset => .next (applyReset s)

/-- The next event (R195): the oldest pending host action with whatever command it starts; with none pending the CORE
waits and nothing changes (R230; log entry 2). -/
def nextEvent (s : State) : Host.Outcome State Fault Refusal :=
  match s.pending with
  | [] => .next s
  | a :: rest => hostStep a { s with pending := rest }

/-- `WR CMD, w` put before the other pending actions (log entry 1). -/
def offerWord (w : Nat) (s : State) : State := { s with pending := .wr 0x00 w :: s.pending }

end Sys2Proof.Machine
end

