-- ==== Sys2Proof/Machine/Step.lean ====
section
/-! DEFINITION. One step of the machine: the next host action with the whole command it may start
(spec/43_system.md R194, R195). -/

namespace Sys2Proof.Machine

/-- One step (R195). -/
def step (s : State) : Host.Outcome State Fault Refusal :=
  nextEvent s

/-- `s` with the command word `w` (a row of spec/opcode_table.json, `nbits` bits) as the host's next write to `CMD`: the
CORE fetches nothing (spec/10_state.md R30), so the word is offered as the next host action (log entry 1). -/
def State.withFetchWord (s : State) (nbits w : Nat) : State :=
  offerWord (w % 2 ^ nbits) s

end Sys2Proof.Machine
end

