-- ==== Sys2Proof/Safety.lean ====
section
/-! DEFINITION. What a good state and a safe run are: registers inside their widths, buffers inside their capacities, and no
host action pending that a host cannot present (spec/10_state.md R21 to R28, R34; spec/43_system.md R191, R193). -/

namespace Sys2Proof

open Sys2Proof.Machine

/-- Every register is inside its width (R21, R24, R25). -/
def registersFit (s : State) : Bool :=
  s.build.pw.fits s.numS && s.build.pw.fits s.lzW && s.build.pw.fits s.lzL && s.build.pw.fits s.lzK
    && s.build.pw.fits s.lzB && s.build.pw.fits s.hufSB
    && s.build.numBits.fitsSigned s.numN && s.build.numBits.fits s.numR

/-- A host action the spec lets a host present (R191, R193). -/
def presentable (c : Config) (a : HostAction) : Bool :=
  match a with
  | .wr reg v => (decodeReg reg).accepts c v
  | .loadIn b => c.inCap.allows b.length
  | .loadTok toks => c.tokCap.allows toks.length && toks.all (Token.wf c)
  | .rd _ | .readOut | .readTok | .reset => true

/-- The invariant: a coherent build, registers inside their widths, buffers inside their capacities. -/
def GoodState (s : State) : Prop :=
  s.build.wf = true ∧ registersFit s = true ∧ Memory.wf s = true

/-- Every pending host action can be presented. -/
def HostKeepsRange (s : State) : Prop :=
  s.pending.all (presentable s.build) = true

end Sys2Proof
end

