-- ==== Sys2Proof/Certificates/Slice0/Obligations.lean ====
section
/-! DEFINITION. The statements for the provers. Each docstring cites the rule of spec/ it formalises; a clause that rests on a
choice of the model names its log entry. -/

namespace Sys2Proof

open Sys2Proof.Machine

/-- The commands that replace OUT as a whole (spec/10_state.md R27). -/
def replacesOut (i : Instr) : Bool :=
  match i with
  | .lzRecon | .lzSer | .lzEnc | .lzDec | .hufEnc | .hufDec | .hufTree => true
  | .numEnc | .numDec | .lzMatch | .lzDeser | .clrOut => false

/-- The commands that replace TOK as a whole (R28). -/
def replacesTok (i : Instr) : Bool :=
  match i with
  | .lzMatch | .lzDeser | .lzEnc | .lzDec => true
  | .numEnc | .numDec | .lzRecon | .lzSer | .hufEnc | .hufDec | .clrOut | .hufTree => false

/-- The bulk commands, which take the whole unread part of IN (R26). -/
def takesUnread (i : Instr) : Bool :=
  match i with
  | .lzMatch | .lzDeser | .lzEnc | .lzDec | .hufEnc | .hufDec | .hufTree => true
  | .numEnc | .numDec | .lzRecon | .lzSer | .clrOut => false

/-- The state a command leaves when it raises `e`: STATUS rewritten, whole-buffer destinations emptied (R194, R208). -/
def afterError (i : Instr) (e : ErrorKind) (s : State) : State :=
  { s with
    status := .error e
    outBuf := if replacesOut i then [] else s.outBuf
    tok := if replacesTok i then [] else s.tok }

/-- How many symbols a token list stands for: `length + 1` each (R28, R132). -/
def symbolsCovered (toks : List Token) : Nat :=
  (toks.map fun t => t.length + 1).sum

/-- The hash index a match search holds after the steps that emitted `before`: the registrations of every step's position,
in order (R126, R128). -/
def indexAfter (sym : List Symbol) (K : Nat) (before : List Token) : HashIndex :=
  (List.range before.length).flatMap fun k => lzRegistrations sym K (symbolsCovered (before.take k))

/-- A token list as a stream of bits: offset code, length code, `B` literal bits, no separators (R83). -/
def streamOf (S B : Nat) (toks : List Token) : Bits :=
  toks.flatMap fun t => numCode S t.offset ++ numCode S t.length ++ bitsOf B t.literal

/-- Every literal of the list is below `2^B` (R37). -/
def literalsFit (B : Nat) (toks : List Token) : Prop :=
  ∀ t ∈ toks, t.literal < 2 ^ B

/-- Every offset and length of the list is below `2^NUM_BITS` (R28). -/
def numbersFit (numBits : Limit) (toks : List Token) : Prop :=
  ∀ t ∈ toks, numBits.fits t.offset = true ∧ numBits.fits t.length = true

/-- Decode `k` number codes one after another from `pos` (R105). -/
def decodeNumbers (numBits : Limit) (S : Nat) (b : Bits) : Nat → Nat → Except ErrorKind (List Nat × Nat)
  | 0, pos => .ok ([], pos)
  | k + 1, pos =>
    match numDecode numBits S b pos with
    | .error e => .error e
    | .ok (n, p) =>
      match decodeNumbers numBits S b k p with
      | .error e => .error e
      | .ok (ns, q) => .ok (n :: ns, q)

/-- The match loop with each position kept once in the index (R131). -/
def lzMatchOnceLoop (sym : List Symbol) (W L K : Nat) : Nat → HashIndex → Nat → List Token
  | 0, _, _ => []
  | fuel + 1, index, i =>
    if i < sym.length then
      let best := lzBest sym W L K index i
      { offset := best.1, length := best.2, literal := sym.getD (i + best.2) 0 } ::
        lzMatchOnceLoop sym W L K fuel
          (index ++ (lzRegistrations sym K i).filter fun e => !index.contains e) (i + best.2 + 1)
    else []

/-- The node of a non-empty list with the least key, found by scanning (R162). -/
def leastNode : HufNode → List HufNode → HufNode
  | best, [] => best
  | best, x :: xs => if x.before best then leastNode x xs else leastNode best xs

/-- The merge loop of R162 over an unordered collection: twice remove the node with the least key, found by scanning,
then insert the merged node. -/
def mergeBySearch : Nat → Nat → List HufNode → Option (HufTree Nat)
  | _, _, [] => none
  | _, _, [e] => some e.tree
  | 0, _, _ :: _ :: _ => none
  | fuel + 1, seq, x :: y :: rest =>
    let a := leastNode x (y :: rest)
    match (x :: y :: rest).erase a with
    | [] => none
    | u :: us =>
      let b := leastNode u us
      mergeBySearch fuel (seq + 1)
        ({ seq := seq, tree := .internal (a.tree.freq + b.tree.freq) a.tree b.tree } :: (u :: us).erase b)

/-- The leaves of a table in ascending symbol value, numbered 0, 1, ... (R163 (a)). -/
def numberedLeaves (f : FreqTable) : List HufNode :=
  f.zipIdx.map fun e => { seq := e.2, tree := .leaf e.1.1 e.1.2 }

/-- How many internal nodes a tree has (R178). -/
def internalNodes {φ : Type} : HufTree φ → Nat
  | .leaf _ _ => 0
  | .internal _ l r => internalNodes l + internalNodes r + 1

/-- The frequency of every internal node is the sum of its children's (R38). -/
def frequenciesAdd : HufTree Nat → Prop
  | .leaf _ _ => True
  | .internal f l r => f = l.freq + r.freq ∧ frequenciesAdd l ∧ frequenciesAdd r

/-- Two states that agree on what commands read: build, parameters, `NUM_N`, the unread part of IN, TOK (R33, R78). -/
def sameOperands (s t : State) : Prop :=
  s.build = t.build ∧ s.numS = t.numS ∧ s.lzW = t.lzW ∧ s.lzL = t.lzL ∧ s.lzK = t.lzK ∧ s.lzB = t.lzB ∧
    s.hufSB = t.hufSB ∧ s.numN = t.numN ∧ s.unread = t.unread ∧ s.tok = t.tok

end Sys2Proof

open Sys2Proof Sys2Proof.Machine

/-! ### Command words, registers, the step -/

/-- R76: the twelve command words of the table, each written out, and four of the register numbers of R21. -/
def Obligations.CommandWordsDecodeAsTabled : Prop :=
  decodeWord 0x1 = .ok .numEnc ∧ decodeWord 0x2 = .ok .numDec ∧ decodeWord 0x3 = .ok .lzMatch ∧
  decodeWord 0x4 = .ok .lzRecon ∧ decodeWord 0x5 = .ok .lzSer ∧ decodeWord 0x6 = .ok .lzDeser ∧
  decodeWord 0x7 = .ok .lzEnc ∧ decodeWord 0x8 = .ok .lzDec ∧ decodeWord 0x9 = .ok .hufEnc ∧
  decodeWord 0xA = .ok .hufDec ∧ decodeWord 0xB = .ok .clrOut ∧ decodeWord 0xC = .ok .hufTree ∧
  decodeReg 0x00 = .cmd ∧ decodeReg 0x08 = .numN ∧ decodeReg 0x0B = .inRd ∧ decodeReg 0x0D = .tokCnt

/-- R75 to R77: a word decodes to a command exactly when it is that command's encoding, and is rejected exactly when a bit
of ZERO is set or OP is 0x0, 0xD, 0xE or 0xF. -/
def Obligations.LegalWordsAreTheEncodings : Prop :=
  (∀ (v : Nat) (i : Instr), decodeWord v = .ok i ↔ v = encode i) ∧
  (∀ v : Nat, (∃ e, decodeWord v = .error e) ↔ (v / 16 ≠ 0 ∨ v % 16 = 0x0 ∨ 0xD ≤ v % 16))

/-- R21: register numbers name registers one to one; 0x0E and above are reserved. -/
def Obligations.RegisterNumbersAreOneToOne : Prop :=
  (∀ n : Nat, encodeReg (decodeReg n) = n) ∧ (∀ n : Nat, 0x0E ≤ n ↔ decodeReg n = .reserved n)

/-- R204: an illegal word changes nothing but STATUS. -/
def Obligations.IllegalWordOnlySetsStatus : Prop :=
  ∀ (s : State) (v : Nat), (v / 16 ≠ 0 ∨ v % 16 = 0x0 ∨ v % 16 = 0xD ∨ v % 16 = 0xE ∨ v % 16 = 0xF) →
    startCommand v s = .next { s with status := .error .illegalCommand }

/-- R194, R30: when the oldest pending action writes a word that decodes to `i` to `CMD`, the step is `exec i` on the state
with that action taken; so is the step of a state the host's word was offered to. An illegal word sets STATUS only.
The list of pending actions is the model's (log entry 1). -/
def Obligations.StepRunsTheCommandWritten : Prop :=
  (∀ (s : State) (rest : List HostAction) (w : Nat) (i : Instr),
    s.pending = .wr 0x00 (w : Int) :: rest → s.build.pw.fits w = true → decodeWord w = .ok i →
      step s = exec i { s with pending := rest }) ∧
  (∀ (s : State) (rest : List HostAction) (w : Nat) (e : IllegalWord),
    s.pending = .wr 0x00 (w : Int) :: rest → s.build.pw.fits w = true → decodeWord w = .error e →
      step s = .next { s with pending := rest, status := .error .illegalCommand }) ∧
  (∀ (s : State) (nbits w : Nat) (i : Instr),
    decodeTableWord nbits w = some i → s.build.pw.fits (w % 2 ^ nbits) = true →
      step (s.withFetchWord nbits w) = exec i s)

/-- R195, R230: the step takes the oldest host action and nothing else; with none pending the CORE waits and nothing changes
(the model's choices, log entries 1 and 2). -/
def Obligations.StepTakesOldestHostAction : Prop :=
  (∀ (s : State) (a : HostAction) (rest : List HostAction),
    s.pending = a :: rest → step s = hostStep a { s with pending := rest }) ∧
  (∀ s : State, s.pending = [] → step s = .next s)

/-! ### Host primitives and reset -/

/-- R191: what a host write does, register number by register number. -/
def Obligations.HostWriteEffects : Prop :=
  (∀ (s : State) (v : Nat), s.build.pw.fits v = true →
    hostWrite 0x00 v s = startCommand v s ∧
    hostWrite 0x02 v s = .next { s with numS := v } ∧
    hostWrite 0x03 v s = .next { s with lzW := v } ∧
    hostWrite 0x04 v s = .next { s with lzL := v } ∧
    hostWrite 0x05 v s = .next { s with lzK := v } ∧
    hostWrite 0x06 v s = .next { s with lzB := v } ∧
    hostWrite 0x07 v s = .next { s with hufSB := v } ∧
    (v ≤ s.inBuf.length → hostWrite 0x0B v s = .next { s with inRd := v }) ∧
    (s.inBuf.length < v → hostWrite 0x0B v s = .next s)) ∧
  (∀ (s : State) (v : Int), s.build.numBits.fitsSigned v = true →
    hostWrite 0x08 v s = .next { s with numN := v }) ∧
  (∀ (s : State) (n : Nat) (v : Int), n = 0x01 ∨ n = 0x09 ∨ n = 0x0A ∨ n = 0x0C ∨ n = 0x0D ∨ 0x0E ≤ n →
    hostWrite n v s = .next s)

/-- R192: what a host read returns, register number by register number; it changes nothing of the CORE (the value goes to
the model's list of replies, log entry 3). -/
def Obligations.HostReadEffects : Prop :=
  ∀ s : State,
    let returns (n : Nat) (v : Int) : Prop :=
      hostRead n s = .next { s with replies := s.replies ++ [.value v] }
    returns 0x00 0 ∧ returns 0x01 s.status.word ∧ returns 0x02 s.numS ∧ returns 0x03 s.lzW ∧ returns 0x04 s.lzL ∧
    returns 0x05 s.lzK ∧ returns 0x06 s.lzB ∧ returns 0x07 s.hufSB ∧ returns 0x08 s.numN ∧ returns 0x09 s.numR ∧
    returns 0x0A s.inBuf.length ∧ returns 0x0B s.inRd ∧ returns 0x0C s.outBuf.length ∧ returns 0x0D s.tok.length ∧
    (∀ n : Nat, 0x0E ≤ n → returns n 0)

/-- R193: the four buffer primitives. -/
def Obligations.BufferPrimitiveEffects : Prop :=
  (∀ (s : State) (b : Bits), s.build.inCap.allows b.length = true →
    hostStep (.loadIn b) s = .next { s with inBuf := b, inRd := 0 }) ∧
  (∀ (s : State) (toks : List Token), s.build.tokCap.allows toks.length = true →
    (∀ t ∈ toks, s.build.numBits.fits t.offset = true ∧ s.build.numBits.fits t.length = true ∧ t.literal < 2 ^ 8) →
      hostStep (.loadTok toks) s = .next { s with tok := toks }) ∧
  (∀ s : State, hostStep .readOut s = .next { s with replies := s.replies ++ [.bits s.outBuf] }) ∧
  (∀ s : State, hostStep .readTok s = .next { s with replies := s.replies ++ [.tokens s.tok] })

/-- R191, R193 "cannot be presented": the model stops by name on such an action (log entry 5). -/
def Obligations.UnpresentableActionsFault : Prop :=
  (∀ (s : State) (n : Nat) (v : Int), (decodeReg n).accepts s.build v = false →
    hostStep (.wr n v) s = .fault (.valueNotPresentable n)) ∧
  (∀ (s : State) (b : Bits), s.build.inCap.allows b.length = false →
    hostStep (.loadIn b) s = .fault .loadInNotPresentable) ∧
  (∀ (s : State) (toks : List Token),
    (s.build.tokCap.allows toks.length = false ∨
      ∃ t ∈ toks, s.build.numBits.fits t.offset = false ∨ s.build.numBits.fits t.length = false ∨ 2 ^ 8 ≤ t.literal) →
      hostStep (.loadTok toks) s = .fault .loadTokNotPresentable)

/-- R36: every register and buffer after reset. -/
def Obligations.ResetValues : Prop :=
  let s := State.reset
  s.status = .idle ∧ s.status.word = 0 ∧ s.numS = 5 ∧ s.lzW = 0 ∧ s.lzL = 0 ∧ s.lzK = 0 ∧ s.lzB = 8 ∧ s.hufSB = 8 ∧
    s.numN = 0 ∧ s.numR = 0 ∧ s.inLen = 0 ∧ s.inRd = 0 ∧ s.outLen = 0 ∧ s.tokCnt = 0 ∧
    s.inBuf = [] ∧ s.outBuf = [] ∧ s.tok = []

/-- R230 applied by the platform between commands (the model's choice, log entry 11): every register and buffer takes its
reset value whatever it held; the build, the other pending actions and the replies stay. -/
def Obligations.PlatformResetRestoresResetValues : Prop :=
  ∀ (s : State) (rest : List HostAction), s.pending = .reset :: rest →
    step s = .next { State.reset with build := s.build, pending := rest, replies := s.replies }

/-! ### Whole-machine rules -/

/-- R23: the fields and codes of STATUS, that every command rewrites it, that no other host action but a reset does, and
that no command reads it. -/
def Obligations.StatusLife : Prop :=
  (Status.word .idle = 0 ∧ Status.word .done = 1 ∧ Status.word (.error .invalidInput) = 0x06 ∧
    Status.word (.error .capacityExceeded) = 0x0A ∧ Status.word (.error .malformedStream) = 0x0E ∧
    Status.word (.error .illegalCommand) = 0x12) ∧
  (∀ st : Status, st.word < 2 ^ 5 ∧ st.word % 4 ≤ 2 ∧ st.word / 4 ≤ 4 ∧ (st.word / 4 ≠ 0 ↔ st.word % 4 = 2)) ∧
  (∀ (i : Instr) (s t : State), exec i s = .next t → t.status ≠ .idle) ∧
  (∀ (a : HostAction) (s t : State), (∀ v, a ≠ .wr 0x00 v) → a ≠ .reset → hostStep a s = .next t →
    t.status = s.status) ∧
  (∀ (i : Instr) (s : State) (st : Status), exec i { s with status := st } = exec i s)

/-- R194, R21, R197: no command changes a parameter register, `NUM_N`, IN, the build or the host's side. -/
def Obligations.CommandsNeverChangeParametersOrInput : Prop :=
  ∀ (i : Instr) (s t : State), exec i s = .next t →
    t.build = s.build ∧ t.numS = s.numS ∧ t.lzW = s.lzW ∧ t.lzL = s.lzL ∧ t.lzK = s.lzK ∧ t.lzB = s.lzB ∧
      t.hufSB = s.hufSB ∧ t.numN = s.numN ∧ t.inBuf = s.inBuf ∧ t.pending = s.pending ∧ t.replies = s.replies

/-- R25: a successful `NUM_DEC` leaves in `NUM_R` the number it decoded; a failing one and every other command leave
`NUM_R` unchanged. -/
def Obligations.NumRHoldsLastDecodedNumber : Prop :=
  ∀ (i : Instr) (s t : State), exec i s = .next t →
    (i = .numDec → t.status = .done →
      ∃ p, numDecode s.build.numBits s.numS s.inBuf s.inRd = .ok (t.numR, p)) ∧
    (¬(i = .numDec ∧ t.status = .done) → t.numR = s.numR)

/-- R26 to R28, R78: the buffers and the cursor a command does not write keep every bit and token; the bulk commands
consume the whole unread part on success. -/
def Obligations.CommandsKeepTheBuffersTheyDoNotWrite : Prop :=
  ∀ (i : Instr) (s t : State), exec i s = .next t →
    (replacesOut i = false → i ≠ .numEnc → i ≠ .clrOut → t.outBuf = s.outBuf) ∧
    (replacesTok i = false → t.tok = s.tok) ∧
    (takesUnread i = true → t.status = .done → t.inRd = s.inBuf.length) ∧
    (takesUnread i = false → i ≠ .numDec → t.inRd = s.inRd) ∧
    (i = .numEnc → ∃ c, t.outBuf = s.outBuf ++ c)

/-- R208: the state after an error is the state before the command with STATUS rewritten and the whole-buffer
destinations emptied. -/
def Obligations.ErrorsArePrecise : Prop :=
  ∀ (i : Instr) (s t : State) (e : ErrorKind), exec i s = .next t → t.status = .error e → t = afterError i e s

/-- 93_implementation_defined.md, end of part 1; R196: every command on every state ends, with a result or with one of the
three kinds of error a command can raise. -/
def Obligations.EveryCommandEnds : Prop :=
  ∀ (i : Instr) (s : State), ∃ t, exec i s = .next t ∧
    (t.status = .done ∨ t.status = .error .invalidInput ∨ t.status = .error .capacityExceeded ∨
      t.status = .error .malformedStream)

/-- R78: a parameter register a command does not list has no effect on it. -/
def Obligations.UnlistedRegistersHaveNoEffect : Prop :=
  (∀ (i : Instr) (s t : State) (v : Nat), exec i s = .next t → i ∉ [.numEnc, .numDec, .lzSer, .lzDeser, .lzEnc, .lzDec] →
    exec i { s with numS := v } = .next { t with numS := v }) ∧
  (∀ (i : Instr) (s t : State) (w l k : Nat), exec i s = .next t → i ∉ [.lzMatch, .lzEnc] →
    exec i { s with lzW := w, lzL := l, lzK := k } = .next { t with lzW := w, lzL := l, lzK := k }) ∧
  (∀ (i : Instr) (s t : State) (v : Nat), exec i s = .next t →
    i ∉ [.lzMatch, .lzRecon, .lzSer, .lzDeser, .lzEnc, .lzDec] →
    exec i { s with lzB := v } = .next { t with lzB := v }) ∧
  (∀ (i : Instr) (s t : State) (v : Nat), exec i s = .next t → i ∉ [.hufEnc, .hufTree] →
    exec i { s with hufSB := v } = .next { t with hufSB := v }) ∧
  (∀ (i : Instr) (s t : State) (v : Int), exec i s = .next t → i ≠ .numEnc →
    exec i { s with numN := v } = .next { t with numN := v })

/-- R33: equal parameters, equal unread part and equal TOK give equal results, whatever ran before. `NUM_ENC` also reads the
length of OUT (R78), so its two states have OUTs of equal length; it appends the same bits to both. -/
def Obligations.ResultsDoNotDependOnHistory : Prop :=
  ∀ (i : Instr) (s t s' t' : State), sameOperands s t → (i = .numEnc → s.outBuf.length = t.outBuf.length) →
    exec i s = .next s' → exec i t = .next t' →
      s'.status = t'.status ∧
      (replacesOut i = true → s'.outBuf = t'.outBuf) ∧
      (replacesTok i = true → s'.tok = t'.tok) ∧
      (i = .numEnc → ∃ c, s'.outBuf = s.outBuf ++ c ∧ t'.outBuf = t.outBuf ++ c) ∧
      (i = .numDec → s'.status = .done → s'.numR = t'.numR ∧ s'.unread = t'.unread)

/-! ### Invariants -/

/-- The invariant holds at reset, in the build of `State.reset` and in every coherent build. -/
def Obligations.ResetMeetsInvariant : Prop :=
  GoodState State.reset ∧ ∀ c : Config, c.wf = true → GoodState (State.resetOf c)

/-- R21 to R28, R34, R107: every step keeps the registers inside their widths, the buffers inside their capacities, the
tokens inside their fields and the cursor inside IN, in every coherent build (log entries 4, 6, 7). -/
def Obligations.StepKeepsInvariant : Prop :=
  ∀ s t : State, GoodState s → step s = .next t → GoodState t

/-- While the host keeps to what it can present (R191, R193), every step answers a next state (R196), the host's remaining
actions can still be presented and the build is the same. That the step has taken the oldest pending action, and that it
leaves the empty list as it is when nothing is pending, is the model's choice (log entries 1 and 2), and so is the field that
holds the build (log entry 4). -/
def Obligations.StepsNeverStopWhileHostKeepsRange : Prop :=
  ∀ s : State, HostKeepsRange s →
    ∃ t, step s = .next t ∧ HostKeepsRange t ∧ t.build = s.build ∧ t.pending = s.pending.tail

/-! ### Bit sequences and the NumberCodec -/

/-- R10: `uint` by its two equations, and `bits_k(v)` as the unique sequence of length `k` that spells `v`. -/
def Obligations.IntegersAndBits : Prop :=
  uint [] = 0 ∧ (∀ (b : Bits) (x : Bit), uint (b ++ [x]) = 2 * uint b + x.toNat) ∧
  (∀ k v : Nat, v < 2 ^ k →
    (bitsOf k v).length = k ∧ uint (bitsOf k v) = v ∧ ∀ b : Bits, b.length = k → uint b = v → b = bitsOf k v) ∧
  bitsOf 0 0 = []

/-- R11: `bitlen(n)` is the smallest `k` with `n < 2^k`; `minbits(n)` has that length and, for `n ≥ 1`, first bit 1. -/
def Obligations.BitLengthIsLeast : Prop :=
  (∀ n : Nat, n < 2 ^ bitlen n ∧ ∀ k, n < 2 ^ k → bitlen n ≤ k) ∧
  bitlen 0 = 0 ∧ bitlen 1 = 1 ∧ bitlen 31 = 5 ∧ bitlen 32 = 6 ∧ (∀ k : Nat, bitlen (2 ^ k) = k + 1) ∧
  (∀ n : Nat, (minbits n).length = bitlen n ∧ uint (minbits n) = n) ∧
  (∀ n : Nat, 1 ≤ n → (minbits n).head? = some true) ∧ minbits 0 = []

/-- R104: decoding the code of `n`, whatever follows it, gives `n` and the code's length, in every build that holds `n`. -/
def Obligations.NumberCodeRoundTrip : Prop :=
  ∀ (n S : Nat) (t : Bits) (numBits : Limit), numBits.fits n = true →
    ∃ c, numEncode (n : Int) S = .ok c ∧ numDecode numBits S (c ++ t) 0 = .ok (n, c.length)

/-- R105: concatenated codes decode in order, with no separators, and leave what follows them. -/
def Obligations.NumberCodesConcatenate : Prop :=
  ∀ (ns : List Nat) (S : Nat) (t : Bits) (numBits : Limit), (∀ n ∈ ns, numBits.fits n = true) →
    decodeNumbers numBits S (ns.flatMap (numCode S) ++ t) ns.length 0 =
      .ok (ns, (ns.flatMap (numCode S)).length)

/-- R106: the length of a code, in general and for `S = 5` range by range. -/
def Obligations.NumberCodeLength : Prop :=
  (∀ n S : Nat, (numCode S n).length =
    if n < 2 ^ S then 1 + S else 2 * bitlen (bitlen n) + bitlen n) ∧
  (∀ n : Nat, n ≤ 31 → (numCode 5 n).length = 6) ∧
  (∀ n : Nat, 32 ≤ n → n ≤ 63 → (numCode 5 n).length = 12) ∧
  (∀ n : Nat, 64 ≤ n → n ≤ 127 → (numCode 5 n).length = 13) ∧
  (∀ n : Nat, 128 ≤ n → n ≤ 255 → (numCode 5 n).length = 16) ∧
  (∀ n : Nat, 2 ^ 7 ≤ n → n < 2 ^ 15 → (numCode 5 n).length = bitlen n + 8) ∧
  (∀ n : Nat, 2 ^ 15 ≤ n → n < 2 ^ 31 → (numCode 5 n).length = bitlen n + 10) ∧
  (∀ n : Nat, 2 ^ 31 ≤ n → n < 2 ^ 63 → (numCode 5 n).length = bitlen n + 12)

/-- R102 with R79 and R80: `NUM_ENC` of a natural number appends its small or large code, and raises in the stated order
with nothing appended. -/
def Obligations.NumEncAppendsTheCode : Prop :=
  (∀ (s : State) (n : Nat), s.numN = n → n < 2 ^ s.numS →
    s.build.outCap.allows (s.outBuf.length + (1 + s.numS)) = true →
      exec .numEnc s = .next { s with outBuf := s.outBuf ++ true :: bitsOf s.numS n, status := .done }) ∧
  (∀ (s : State) (n : Nat), s.numN = n → 2 ^ s.numS ≤ n →
    s.build.outCap.allows (s.outBuf.length + (2 * bitlen (bitlen n) + bitlen n)) = true →
      exec .numEnc s = .next { s with
        outBuf := s.outBuf ++ (zeros (bitlen (bitlen n)) ++ minbits (bitlen n) ++ minbits n), status := .done }) ∧
  (∀ s : State, s.numN < 0 → exec .numEnc s = .next { s with status := .error .invalidInput }) ∧
  (∀ (s : State) (n : Nat), s.numN = n →
    s.build.outCap.allows (s.outBuf.length + (numCode s.numS n).length) = false →
      exec .numEnc s = .next { s with status := .error .capacityExceeded })

/-- R103 with R101 and R81: `NUM_DEC` on every unread part, by the form of what stands at the cursor: the small form; no
set bit; a large form cut short in either field; a large form, canonical or not (R82). A small-form value that does not fit
`NUM_BITS` raises `CapacityExceeded` (log entry 7). -/
def Obligations.NumDecOnEveryUnreadPart : Prop :=
  (∀ (s : State) (f rest : Bits), s.unread = true :: (f ++ rest) → f.length = s.numS →
    s.build.numBits.fits (uint f) = true →
      exec .numDec s = .next { s with numR := uint f, inRd := s.inRd + (1 + s.numS), status := .done }) ∧
  (∀ (s : State) (f rest : Bits), s.unread = true :: (f ++ rest) → f.length = s.numS →
    s.build.numBits.fits (uint f) = false →
      exec .numDec s = .next { s with status := .error .capacityExceeded }) ∧
  (∀ (s : State) (rest : Bits), s.unread = true :: rest → rest.length < s.numS →
    exec .numDec s = .next { s with status := .error .malformedStream }) ∧
  (∀ (s : State) (k : Nat), s.unread = zeros k →
    exec .numDec s = .next { s with status := .error .malformedStream }) ∧
  (∀ (s : State) (z : Nat) (rest : Bits), s.unread = zeros z ++ true :: rest → rest.length + 1 < z →
    exec .numDec s = .next { s with status := .error .malformedStream }) ∧
  (∀ (s : State) (f rest : Bits), s.unread = zeros (f.length + 1) ++ (true :: f) ++ rest →
    rest.length < uint (true :: f) →
      exec .numDec s = .next { s with status := .error .malformedStream }) ∧
  (∀ (s : State) (f g rest : Bits), s.unread = zeros (f.length + 1) ++ (true :: f) ++ g ++ rest →
    g.length = uint (true :: f) → s.build.numBits.allows g.length = true →
      exec .numDec s = .next { s with
        numR := uint g, inRd := s.inRd + (2 * (f.length + 1) + g.length), status := .done }) ∧
  (∀ (s : State) (f g rest : Bits), s.unread = zeros (f.length + 1) ++ (true :: f) ++ g ++ rest →
    g.length = uint (true :: f) → s.build.numBits.allows g.length = false →
      exec .numDec s = .next { s with status := .error .capacityExceeded })

/-! ### The LZMatcher -/

/-- R144: reconstructing from the tokens of a match search gives the symbols back. -/
def Obligations.LzMatchReconstructs : Prop :=
  ∀ (sym : List Symbol) (W L K : Nat), 1 ≤ L → 1 ≤ K → lzReconstruct (lzMatch sym W L K) = .ok sym

/-- R124: a run is the largest number of equal symbols under the cap. R125: the best of the candidates has the greatest run,
it is the first candidate of that run, and it is `(0, 0)` only if every run is 0. R125, R127: every token of a match search
is the best at its step, with the symbol after the run as its literal. R132: (a) the last literal is the last symbol, (b) the
lengths plus one sum to `N`, (c) every token is a literal or a match inside the window, the cap and the tail rule at its
position, (d) a match may be shorter than `K`. -/
def Obligations.LzMatchTokenShape : Prop :=
  (∀ (sym : List Symbol) (L j i : Nat),
    let cap := min L (sym.length - 1 - i)
    runLength sym L j i ≤ cap ∧ (∀ t, t < runLength sym L j i → sym[j + t]? = sym[i + t]?) ∧
    (∀ r, r ≤ cap → (∀ t, t < r → sym[j + t]? = sym[i + t]?) → r ≤ runLength sym L j i)) ∧
  (∀ (sym : List Symbol) (W L K : Nat) (index : HashIndex) (i : Nat),
    let candidates := lzCandidates sym W K index i
    let best := lzBest sym W L K index i
    (∀ j ∈ candidates, runLength sym L j i ≤ best.2) ∧
    (best = (0, 0) ↔ ∀ j ∈ candidates, runLength sym L j i = 0) ∧
    (best ≠ (0, 0) → ∃ before j after, candidates = before ++ j :: after ∧ best = (i - j, runLength sym L j i) ∧
      ∀ k ∈ before, runLength sym L k i < runLength sym L j i)) ∧
  (∀ (sym : List Symbol) (W L K : Nat), 1 ≤ L → 1 ≤ K →
    ((lzMatch sym W L K).getLast?.map Token.literal = sym.getLast?) ∧
    symbolsCovered (lzMatch sym W L K) = sym.length ∧
    (∀ (before after : List Token) (t : Token), lzMatch sym W L K = before ++ t :: after →
      let i := symbolsCovered before
      (t.offset, t.length) = lzBest sym W L K (indexAfter sym K before) i ∧ sym[i + t.length]? = some t.literal ∧
      ((t.offset = 0 ∧ t.length = 0) ∨
        (1 ≤ t.offset ∧ t.offset ≤ min W i ∧ 1 ≤ t.length ∧ t.length ≤ min L (sym.length - 1 - i))))) ∧
  lzMatch [65, 66, 65, 66] 4 4 2 = [⟨0, 0, 65⟩, ⟨0, 0, 66⟩, ⟨2, 1, 66⟩]

/-- R131: the token list is the same when each position is kept once in the index. -/
def Obligations.LzDuplicatesAreUnobservable : Prop :=
  ∀ (sym : List Symbol) (W L K : Nat), lzMatchOnceLoop sym W L K sym.length [] 0 = lzMatch sym W L K

/-- R130, R39: a lookup in an index made of steps' registrations returns only positions whose `K` symbols equal the key, in
the order they were registered, and every registered position with that key. R122, R123: the candidates at `i` are those
under the key of `i` inside the window, and there are none with fewer than `K` symbols left. -/
def Obligations.LzLookupIsExact : Prop :=
  ∀ (sym : List Symbol) (K : Nat) (steps : List Nat),
    let starts := steps.flatMap fun i => List.range' (i + 1 - K) (i + 1 - (i + 1 - K))
    (∀ key : List Symbol, key.length = K →
      hashLookup (steps.flatMap (lzRegistrations sym K)) key =
        starts.filter fun p => decide (p + K ≤ sym.length) && (slice sym p (p + K) == key)) ∧
    (∀ W i : Nat, i + K ≤ sym.length →
      lzCandidates sym W K (steps.flatMap (lzRegistrations sym K)) i =
        starts.filter fun p => decide (p + K ≤ sym.length) && (slice sym p (p + K) == slice sym i (i + K)) &&
          decide ((i : Int) - W ≤ p) && decide (p < i)) ∧
    (∀ W i : Nat, sym.length < i + K → lzCandidates sym W K (steps.flatMap (lzRegistrations sym K)) i = [])

/-- R138: `LZ_MATCH` with legal parameters on a whole number of symbols stores the tokens of the unread part and consumes it;
with `W = 0` or `K` above the number of symbols every token is a literal. -/
def Obligations.LzMatchStoresTheTokens : Prop :=
  (∀ s : State, (s.lzB = 1 ∨ s.lzB = 8) → 1 ≤ s.lzL → 1 ≤ s.lzK → s.unread.length % s.lzB = 0 →
    s.build.tokCap.allows (lzMatch (syms s.lzB s.unread) s.lzW s.lzL s.lzK).length = true →
      exec .lzMatch s = .next { s with
        tok := lzMatch (syms s.lzB s.unread) s.lzW s.lzL s.lzK, inRd := s.inBuf.length, status := .done }) ∧
  (∀ (sym : List Symbol) (W L K : Nat), 1 ≤ L → 1 ≤ K → W = 0 ∨ sym.length < K →
    lzMatch sym W L K = sym.map fun c => ⟨0, 0, c⟩)

/-- R138, R142, R207: what `LZ_MATCH` and `LZ_ENC` raise on their operands, with their destinations emptied. -/
def Obligations.LzMatchAndLzEncRaise : Prop :=
  ∀ s : State, ∀ i ∈ [Instr.lzMatch, Instr.lzEnc],
    (s.lzB ≠ 1 → s.lzB ≠ 8 → exec i s = .next (afterError i .invalidInput s)) ∧
    (s.lzL = 0 ∨ s.lzK = 0 → exec i s = .next (afterError i .invalidInput s)) ∧
    (s.unread.length % s.lzB ≠ 0 → exec i s = .next (afterError i .invalidInput s)) ∧
    ((s.lzB = 1 ∨ s.lzB = 8) → 1 ≤ s.lzL → 1 ≤ s.lzK → s.unread.length % s.lzB = 0 →
      s.build.tokCap.allows (lzMatch (syms s.lzB s.unread) s.lzW s.lzL s.lzK).length = false →
        exec i s = .next (afterError i .capacityExceeded s))

/-- R134: the overlapping copy: what was written stays, symbol `u` of the copy is symbol `u mod offset` of the `offset`
symbols before it, the literal follows. -/
def Obligations.OverlappingCopy : Prop :=
  ∀ (toks : List Token) (out : List Symbol) (offset length : Nat) (c : Symbol),
    lzReconstruct toks = .ok out → 1 ≤ offset → offset ≤ out.length →
      ∃ out', lzReconstruct (toks ++ [⟨offset, length, c⟩]) = .ok out' ∧
        out'.length = out.length + length + 1 ∧
        (∀ k, k < out.length → out'[k]? = out[k]?) ∧
        (∀ u, u < length → out'[out.length + u]? = out[out.length - offset + u % offset]?) ∧
        out'[out.length + length]? = some c

/-- R135: a token that reaches before the output, or copies with offset 0, raises `MalformedStream`; a token that copies
nothing is executed; no token of a match search raises. -/
def Obligations.UnexecutableTokensRaise : Prop :=
  (∀ (before after : List Token) (t : Token) (out : List Symbol), lzReconstruct before = .ok out →
    (out.length < t.offset ∨ (t.offset = 0 ∧ 0 < t.length)) →
      lzReconstruct (before ++ t :: after) = .error .malformedStream) ∧
  (∀ (before : List Token) (t : Token) (out : List Symbol), lzReconstruct before = .ok out →
    t.offset ≤ out.length → t.length = 0 → lzReconstruct (before ++ [t]) = .ok (out ++ [t.literal])) ∧
  (∀ (sym : List Symbol) (W L K : Nat), 1 ≤ L → 1 ≤ K → ∃ out, lzReconstruct (lzMatch sym W L K) = .ok out)

/-- R139: `LZ_RECON` puts the reconstructed symbols into OUT as `B` bits each, and raises in the stated order with OUT
emptied. -/
def Obligations.LzReconWritesTheSymbols : Prop :=
  (∀ (s : State) (out : List Symbol), (s.lzB = 1 ∨ s.lzB = 8) → literalsFit s.lzB s.tok →
    lzReconstruct s.tok = .ok out → s.build.outCap.allows (s.lzB * out.length) = true →
      exec .lzRecon s = .next { s with outBuf := out.flatMap (bitsOf s.lzB), status := .done }) ∧
  (∀ s : State, s.lzB ≠ 1 → s.lzB ≠ 8 → exec .lzRecon s = .next (afterError .lzRecon .invalidInput s)) ∧
  (∀ s : State, (∃ t ∈ s.tok, 2 ^ s.lzB ≤ t.literal) →
    exec .lzRecon s = .next (afterError .lzRecon .invalidInput s)) ∧
  (∀ (s : State) (e : ErrorKind), (s.lzB = 1 ∨ s.lzB = 8) → literalsFit s.lzB s.tok →
    lzReconstruct s.tok = .error e → exec .lzRecon s = .next (afterError .lzRecon .malformedStream s)) ∧
  (∀ (s : State) (out : List Symbol), (s.lzB = 1 ∨ s.lzB = 8) → literalsFit s.lzB s.tok →
    lzReconstruct s.tok = .ok out → s.build.outCap.allows (s.lzB * out.length) = false →
      exec .lzRecon s = .next (afterError .lzRecon .capacityExceeded s))

/-- R140 with R83: `LZ_SER` puts the token stream into OUT, and raises in the stated order with OUT emptied. -/
def Obligations.LzSerWritesTheStream : Prop :=
  (∀ s : State, (s.lzB = 1 ∨ s.lzB = 8) → literalsFit s.lzB s.tok →
    s.build.outCap.allows (streamOf s.numS s.lzB s.tok).length = true →
      exec .lzSer s = .next { s with outBuf := streamOf s.numS s.lzB s.tok, status := .done }) ∧
  (∀ s : State, s.lzB ≠ 1 → s.lzB ≠ 8 → exec .lzSer s = .next (afterError .lzSer .invalidInput s)) ∧
  (∀ s : State, (∃ t ∈ s.tok, 2 ^ s.lzB ≤ t.literal) →
    exec .lzSer s = .next (afterError .lzSer .invalidInput s)) ∧
  (∀ s : State, (s.lzB = 1 ∨ s.lzB = 8) → literalsFit s.lzB s.tok →
    s.build.outCap.allows (streamOf s.numS s.lzB s.tok).length = false →
      exec .lzSer s = .next (afterError .lzSer .capacityExceeded s))

/-- R145: deserializing the stream of a token list whose literals are below `2^B` gives the list back, for every `S`, in
every build whose `NUM_BITS` holds the list's numbers. -/
def Obligations.TokenStreamRoundTrip : Prop :=
  ∀ (toks : List Token) (S B : Nat) (numBits : Limit), literalsFit B toks → numbersFit numBits toks →
    ∃ b, lzSerialize S B toks = .ok b ∧ lzDeserialize numBits S B b = .ok toks

/-- R137: deserializing reads one token after another, an offset code, a length code and `B` literal bits, canonical or not
(R82), until the stream is exhausted. R141: `LZ_DESER` stores the tokens its unread part deserializes to and consumes it, and
raises in the stated order with TOK emptied: an illegal width (`InvalidInput`), what deserializing raises, too many tokens
(`CapacityExceeded`). On the stream of a token list (R83) it stores the list; zero bits after the stream (R235) and a stream
cut inside a token (R203 (a), (b)) raise `MalformedStream`; a large-form code of a number that does not fit `NUM_BITS` raises
`CapacityExceeded` (R202 (e)), as offset or as length. -/
def Obligations.LzDeserStoresTheTokens : Prop :=
  (∀ (numBits : Limit) (S B : Nat), lzDeserialize numBits S B [] = .ok []) ∧
  (∀ (numBits : Limit) (S B : Nat) (b : Bits), b ≠ [] →
    lzDeserialize numBits S B b =
      match numDecode numBits S b 0 with
      | .error e => .error e
      | .ok (offset, p) =>
        match numDecode numBits S b p with
        | .error e => .error e
        | .ok (length, q) =>
          if b.length < q + B then .error .malformedStream
          else
            match lzDeserialize numBits S B (b.drop (q + B)) with
            | .error e => .error e
            | .ok toks => .ok (⟨offset, length, uint (slice b q (q + B))⟩ :: toks)) ∧
  (∀ (s : State) (toks : List Token), (s.lzB = 1 ∨ s.lzB = 8) →
    lzDeserialize s.build.numBits s.numS s.lzB s.unread = .ok toks → s.build.tokCap.allows toks.length = true →
      exec .lzDeser s = .next { s with tok := toks, inRd := s.inBuf.length, status := .done }) ∧
  (∀ (s : State) (toks : List Token), (s.lzB = 1 ∨ s.lzB = 8) →
    lzDeserialize s.build.numBits s.numS s.lzB s.unread = .ok toks → s.build.tokCap.allows toks.length = false →
      exec .lzDeser s = .next (afterError .lzDeser .capacityExceeded s)) ∧
  (∀ (s : State) (e : ErrorKind), (s.lzB = 1 ∨ s.lzB = 8) →
    lzDeserialize s.build.numBits s.numS s.lzB s.unread = .error e →
      (e = .malformedStream ∨ e = .capacityExceeded) ∧ exec .lzDeser s = .next (afterError .lzDeser e s)) ∧
  (∀ s : State, s.lzB ≠ 1 → s.lzB ≠ 8 → exec .lzDeser s = .next (afterError .lzDeser .invalidInput s)) ∧
  (∀ (s : State) (toks : List Token), (s.lzB = 1 ∨ s.lzB = 8) → literalsFit s.lzB toks →
    numbersFit s.build.numBits toks → s.unread = streamOf s.numS s.lzB toks →
    s.build.tokCap.allows toks.length = true →
      exec .lzDeser s = .next { s with tok := toks, inRd := s.inBuf.length, status := .done }) ∧
  (∀ (s : State) (toks : List Token), (s.lzB = 1 ∨ s.lzB = 8) → literalsFit s.lzB toks →
    numbersFit s.build.numBits toks → s.unread = streamOf s.numS s.lzB toks →
    s.build.tokCap.allows toks.length = false →
      exec .lzDeser s = .next (afterError .lzDeser .capacityExceeded s)) ∧
  (∀ (s : State) (toks : List Token) (k : Nat), (s.lzB = 1 ∨ s.lzB = 8) → literalsFit s.lzB toks →
    numbersFit s.build.numBits toks → s.unread = streamOf s.numS s.lzB toks ++ zeros (k + 1) →
      exec .lzDeser s = .next (afterError .lzDeser .malformedStream s)) ∧
  (∀ (s : State) (toks : List Token) (t : Token) (x y : Bits), (s.lzB = 1 ∨ s.lzB = 8) → literalsFit s.lzB toks →
    numbersFit s.build.numBits toks → numbersFit s.build.numBits [t] → streamOf s.numS s.lzB [t] = x ++ y → x ≠ [] → y ≠ [] →
    s.unread = streamOf s.numS s.lzB toks ++ x →
      exec .lzDeser s = .next (afterError .lzDeser .malformedStream s)) ∧
  (∀ (s : State) (toks : List Token) (x rest : Bits) (n : Nat), (s.lzB = 1 ∨ s.lzB = 8) → literalsFit s.lzB toks →
    numbersFit s.build.numBits toks → (x = [] ∨ ∃ o, s.build.numBits.fits o = true ∧ x = numCode s.numS o) →
    2 ^ s.numS ≤ n → s.build.numBits.fits n = false →
    s.unread = streamOf s.numS s.lzB toks ++ x ++ numCode s.numS n ++ rest →
      exec .lzDeser s = .next (afterError .lzDeser .capacityExceeded s))

/-- R142, R143, R91: `LZ_ENC` is `LZ_MATCH` then `LZ_SER`, and `LZ_DEC` is `LZ_DESER` then `LZ_RECON`: when both succeed the
composed command leaves the same state; when either raises, the composed command raises the same error and leaves TOK and
OUT empty. -/
def Obligations.LzBackendIsItsTwoCommands : Prop :=
  ∀ (s s1 s2 : State), ∀ p ∈ [(Instr.lzEnc, Instr.lzMatch, Instr.lzSer), (Instr.lzDec, Instr.lzDeser, Instr.lzRecon)],
    exec p.2.1 s = .next s1 → exec p.2.2 s1 = .next s2 →
      (s1.status = .done → s2.status = .done → exec p.1 s = .next s2) ∧
      (∀ e, s1.status = .error e →
        exec p.1 s = .next { s with tok := [], outBuf := [], status := .error e }) ∧
      (∀ e, s1.status = .done → s2.status = .error e →
        exec p.1 s = .next { s with tok := [], outBuf := [], status := .error e })

/-- R142, R143: `LZ_ENC` and `LZ_DEC` complete on their own operands: `LZ_ENC` on a whole number of symbols, `LZ_DEC` on
whatever its unread part deserializes and reconstructs to, the stream of a token list among it. Where the result does not fit
OUT, and where `LZ_DEC` cannot deserialize, store or reconstruct, they raise with TOK and OUT emptied. -/
def Obligations.LzBackendCompletes : Prop :=
  (∀ (s : State) (toks : List Token), (s.lzB = 1 ∨ s.lzB = 8) → 1 ≤ s.lzL → 1 ≤ s.lzK →
    s.unread.length % s.lzB = 0 → toks = lzMatch (syms s.lzB s.unread) s.lzW s.lzL s.lzK →
    s.build.tokCap.allows toks.length = true →
      (s.build.outCap.allows (streamOf s.numS s.lzB toks).length = true →
        exec .lzEnc s = .next { s with
          tok := toks, outBuf := streamOf s.numS s.lzB toks, inRd := s.inBuf.length, status := .done }) ∧
      (s.build.outCap.allows (streamOf s.numS s.lzB toks).length = false →
        exec .lzEnc s = .next (afterError .lzEnc .capacityExceeded s))) ∧
  (∀ (s : State) (toks : List Token) (out : List Symbol), (s.lzB = 1 ∨ s.lzB = 8) → literalsFit s.lzB toks →
    numbersFit s.build.numBits toks → s.unread = streamOf s.numS s.lzB toks → lzReconstruct toks = .ok out →
    s.build.tokCap.allows toks.length = true → s.build.outCap.allows (s.lzB * out.length) = true →
      exec .lzDec s = .next { s with
        tok := toks, outBuf := out.flatMap (bitsOf s.lzB), inRd := s.inBuf.length, status := .done }) ∧
  (∀ s : State, s.lzB ≠ 1 → s.lzB ≠ 8 → exec .lzDec s = .next (afterError .lzDec .invalidInput s)) ∧
  (∀ (s : State) (e : ErrorKind), (s.lzB = 1 ∨ s.lzB = 8) →
    lzDeserialize s.build.numBits s.numS s.lzB s.unread = .error e →
      exec .lzDec s = .next (afterError .lzDec e s)) ∧
  (∀ (s : State) (toks : List Token), (s.lzB = 1 ∨ s.lzB = 8) →
    lzDeserialize s.build.numBits s.numS s.lzB s.unread = .ok toks →
      (s.build.tokCap.allows toks.length = false → exec .lzDec s = .next (afterError .lzDec .capacityExceeded s)) ∧
      (s.build.tokCap.allows toks.length = true →
        (∀ e, lzReconstruct toks = .error e → exec .lzDec s = .next (afterError .lzDec .malformedStream s)) ∧
        (∀ out, lzReconstruct toks = .ok out →
          (s.build.outCap.allows (s.lzB * out.length) = true →
            exec .lzDec s = .next { s with
              tok := toks, outBuf := out.flatMap (bitsOf s.lzB), inRd := s.inBuf.length, status := .done }) ∧
          (s.build.outCap.allows (s.lzB * out.length) = false →
            exec .lzDec s = .next (afterError .lzDec .capacityExceeded s)))))

/-- R146: after `LOAD_IN X; LZ_ENC`, loading OUT back and running `LZ_DEC` gives `OUT = X`, whenever the build holds `X`. -/
def Obligations.LzBackendRoundTrip : Prop :=
  ∀ (s t : State) (X : Bits), X.length % s.lzB = 0 → s.build.numBits.fits X.length = true →
    s.build.outCap.allows X.length = true → exec .lzEnc (loadIn X s) = .next t → t.status = .done →
      ∃ u, exec .lzDec (loadIn t.outBuf t) = .next u ∧ u.status = .done ∧ u.outBuf = X

/-! ### The HuffmanCodec -/

/-- R161, R40: the chunks partition the input in order, the table is ascending in the symbol, counts every value exactly as
often as it occurs, and its counts sum to `ceil(len(d) / SB)`. -/
def Obligations.HufFrequencyCounts : Prop :=
  ∀ (d : Bits) (SB : Nat), 1 ≤ SB →
    (chunks SB d).flatten = d ∧ (chunks SB d).length = ceilDiv d.length SB ∧
    (∀ (t : Nat) (c : Bits), (chunks SB d)[t]? = some c → c = slice d (SB * t) (SB * t + SB)) ∧
    (hufFreq d SB).Pairwise (fun a b => a.1 < b.1) ∧
    (∀ v : Nat, (hufFreq d SB).lookup v =
      if (chunkVals SB d).count v = 0 then none else some ((chunkVals SB d).count v)) ∧
    ((hufFreq d SB).map Prod.snd).sum = ceilDiv d.length SB

/-- R162, R163: the tree built with an ordered priority structure is the one the rule's loop builds by twice searching for
the least key. -/
def Obligations.HufTreeMergesTheTwoLeast : Prop :=
  ∀ f : FreqTable, f.Pairwise (fun a b => a.1 < b.1) →
    hufTree f = mergeBySearch f.length f.length (numberedLeaves f)

/-- R178: the shape of the tree and the codes of a non-empty input's table with `m` symbols: `m` leaves and `m - 1` internal
nodes, frequencies that add up (R38), codewords of 1 to `m - 1` bits for `m ≥ 2`, no codeword a prefix of another, and the
payload's and the frame's length. -/
def Obligations.HufTreeAndCodesStructure : Prop :=
  ∀ (d : Bits) (SB : Nat), 1 ≤ SB → d ≠ [] →
    let f := hufFreq d SB
    let c := hufCodes (hufTree f)
    let payload := hufPayload c (chunkVals SB d)
    (∃ t, hufTree f = some t ∧ t.leaves.Perm (f.map Prod.fst) ∧ internalNodes t = f.length - 1 ∧ frequenciesAdd t) ∧
    (2 ≤ f.length → ∀ v ∈ f.map Prod.fst, 1 ≤ (codeFor c v).length ∧ (codeFor c v).length ≤ f.length - 1) ∧
    (∀ v ∈ f.map Prod.fst, ∀ w ∈ f.map Prod.fst, v ≠ w → ¬ codeFor c v <+: codeFor c w) ∧
    payload.length = (f.map fun e => e.2 * (codeFor c e.1).length).sum ∧
    (f.length = 1 → payload = zeros (ceilDiv d.length SB)) ∧
    (∀ b, hufEncode d SB = .ok b → b.length = 39 + (hufSerTree (hufTree f) SB).length + payload.length)

/-- R166, R85: a serialized tree whose symbols fit `SB` bits is parsed back, without its frequencies, whatever follows it;
with `m` leaves it has `m * (1 + SB) + (m - 1)` bits. -/
def Obligations.HufTreeSerializationRoundTrip : Prop :=
  ∀ (t : HufTree Nat) (SB : Nat) (x : Bits), (∀ v ∈ t.leaves, v < 2 ^ SB) →
    hufDeserTree (hufSerTree (some t) SB ++ x) 0 SB = .ok (t.bare, (hufSerTree (some t) SB).length) ∧
    (hufSerTree (some t) SB).length = t.leaves.length * (1 + SB) + (t.leaves.length - 1)

/-- R174 with R86, R87, R167: `HUF_ENC` puts the frame into OUT, field by field; an empty input gives the empty frame
whatever `HUF_SB` holds. -/
def Obligations.HufEncWritesTheFrame : Prop :=
  (∀ s : State, s.unread = [] →
    exec .hufEnc s = .next { s with outBuf := [], inRd := s.inBuf.length, status := .done }) ∧
  (∀ (s : State) (ts payload : Bits), s.unread ≠ [] → 1 ≤ s.hufSB → s.hufSB ≤ 63 →
    ceilDiv s.unread.length 8 ≤ 131071 →
    ts = hufSerTree (hufTree (hufFreq s.unread s.hufSB)) s.hufSB → ts.length < 2 ^ 16 →
    payload = (chunkVals s.hufSB s.unread).flatMap (codeFor (hufCodes (hufTree (hufFreq s.unread s.hufSB)))) →
    s.build.outCap.allows (39 + ts.length + payload.length) = true →
      exec .hufEnc s = .next { s with
        outBuf := bitsOf 6 s.hufSB ++ bitsOf 16 ts.length ++ ts ++ bitsOf 17 (ceilDiv s.unread.length 8) ++ payload
        inRd := s.inBuf.length, status := .done })

/-- R176: `HUF_TREE` puts the serialized tree alone into OUT, with no limit on input length or tree size but `OUT_CAP`. -/
def Obligations.HufTreeWritesTheTree : Prop :=
  (∀ s : State, s.unread = [] →
    exec .hufTree s = .next { s with outBuf := [], inRd := s.inBuf.length, status := .done }) ∧
  (∀ (s : State) (ts : Bits), s.unread ≠ [] → 1 ≤ s.hufSB → s.hufSB ≤ 63 →
    ts = hufSerTree (hufTree (hufFreq s.unread s.hufSB)) s.hufSB → s.build.outCap.allows ts.length = true →
      exec .hufTree s = .next { s with outBuf := ts, inRd := s.inBuf.length, status := .done })

/-- R174, R176, R168, R201 (f), R202: what `HUF_ENC` and `HUF_TREE` raise on a non-empty input, with OUT emptied: an illegal
symbol width, too many bytes, too large a tree, and a result that does not fit OUT: of `HUF_ENC` the whole frame, of
`HUF_TREE` the tree. -/
def Obligations.HufEncAndHufTreeRaise : Prop :=
  ∀ s : State, s.unread ≠ [] →
    let tree := hufTree (hufFreq s.unread s.hufSB)
    let ts := hufSerTree tree s.hufSB
    let payload := (chunkVals s.hufSB s.unread).flatMap (codeFor (hufCodes tree))
    (s.hufSB = 0 → exec .hufEnc s = .next (afterError .hufEnc .invalidInput s) ∧
      exec .hufTree s = .next (afterError .hufTree .invalidInput s)) ∧
    (63 < s.hufSB → exec .hufEnc s = .next (afterError .hufEnc .capacityExceeded s) ∧
      exec .hufTree s = .next (afterError .hufTree .capacityExceeded s)) ∧
    (1 ≤ s.hufSB → 131071 < ceilDiv s.unread.length 8 →
      exec .hufEnc s = .next (afterError .hufEnc .capacityExceeded s)) ∧
    (1 ≤ s.hufSB → 2 ^ 16 ≤ ts.length → exec .hufEnc s = .next (afterError .hufEnc .capacityExceeded s)) ∧
    (1 ≤ s.hufSB → s.build.outCap.allows (39 + ts.length + payload.length) = false →
      exec .hufEnc s = .next (afterError .hufEnc .capacityExceeded s)) ∧
    (1 ≤ s.hufSB → s.build.outCap.allows ts.length = false →
      exec .hufEnc s = .next (afterError .hufEnc .capacityExceeded s) ∧
      exec .hufTree s = .next (afterError .hufTree .capacityExceeded s))

/-- R175, R169: `HUF_DEC` puts what the unread frame decodes to into OUT, reads no parameter, and raises
`MalformedStream` on an input shorter than its header fields or with a symbol width of 0, with OUT emptied. -/
def Obligations.HufDecWritesTheOutput : Prop :=
  (∀ s : State, s.unread = [] →
    exec .hufDec s = .next { s with outBuf := [], inRd := s.inBuf.length, status := .done }) ∧
  (∀ (s : State) (out : Bits), hufDecode s.unread = .ok out → s.build.outCap.allows out.length = true →
    exec .hufDec s = .next { s with outBuf := out, inRd := s.inBuf.length, status := .done }) ∧
  (∀ (s : State) (out : Bits), hufDecode s.unread = .ok out → s.build.outCap.allows out.length = false →
    exec .hufDec s = .next (afterError .hufDec .capacityExceeded s)) ∧
  (∀ (s : State) (e : ErrorKind), hufDecode s.unread = .error e →
    exec .hufDec s = .next (afterError .hufDec .malformedStream s)) ∧
  (∀ s : State, s.unread ≠ [] → (s.unread.length < 22 ∨ uint (slice s.unread 0 6) = 0 ∨
      s.unread.length < 39 + uint (slice s.unread 6 22)) →
    exec .hufDec s = .next (afterError .hufDec .malformedStream s))

/-- R177: encoding a whole number of bytes and of symbols and decoding it gives the input back, whatever the host padded the
frame with. An empty input has no frame to pad (R87), so with it the padding is empty (log entry 12). -/
def Obligations.HuffmanRoundTrip : Prop :=
  ∀ (d x b : Bits) (SB : Nat), 1 ≤ SB → SB ≤ 63 → d.length % 8 = 0 → d.length % SB = 0 → (d = [] → x = []) →
    hufEncode d SB = .ok b → hufDecode (b ++ x) = .ok d

/-- R163: a frame made with ANY tree whose leaves are distinct and hold every symbol of the input decodes to the input: the
frame carries its tree. -/
def Obligations.HufFrameOfAnyTreeDecodes : Prop :=
  ∀ (d x : Bits) (SB : Nat) (t : HufTree Nat), 1 ≤ SB → SB ≤ 63 → d.length % 8 = 0 → d.length % SB = 0 →
    d.length / 8 ≤ 131071 → t.leaves.Nodup → (∀ v ∈ t.leaves, v < 2 ^ SB) → (∀ v ∈ chunkVals SB d, v ∈ t.leaves) →
    (hufSerTree (some t) SB).length < 2 ^ 16 →
      hufDecode (hufFrame SB (hufSerTree (some t) SB) (d.length / 8) (hufPayload (hufCodes (some t)) (chunkVals SB d)) ++ x)
        = .ok d

/-- R170, R172: with a single-leaf tree one payload bit is consumed per emitted symbol and its value is not examined; a
payload with too few bits raises `MalformedStream`. -/
def Obligations.HufDegenerateTree : Prop :=
  ∀ (SB v nbytes : Nat) (payload : Bits), 1 ≤ SB → SB ≤ 63 → v < 2 ^ SB → nbytes ≤ 131071 →
    hufDecode (hufFrame SB (true :: bitsOf SB v) nbytes payload) =
      if ceilDiv (8 * nbytes) SB ≤ payload.length then
        .ok ((List.replicate (ceilDiv (8 * nbytes) SB) (bitsOf SB v)).flatten)
      else .error .malformedStream

/-- R171: the output of a frame has `SB * ceil(target / SB)` bits, where `SB` and the byte count are the frame's own fields;
it is not truncated to the target. -/
def Obligations.HufOutputIsWholeSymbols : Prop :=
  ∀ b out : Bits, b ≠ [] → hufDecode b = .ok out →
    let SB := uint (slice b 0 6)
    let ts := uint (slice b 6 22)
    let target := 8 * uint (slice b (22 + ts) (39 + ts))
    out.length = SB * ceilDiv target SB ∧ target ≤ out.length ∧ out.length < target + SB

/-- R173: (a) a tree field that the parse does not fill exactly is malformed; (b) an empty tree field is accepted only with
no output demanded; (c) no bytes declared gives the empty output whatever the tree. -/
def Obligations.HufTreeFieldIsFilledExactly : Prop :=
  (∀ (SB nbytes : Nat) (t : HufTree Nat) (y rest : Bits), 1 ≤ SB → SB ≤ 63 → nbytes ≤ 131071 →
    (∀ v ∈ t.leaves, v < 2 ^ SB) → y ≠ [] → (hufSerTree (some t) SB ++ y).length < 2 ^ 16 →
      hufDecode (hufFrame SB (hufSerTree (some t) SB ++ y) nbytes rest) = .error .malformedStream) ∧
  (∀ (SB nbytes : Nat) (t : HufTree Nat) (y z rest : Bits), 1 ≤ SB → SB ≤ 63 → nbytes ≤ 131071 →
    (∀ v ∈ t.leaves, v < 2 ^ SB) → hufSerTree (some t) SB = y ++ z → y ≠ [] → z ≠ [] → y.length < 2 ^ 16 →
      hufDecode (hufFrame SB y nbytes rest) = .error .malformedStream) ∧
  (∀ (SB nbytes : Nat) (rest : Bits), 1 ≤ SB → SB ≤ 63 → nbytes ≤ 131071 →
    hufDecode (hufFrame SB [] nbytes rest) = if nbytes = 0 then .ok [] else .error .malformedStream) ∧
  (∀ (SB : Nat) (t : HufTree Nat) (rest : Bits), 1 ≤ SB → SB ≤ 63 → (∀ v ∈ t.leaves, v < 2 ^ SB) →
    (hufSerTree (some t) SB).length < 2 ^ 16 →
      hufDecode (hufFrame SB (hufSerTree (some t) SB) 0 rest) = .ok [])

/-- R89: bits after the last codeword the decoder needs do not change its output. -/
def Obligations.HufTrailingBitsIgnored : Prop :=
  ∀ b x out : Bits, b ≠ [] → hufDecode b = .ok out → hufDecode (b ++ x) = .ok out

/-! ### The system command -/

/-- R190: `CLR_OUT` empties OUT and changes nothing else but STATUS. -/
def Obligations.ClrOutEmptiesOut : Prop :=
  ∀ s : State, exec .clrOut s = .next { s with outBuf := [], status := .done }
end

