-- ==== Sys2Proof/Laws/Bits.lean ====
section
/-! SUPPORT. The bit primitives: lengths, values and the equations proofs use instead of unfolding them. -/

namespace Sys2Proof.Machine

@[simp] theorem uint_nil : uint [] = 0 := rfl

theorem uint_concat (b : Bits) (x : Bit) : uint (b ++ [x]) = 2 * uint b + x.toNat := by
  simp [uint]

theorem foldl_uint (b : Bits) (acc : Nat) :
    b.foldl (fun acc x => 2 * acc + x.toNat) acc = acc * 2 ^ b.length + uint b := by
  induction b generalizing acc with
  | nil => simp
  | cons x b ih =>
    simp only [List.foldl_cons, List.length_cons, uint]
    rw [ih, ih (2 * 0 + x.toNat)]
    ring

theorem uint_append (a b : Bits) : uint (a ++ b) = uint a * 2 ^ b.length + uint b := by
  simp only [uint, List.foldl_append]
  exact foldl_uint b _

theorem uint_cons (x : Bit) (b : Bits) : uint (x :: b) = x.toNat * 2 ^ b.length + uint b := by
  simpa [uint] using uint_append [x] b

theorem uint_lt (b : Bits) : uint b < 2 ^ b.length := by
  induction b with
  | nil => simp
  | cons x b ih =>
    rw [uint_cons, List.length_cons, pow_succ]
    cases x <;> simp <;> omega

@[simp] theorem bitsOf_length (k v : Nat) : (bitsOf k v).length = k := by
  induction k with
  | zero => rfl
  | succ k ih => simp [bitsOf, ih]

/-- The value of `bitsOf` for any number: its low `k` bits. -/
theorem uint_bitsOf_mod (k v : Nat) : uint (bitsOf k v) = v % 2 ^ k := by
  induction k with
  | zero => simp [bitsOf, Nat.mod_one]
  | succ k ih =>
    have h : (v.testBit k).toNat = v / 2 ^ k % 2 := by
      rw [Nat.testBit_eq_decide_div_mod_eq]
      rcases Nat.mod_two_eq_zero_or_one (v / 2 ^ k) with h | h <;> simp [h]
    rw [bitsOf, uint_cons, bitsOf_length, ih, Nat.mod_pow_succ, h]
    ring

theorem uint_bitsOf {k v : Nat} (h : v < 2 ^ k) : uint (bitsOf k v) = v := by
  rw [uint_bitsOf_mod, Nat.mod_eq_of_lt h]

@[simp] theorem zeros_length (k : Nat) : (zeros k).length = k := by
  simp [zeros]

@[simp] theorem zeros_zero : zeros 0 = [] := rfl

theorem zeros_succ (k : Nat) : zeros (k + 1) = false :: zeros k := rfl

theorem lt_two_pow_bitlen (n : Nat) : n < 2 ^ bitlen n := by
  unfold bitlen
  split
  · next h => simp [h]
  · exact Nat.lt_log2_self

theorem bitlen_le {n k : Nat} (h : n < 2 ^ k) : bitlen n ≤ k := by
  unfold bitlen
  split
  · omega
  · next hn => exact (Nat.log2_lt hn).2 h

theorem bitlen_pos {n : Nat} (h : 1 ≤ n) : 1 ≤ bitlen n := by
  unfold bitlen
  split <;> omega

@[simp] theorem minbits_length (n : Nat) : (minbits n).length = bitlen n := by
  simp [minbits]

theorem slice_length {α : Type} (b : List α) (lo hi : Nat) : (slice b lo hi).length = min (hi - lo) (b.length - lo) := by
  simp [slice]

@[simp] theorem leadingZeros_zeros (k : Nat) : leadingZeros (zeros k) = k := by
  induction k with
  | zero => rfl
  | succ k ih => rw [zeros_succ, leadingZeros, ih]

theorem leadingZeros_marked (z : Nat) (rest : Bits) : leadingZeros (zeros z ++ true :: rest) = z := by
  induction z with
  | zero => rfl
  | succ z ih => rw [zeros_succ, List.cons_append, leadingZeros, ih]

theorem leadingZeros_le (b : Bits) : leadingZeros b ≤ b.length := by
  induction b with
  | nil => exact Nat.le_refl _
  | cons x b ih => cases x <;> simp [leadingZeros, ih]

/-- Every chunk has at most `w` bits. -/
theorem chunksFuel_length_le (fuel w : Nat) (d : Bits) : ∀ c ∈ chunksFuel fuel w d, c.length ≤ w := by
  induction fuel generalizing d with
  | zero => simp [chunksFuel]
  | succ fuel ih =>
    cases d with
    | nil => simp [chunksFuel]
    | cons b rest =>
      intro c hc
      simp only [chunksFuel, List.mem_cons] at hc
      rcases hc with rfl | hc
      · simp
      · exact ih _ c hc

/-- Every chunk value of width `w` is below `2^w` (R161, R165). -/
theorem chunkVals_lt (w : Nat) (d : Bits) : ∀ v ∈ chunkVals w d, v < 2 ^ w := by
  intro v hv
  simp only [chunkVals, List.mem_map] at hv
  obtain ⟨c, hc, rfl⟩ := hv
  exact lt_of_lt_of_le (uint_lt c) (Nat.pow_le_pow_right (by decide) (chunksFuel_length_le _ w d c hc))

/-- With enough fuel the chunks are the input cut up, in order (R161). -/
theorem chunksFuel_flatten {w : Nat} (hw : 1 ≤ w) (fuel : Nat) (d : Bits) (h : d.length ≤ fuel) :
    (chunksFuel fuel w d).flatten = d := by
  induction fuel generalizing d with
  | zero =>
    have : d = [] := List.length_eq_zero_iff.1 (by omega)
    simp [chunksFuel, this]
  | succ fuel ih =>
    cases d with
    | nil => rfl
    | cons b rest =>
      rw [chunksFuel, List.flatten_cons, ih _ (by simp at h ⊢; omega), List.take_append_drop]

@[simp] theorem symBits_length (w : Nat) (l : List Symbol) : (symBits w l).length = w * l.length := by
  induction l with
  | nil => simp [symBits]
  | cons c l ih =>
    simp only [symBits, List.flatMap_cons, List.length_append, bitsOf_length, List.length_cons] at ih ⊢
    rw [ih]; ring

/-- Symbols written as `w` bits each are cut back into themselves (R14, R161). -/
theorem chunksFuel_symBits {w : Nat} (hw : 1 ≤ w) (vals : List Nat) (fuel : Nat) (h : vals.length ≤ fuel) :
    chunksFuel fuel w (symBits w vals) = vals.map (bitsOf w) := by
  induction vals generalizing fuel with
  | nil => cases fuel <;> rfl
  | cons v vals ih =>
    obtain ⟨fuel, rfl⟩ : ∃ k, fuel = k + 1 := ⟨fuel - 1, by simp at h; omega⟩
    have hne : symBits w (v :: vals) = bitsOf w v ++ symBits w vals := rfl
    obtain ⟨b, rest, hb⟩ : ∃ b rest, bitsOf w v ++ symBits w vals = b :: rest := by
      cases w with
      | zero => omega
      | succ k => exact ⟨_, _, rfl⟩
    rw [hne, hb, chunksFuel, ← hb, List.take_left' (bitsOf_length w v), List.drop_left' (bitsOf_length w v),
      ih fuel (by simpa using h), List.map_cons]

theorem chunkVals_symBits {w : Nat} (hw : 1 ≤ w) (vals : List Nat) (h : ∀ v ∈ vals, v < 2 ^ w) :
    chunkVals w (symBits w vals) = vals := by
  have hlen : vals.length ≤ (symBits w vals).length := by
    rw [symBits_length]; exact Nat.le_mul_of_pos_left _ hw
  rw [chunkVals, chunks, chunksFuel_symBits hw vals _ hlen, List.map_map]
  exact (List.map_congr_left fun v hv => uint_bitsOf (h v hv)).trans (List.map_id vals)

end Sys2Proof.Machine
end

