-- ==== Sys2Proof/Laws/HuffmanCodec.lean ====
section
/-! SUPPORT. What each function of the HuffmanCodec can answer, said once (spec/42_huffman.md R161 to R173). -/

namespace Sys2Proof.Machine

/-! ### The priority structure -/

theorem HufNode.before_iff (a b : HufNode) :
    a.before b = true ↔ a.tree.freq < b.tree.freq ∨ (a.tree.freq = b.tree.freq ∧ a.seq < b.seq) := by
  simp [HufNode.before]

theorem hufInsert_perm (e : HufNode) (q : List HufNode) : (hufInsert e q).Perm (e :: q) := by
  induction q with
  | nil => exact List.Perm.refl _
  | cons x q ih =>
    unfold hufInsert
    split
    · exact List.Perm.refl _
    · exact (List.Perm.cons x ih).trans (List.Perm.swap e x q)

@[simp] theorem hufInsert_length (e : HufNode) (q : List HufNode) : (hufInsert e q).length = q.length + 1 :=
  (hufInsert_perm e q).length_eq

/-- No later entry comes before an earlier one: the structure stays ordered, so its head has the least key (R162). -/
theorem hufInsert_ordered (e : HufNode) (q : List HufNode)
    (h : q.Pairwise fun a b => b.before a = false) : (hufInsert e q).Pairwise fun a b => b.before a = false := by
  induction q with
  | nil => simp [hufInsert]
  | cons x q ih =>
    obtain ⟨hx, hq⟩ := List.pairwise_cons.1 h
    unfold hufInsert
    split
    · next hb =>
      refine List.pairwise_cons.2 ⟨fun y hy => ?_, h⟩
      have hxy : y = x ∨ y.before x = false := by
        rcases List.mem_cons.1 hy with rfl | hy
        · exact Or.inl rfl
        · exact Or.inr (hx y hy)
      rw [Bool.eq_false_iff]
      intro hye
      rw [HufNode.before_iff] at hb hye
      rcases hxy with rfl | hxy
      · omega
      · rw [Bool.eq_false_iff, Ne, HufNode.before_iff] at hxy
        omega
    · next hb =>
      refine List.pairwise_cons.2 ⟨fun y hy => ?_, ih hq⟩
      rcases List.mem_cons.1 ((hufInsert_perm e q).mem_iff.1 hy) with rfl | hy
      · simpa using hb
      · exact hx y hy

/-- The leaves of all nodes of a priority structure. -/
def leafTotal (q : List HufNode) : Nat :=
  (q.map fun e => e.tree.leaves.length).sum

@[simp] theorem leafTotal_insert (e : HufNode) (q : List HufNode) :
    leafTotal (hufInsert e q) = e.tree.leaves.length + leafTotal q :=
  ((hufInsert_perm e q).map _).sum_eq.trans (List.sum_cons ..)

/-- The merge loop ends in one tree that holds every leaf (R162). -/
theorem hufMerge_some {fuel seq : Nat} {q : List HufNode} (hq : q ≠ []) (h : q.length ≤ fuel + 1) :
    ∃ t, hufMerge fuel seq q = some t ∧ t.leaves.length = leafTotal q := by
  induction fuel generalizing seq q with
  | zero =>
    obtain ⟨e, rfl⟩ : ∃ e, q = [e] := List.length_eq_one_iff.1 (by have := List.length_pos_iff.2 hq; omega)
    exact ⟨e.tree, rfl, (Nat.add_zero _).symm⟩
  | succ fuel ih =>
    match q, hq, h with
    | [e], _, _ => exact ⟨e.tree, rfl, (Nat.add_zero _).symm⟩
    | a :: b :: rest, _, h =>
      let m : HufNode := { seq := seq, tree := .internal (a.tree.freq + b.tree.freq) a.tree b.tree }
      obtain ⟨t, ht, hl⟩ := ih (seq := seq + 1) (q := hufInsert m rest)
        (fun he => by simpa using congrArg List.length he) (by simp at h ⊢; omega)
      refine ⟨t, ht, hl.trans ?_⟩
      rw [leafTotal_insert]
      simp [m, HufTree.leaves, leafTotal, Nat.add_assoc]

theorem hufLeaves_count (seq : Nat) (f : FreqTable) (q : List HufNode) :
    (hufLeaves seq f q).length = f.length + q.length ∧ leafTotal (hufLeaves seq f q) = f.length + leafTotal q := by
  induction f generalizing seq q with
  | nil => simp [hufLeaves]
  | cons e f ih =>
    obtain ⟨h1, h2⟩ := ih (seq + 1) (hufInsert { seq := seq, tree := .leaf e.1 e.2 } q)
    exact ⟨by rw [hufLeaves, h1]; simp; omega, by rw [hufLeaves, h2]; simp [HufTree.leaves]; omega⟩

/-- The tree of a table has as many leaves as the table has symbols (R162). -/
theorem hufTree_some {f : FreqTable} (hf : f ≠ []) : ∃ t, hufTree f = some t ∧ t.leaves.length = f.length := by
  obtain ⟨h1, h2⟩ := hufLeaves_count 0 f []
  have hne : hufLeaves 0 f [] ≠ [] := fun he => by
    have := List.length_pos_iff.2 hf
    rw [he] at h1; simp at h1; omega
  obtain ⟨t, ht, hl⟩ := hufMerge_some (fuel := f.length) (seq := f.length) hne (by rw [h1]; simp)
  exact ⟨t, ht, hl.trans h2⟩

/-! ### The tree serializer and parser -/

/-- A leaf takes `SB + 1` bits, an internal node one (R85). -/
theorem hufSerNode_length_succ {φ : Type} (SB : Nat) (t : HufTree φ) :
    (hufSerNode SB t).length + 1 = t.leaves.length * (SB + 2) := by
  induction t with
  | leaf v f => simp [hufSerNode, HufTree.leaves]
  | internal f l r ihl ihr =>
    simp only [hufSerNode, HufTree.leaves, List.length_cons, List.length_append]
    rw [Nat.add_mul, ← ihl, ← ihr]; omega

@[simp] theorem hufSerNode_pos {φ : Type} (SB : Nat) (t : HufTree φ) : 1 ≤ (hufSerNode SB t).length := by
  cases t <;> simp [hufSerNode]

/-- A parsed tree takes at least one bit and ends inside the buffer (R166). -/
theorem hufDeserFuel_ok {SB fuel pos p : Nat} {b : Bits} {t : HufTree Unit}
    (h : hufDeserFuel SB b fuel pos = .ok (t, p)) : pos < p ∧ p ≤ b.length := by
  induction fuel generalizing pos p t with
  | zero => simp [hufDeserFuel] at h
  | succ fuel ih =>
    unfold hufDeserFuel at h
    split at h
    · cases h
    · next rest hd =>
      split at h
      · cases h
      · next hl =>
        cases h
        have := congrArg List.length hd
        simp only [List.length_drop, List.length_cons] at this
        omega
    · split at h
      · cases h
      · next l p1 hl =>
        split at h
        · cases h
        · next r p2 hr =>
          cases h
          have := ih hl
          have := ih hr
          omega

/-- The parser raises only `MalformedStream` (R166). -/
theorem hufDeserFuel_error {SB fuel pos : Nat} {b : Bits} {e : ErrorKind}
    (h : hufDeserFuel SB b fuel pos = .error e) : e = .malformedStream := by
  induction fuel generalizing pos e with
  | zero => simp [hufDeserFuel] at h; exact h.symm
  | succ fuel ih =>
    unfold hufDeserFuel at h
    split at h
    · cases h; rfl
    · split at h <;> cases h; rfl
    · split at h
      · next e' he => cases h; exact ih he
      · next hl =>
        split at h
        · next e' he => cases h; exact ih he
        · cases h

/-! ### The frame decoder -/

theorem hufFollow_error {t : HufTree Unit} {b : Bits} {e : ErrorKind} (h : hufFollow t b = .error e) :
    e = .malformedStream := by
  induction t generalizing b with
  | leaf v f => simp [hufFollow] at h
  | internal f l r ihl ihr =>
    cases b with
    | nil => simp [hufFollow] at h; exact h.symm
    | cons x b =>
      cases x
      · exact ihl h
      · exact ihr h

theorem hufSymbol_error {t : Option (HufTree Unit)} {b : Bits} {e : ErrorKind} (h : hufSymbol t b = .error e) :
    e = .malformedStream := by
  unfold hufSymbol at h
  split at h
  · cases h; rfl
  · cases h; rfl
  · cases h
  · exact hufFollow_error h

theorem hufDecodeLoop_error {t : Option (HufTree Unit)} {SB target fuel emitted : Nat} {b : Bits} {e : ErrorKind}
    (h : hufDecodeLoop t SB target fuel emitted b = .error e) : e = .malformedStream := by
  induction fuel generalizing emitted b e with
  | zero =>
    unfold hufDecodeLoop at h
    split at h <;> cases h; rfl
  | succ fuel ih =>
    unfold hufDecodeLoop at h
    split at h
    · split at h
      · next e' he => cases h; exact hufSymbol_error he
      · split at h
        · next e' he => cases h; exact ih he
        · cases h
    · cases h

theorem hufTreeField_error {field : Bits} {SB : Nat} {e : ErrorKind} (h : hufTreeField field SB = .error e) :
    e = .malformedStream := by
  unfold hufTreeField at h
  split at h
  · cases h
  · split at h
    · next e' he => cases h; exact hufDeserFuel_error he
    · split at h <;> cases h; rfl

/-- The frame decoder raises only `MalformedStream` (R169, R203). -/
theorem hufDecode_error {b : Bits} {e : ErrorKind} (h : hufDecode b = .error e) : e = .malformedStream := by
  unfold hufDecode at h
  split at h
  · cases h
  · split at h
    · cases h; rfl
    · simp only at h
      split at h
      · cases h; rfl
      · split at h
        · cases h; rfl
        · split at h
          · next e' he => cases h; exact hufTreeField_error he
          · exact hufDecodeLoop_error h

/-- The frame encoder raises only `InvalidInput` and `CapacityExceeded` (R167, R201, R202). -/
theorem hufEncode_error {d : Bits} {SB : Nat} {e : ErrorKind} (h : hufEncode d SB = .error e) :
    e = .invalidInput ∨ e = .capacityExceeded := by
  unfold hufEncode at h
  split at h
  · cases h
  · split at h
    · cases h; exact Or.inl rfl
    · split at h
      · cases h; exact Or.inr rfl
      · split at h
        · cases h; exact Or.inr rfl
        · simp only at h
          split at h <;> cases h; exact Or.inr rfl

end Sys2Proof.Machine
end

