-- ==== Sys2Proof/Laws/State.lean ====
section
/-! SUPPORT. What each update of the state leaves in each field, true by definition, so that no proof unfolds a record update. -/

namespace Sys2Proof.Machine

/-! ### `loadIn` -/

@[simp] theorem loadIn_build (b : Bits) (s : State) : (loadIn b s).build = s.build := rfl
@[simp] theorem loadIn_status (b : Bits) (s : State) : (loadIn b s).status = s.status := rfl
@[simp] theorem loadIn_numS (b : Bits) (s : State) : (loadIn b s).numS = s.numS := rfl
@[simp] theorem loadIn_lzW (b : Bits) (s : State) : (loadIn b s).lzW = s.lzW := rfl
@[simp] theorem loadIn_lzL (b : Bits) (s : State) : (loadIn b s).lzL = s.lzL := rfl
@[simp] theorem loadIn_lzK (b : Bits) (s : State) : (loadIn b s).lzK = s.lzK := rfl
@[simp] theorem loadIn_lzB (b : Bits) (s : State) : (loadIn b s).lzB = s.lzB := rfl
@[simp] theorem loadIn_hufSB (b : Bits) (s : State) : (loadIn b s).hufSB = s.hufSB := rfl
@[simp] theorem loadIn_numN (b : Bits) (s : State) : (loadIn b s).numN = s.numN := rfl
@[simp] theorem loadIn_numR (b : Bits) (s : State) : (loadIn b s).numR = s.numR := rfl
@[simp] theorem loadIn_inBuf (b : Bits) (s : State) : (loadIn b s).inBuf = b := rfl
@[simp] theorem loadIn_inRd (b : Bits) (s : State) : (loadIn b s).inRd = 0 := rfl
@[simp] theorem loadIn_outBuf (b : Bits) (s : State) : (loadIn b s).outBuf = s.outBuf := rfl
@[simp] theorem loadIn_tok (b : Bits) (s : State) : (loadIn b s).tok = s.tok := rfl
@[simp] theorem loadIn_pending (b : Bits) (s : State) : (loadIn b s).pending = s.pending := rfl
@[simp] theorem loadIn_replies (b : Bits) (s : State) : (loadIn b s).replies = s.replies := rfl

/-! ### `loadTok` -/

@[simp] theorem loadTok_build (toks : List Token) (s : State) : (loadTok toks s).build = s.build := rfl
@[simp] theorem loadTok_status (toks : List Token) (s : State) : (loadTok toks s).status = s.status := rfl
@[simp] theorem loadTok_numS (toks : List Token) (s : State) : (loadTok toks s).numS = s.numS := rfl
@[simp] theorem loadTok_lzW (toks : List Token) (s : State) : (loadTok toks s).lzW = s.lzW := rfl
@[simp] theorem loadTok_lzL (toks : List Token) (s : State) : (loadTok toks s).lzL = s.lzL := rfl
@[simp] theorem loadTok_lzK (toks : List Token) (s : State) : (loadTok toks s).lzK = s.lzK := rfl
@[simp] theorem loadTok_lzB (toks : List Token) (s : State) : (loadTok toks s).lzB = s.lzB := rfl
@[simp] theorem loadTok_hufSB (toks : List Token) (s : State) : (loadTok toks s).hufSB = s.hufSB := rfl
@[simp] theorem loadTok_numN (toks : List Token) (s : State) : (loadTok toks s).numN = s.numN := rfl
@[simp] theorem loadTok_numR (toks : List Token) (s : State) : (loadTok toks s).numR = s.numR := rfl
@[simp] theorem loadTok_inBuf (toks : List Token) (s : State) : (loadTok toks s).inBuf = s.inBuf := rfl
@[simp] theorem loadTok_inRd (toks : List Token) (s : State) : (loadTok toks s).inRd = s.inRd := rfl
@[simp] theorem loadTok_outBuf (toks : List Token) (s : State) : (loadTok toks s).outBuf = s.outBuf := rfl
@[simp] theorem loadTok_tok (toks : List Token) (s : State) : (loadTok toks s).tok = toks := rfl
@[simp] theorem loadTok_pending (toks : List Token) (s : State) : (loadTok toks s).pending = s.pending := rfl
@[simp] theorem loadTok_replies (toks : List Token) (s : State) : (loadTok toks s).replies = s.replies := rfl

/-! ### `clearOut` -/

@[simp] theorem clearOut_build (s : State) : (clearOut s).build = s.build := rfl
@[simp] theorem clearOut_status (s : State) : (clearOut s).status = s.status := rfl
@[simp] theorem clearOut_numS (s : State) : (clearOut s).numS = s.numS := rfl
@[simp] theorem clearOut_lzW (s : State) : (clearOut s).lzW = s.lzW := rfl
@[simp] theorem clearOut_lzL (s : State) : (clearOut s).lzL = s.lzL := rfl
@[simp] theorem clearOut_lzK (s : State) : (clearOut s).lzK = s.lzK := rfl
@[simp] theorem clearOut_lzB (s : State) : (clearOut s).lzB = s.lzB := rfl
@[simp] theorem clearOut_hufSB (s : State) : (clearOut s).hufSB = s.hufSB := rfl
@[simp] theorem clearOut_numN (s : State) : (clearOut s).numN = s.numN := rfl
@[simp] theorem clearOut_numR (s : State) : (clearOut s).numR = s.numR := rfl
@[simp] theorem clearOut_inBuf (s : State) : (clearOut s).inBuf = s.inBuf := rfl
@[simp] theorem clearOut_inRd (s : State) : (clearOut s).inRd = s.inRd := rfl
@[simp] theorem clearOut_outBuf (s : State) : (clearOut s).outBuf = [] := rfl
@[simp] theorem clearOut_tok (s : State) : (clearOut s).tok = s.tok := rfl
@[simp] theorem clearOut_pending (s : State) : (clearOut s).pending = s.pending := rfl
@[simp] theorem clearOut_replies (s : State) : (clearOut s).replies = s.replies := rfl

/-! ### `setTok` -/

@[simp] theorem setTok_build (toks : List Token) (s : State) : (setTok toks s).build = s.build := rfl
@[simp] theorem setTok_status (toks : List Token) (s : State) : (setTok toks s).status = s.status := rfl
@[simp] theorem setTok_numS (toks : List Token) (s : State) : (setTok toks s).numS = s.numS := rfl
@[simp] theorem setTok_lzW (toks : List Token) (s : State) : (setTok toks s).lzW = s.lzW := rfl
@[simp] theorem setTok_lzL (toks : List Token) (s : State) : (setTok toks s).lzL = s.lzL := rfl
@[simp] theorem setTok_lzK (toks : List Token) (s : State) : (setTok toks s).lzK = s.lzK := rfl
@[simp] theorem setTok_lzB (toks : List Token) (s : State) : (setTok toks s).lzB = s.lzB := rfl
@[simp] theorem setTok_hufSB (toks : List Token) (s : State) : (setTok toks s).hufSB = s.hufSB := rfl
@[simp] theorem setTok_numN (toks : List Token) (s : State) : (setTok toks s).numN = s.numN := rfl
@[simp] theorem setTok_numR (toks : List Token) (s : State) : (setTok toks s).numR = s.numR := rfl
@[simp] theorem setTok_inBuf (toks : List Token) (s : State) : (setTok toks s).inBuf = s.inBuf := rfl
@[simp] theorem setTok_inRd (toks : List Token) (s : State) : (setTok toks s).inRd = s.inRd := rfl
@[simp] theorem setTok_outBuf (toks : List Token) (s : State) : (setTok toks s).outBuf = s.outBuf := rfl
@[simp] theorem setTok_tok (toks : List Token) (s : State) : (setTok toks s).tok = toks := rfl
@[simp] theorem setTok_pending (toks : List Token) (s : State) : (setTok toks s).pending = s.pending := rfl
@[simp] theorem setTok_replies (toks : List Token) (s : State) : (setTok toks s).replies = s.replies := rfl

/-! ### `consumeIn` -/

@[simp] theorem consumeIn_build (s : State) : (consumeIn s).build = s.build := rfl
@[simp] theorem consumeIn_status (s : State) : (consumeIn s).status = s.status := rfl
@[simp] theorem consumeIn_numS (s : State) : (consumeIn s).numS = s.numS := rfl
@[simp] theorem consumeIn_lzW (s : State) : (consumeIn s).lzW = s.lzW := rfl
@[simp] theorem consumeIn_lzL (s : State) : (consumeIn s).lzL = s.lzL := rfl
@[simp] theorem consumeIn_lzK (s : State) : (consumeIn s).lzK = s.lzK := rfl
@[simp] theorem consumeIn_lzB (s : State) : (consumeIn s).lzB = s.lzB := rfl
@[simp] theorem consumeIn_hufSB (s : State) : (consumeIn s).hufSB = s.hufSB := rfl
@[simp] theorem consumeIn_numN (s : State) : (consumeIn s).numN = s.numN := rfl
@[simp] theorem consumeIn_numR (s : State) : (consumeIn s).numR = s.numR := rfl
@[simp] theorem consumeIn_inBuf (s : State) : (consumeIn s).inBuf = s.inBuf := rfl
@[simp] theorem consumeIn_inRd (s : State) : (consumeIn s).inRd = s.inBuf.length := rfl
@[simp] theorem consumeIn_outBuf (s : State) : (consumeIn s).outBuf = s.outBuf := rfl
@[simp] theorem consumeIn_tok (s : State) : (consumeIn s).tok = s.tok := rfl
@[simp] theorem consumeIn_pending (s : State) : (consumeIn s).pending = s.pending := rfl
@[simp] theorem consumeIn_replies (s : State) : (consumeIn s).replies = s.replies := rfl

/-! ### `emptyDest` -/

@[simp] theorem emptyDest_build (d : Dest) (s : State) : (emptyDest d s).build = s.build := rfl
@[simp] theorem emptyDest_status (d : Dest) (s : State) : (emptyDest d s).status = s.status := rfl
@[simp] theorem emptyDest_numS (d : Dest) (s : State) : (emptyDest d s).numS = s.numS := rfl
@[simp] theorem emptyDest_lzW (d : Dest) (s : State) : (emptyDest d s).lzW = s.lzW := rfl
@[simp] theorem emptyDest_lzL (d : Dest) (s : State) : (emptyDest d s).lzL = s.lzL := rfl
@[simp] theorem emptyDest_lzK (d : Dest) (s : State) : (emptyDest d s).lzK = s.lzK := rfl
@[simp] theorem emptyDest_lzB (d : Dest) (s : State) : (emptyDest d s).lzB = s.lzB := rfl
@[simp] theorem emptyDest_hufSB (d : Dest) (s : State) : (emptyDest d s).hufSB = s.hufSB := rfl
@[simp] theorem emptyDest_numN (d : Dest) (s : State) : (emptyDest d s).numN = s.numN := rfl
@[simp] theorem emptyDest_numR (d : Dest) (s : State) : (emptyDest d s).numR = s.numR := rfl
@[simp] theorem emptyDest_inBuf (d : Dest) (s : State) : (emptyDest d s).inBuf = s.inBuf := rfl
@[simp] theorem emptyDest_inRd (d : Dest) (s : State) : (emptyDest d s).inRd = s.inRd := rfl
@[simp] theorem emptyDest_outBuf (d : Dest) (s : State) : (emptyDest d s).outBuf = if d.out then [] else s.outBuf := rfl
@[simp] theorem emptyDest_tok (d : Dest) (s : State) : (emptyDest d s).tok = if d.tok then [] else s.tok := rfl
@[simp] theorem emptyDest_pending (d : Dest) (s : State) : (emptyDest d s).pending = s.pending := rfl
@[simp] theorem emptyDest_replies (d : Dest) (s : State) : (emptyDest d s).replies = s.replies := rfl

/-! ### `raiseError` -/

@[simp] theorem raiseError_build (d : Dest) (e : ErrorKind) (s : State) : (raiseError d e s).build = s.build := rfl
@[simp] theorem raiseError_status (d : Dest) (e : ErrorKind) (s : State) : (raiseError d e s).status = .error e := rfl
@[simp] theorem raiseError_numS (d : Dest) (e : ErrorKind) (s : State) : (raiseError d e s).numS = s.numS := rfl
@[simp] theorem raiseError_lzW (d : Dest) (e : ErrorKind) (s : State) : (raiseError d e s).lzW = s.lzW := rfl
@[simp] theorem raiseError_lzL (d : Dest) (e : ErrorKind) (s : State) : (raiseError d e s).lzL = s.lzL := rfl
@[simp] theorem raiseError_lzK (d : Dest) (e : ErrorKind) (s : State) : (raiseError d e s).lzK = s.lzK := rfl
@[simp] theorem raiseError_lzB (d : Dest) (e : ErrorKind) (s : State) : (raiseError d e s).lzB = s.lzB := rfl
@[simp] theorem raiseError_hufSB (d : Dest) (e : ErrorKind) (s : State) : (raiseError d e s).hufSB = s.hufSB := rfl
@[simp] theorem raiseError_numN (d : Dest) (e : ErrorKind) (s : State) : (raiseError d e s).numN = s.numN := rfl
@[simp] theorem raiseError_numR (d : Dest) (e : ErrorKind) (s : State) : (raiseError d e s).numR = s.numR := rfl
@[simp] theorem raiseError_inBuf (d : Dest) (e : ErrorKind) (s : State) : (raiseError d e s).inBuf = s.inBuf := rfl
@[simp] theorem raiseError_inRd (d : Dest) (e : ErrorKind) (s : State) : (raiseError d e s).inRd = s.inRd := rfl
@[simp] theorem raiseError_outBuf (d : Dest) (e : ErrorKind) (s : State) : (raiseError d e s).outBuf = if d.out then [] else s.outBuf := rfl
@[simp] theorem raiseError_tok (d : Dest) (e : ErrorKind) (s : State) : (raiseError d e s).tok = if d.tok then [] else s.tok := rfl
@[simp] theorem raiseError_pending (d : Dest) (e : ErrorKind) (s : State) : (raiseError d e s).pending = s.pending := rfl
@[simp] theorem raiseError_replies (d : Dest) (e : ErrorKind) (s : State) : (raiseError d e s).replies = s.replies := rfl

/-! ### `completeCommand` -/

@[simp] theorem completeCommand_build (s : State) : (completeCommand s).build = s.build := rfl
@[simp] theorem completeCommand_status (s : State) : (completeCommand s).status = .done := rfl
@[simp] theorem completeCommand_numS (s : State) : (completeCommand s).numS = s.numS := rfl
@[simp] theorem completeCommand_lzW (s : State) : (completeCommand s).lzW = s.lzW := rfl
@[simp] theorem completeCommand_lzL (s : State) : (completeCommand s).lzL = s.lzL := rfl
@[simp] theorem completeCommand_lzK (s : State) : (completeCommand s).lzK = s.lzK := rfl
@[simp] theorem completeCommand_lzB (s : State) : (completeCommand s).lzB = s.lzB := rfl
@[simp] theorem completeCommand_hufSB (s : State) : (completeCommand s).hufSB = s.hufSB := rfl
@[simp] theorem completeCommand_numN (s : State) : (completeCommand s).numN = s.numN := rfl
@[simp] theorem completeCommand_numR (s : State) : (completeCommand s).numR = s.numR := rfl
@[simp] theorem completeCommand_inBuf (s : State) : (completeCommand s).inBuf = s.inBuf := rfl
@[simp] theorem completeCommand_inRd (s : State) : (completeCommand s).inRd = s.inRd := rfl
@[simp] theorem completeCommand_outBuf (s : State) : (completeCommand s).outBuf = s.outBuf := rfl
@[simp] theorem completeCommand_tok (s : State) : (completeCommand s).tok = s.tok := rfl
@[simp] theorem completeCommand_pending (s : State) : (completeCommand s).pending = s.pending := rfl
@[simp] theorem completeCommand_replies (s : State) : (completeCommand s).replies = s.replies := rfl

/-! ### `reply` -/

@[simp] theorem reply_build (r : Reply) (s : State) : (reply r s).build = s.build := rfl
@[simp] theorem reply_status (r : Reply) (s : State) : (reply r s).status = s.status := rfl
@[simp] theorem reply_numS (r : Reply) (s : State) : (reply r s).numS = s.numS := rfl
@[simp] theorem reply_lzW (r : Reply) (s : State) : (reply r s).lzW = s.lzW := rfl
@[simp] theorem reply_lzL (r : Reply) (s : State) : (reply r s).lzL = s.lzL := rfl
@[simp] theorem reply_lzK (r : Reply) (s : State) : (reply r s).lzK = s.lzK := rfl
@[simp] theorem reply_lzB (r : Reply) (s : State) : (reply r s).lzB = s.lzB := rfl
@[simp] theorem reply_hufSB (r : Reply) (s : State) : (reply r s).hufSB = s.hufSB := rfl
@[simp] theorem reply_numN (r : Reply) (s : State) : (reply r s).numN = s.numN := rfl
@[simp] theorem reply_numR (r : Reply) (s : State) : (reply r s).numR = s.numR := rfl
@[simp] theorem reply_inBuf (r : Reply) (s : State) : (reply r s).inBuf = s.inBuf := rfl
@[simp] theorem reply_inRd (r : Reply) (s : State) : (reply r s).inRd = s.inRd := rfl
@[simp] theorem reply_outBuf (r : Reply) (s : State) : (reply r s).outBuf = s.outBuf := rfl
@[simp] theorem reply_tok (r : Reply) (s : State) : (reply r s).tok = s.tok := rfl
@[simp] theorem reply_pending (r : Reply) (s : State) : (reply r s).pending = s.pending := rfl
@[simp] theorem reply_replies (r : Reply) (s : State) : (reply r s).replies = s.replies ++ [r] := rfl

/-! ### `offerWord` -/

@[simp] theorem offerWord_build (w : Nat) (s : State) : (offerWord w s).build = s.build := rfl
@[simp] theorem offerWord_status (w : Nat) (s : State) : (offerWord w s).status = s.status := rfl
@[simp] theorem offerWord_numS (w : Nat) (s : State) : (offerWord w s).numS = s.numS := rfl
@[simp] theorem offerWord_lzW (w : Nat) (s : State) : (offerWord w s).lzW = s.lzW := rfl
@[simp] theorem offerWord_lzL (w : Nat) (s : State) : (offerWord w s).lzL = s.lzL := rfl
@[simp] theorem offerWord_lzK (w : Nat) (s : State) : (offerWord w s).lzK = s.lzK := rfl
@[simp] theorem offerWord_lzB (w : Nat) (s : State) : (offerWord w s).lzB = s.lzB := rfl
@[simp] theorem offerWord_hufSB (w : Nat) (s : State) : (offerWord w s).hufSB = s.hufSB := rfl
@[simp] theorem offerWord_numN (w : Nat) (s : State) : (offerWord w s).numN = s.numN := rfl
@[simp] theorem offerWord_numR (w : Nat) (s : State) : (offerWord w s).numR = s.numR := rfl
@[simp] theorem offerWord_inBuf (w : Nat) (s : State) : (offerWord w s).inBuf = s.inBuf := rfl
@[simp] theorem offerWord_inRd (w : Nat) (s : State) : (offerWord w s).inRd = s.inRd := rfl
@[simp] theorem offerWord_outBuf (w : Nat) (s : State) : (offerWord w s).outBuf = s.outBuf := rfl
@[simp] theorem offerWord_tok (w : Nat) (s : State) : (offerWord w s).tok = s.tok := rfl
@[simp] theorem offerWord_pending (w : Nat) (s : State) : (offerWord w s).pending = .wr 0x00 w :: s.pending := rfl
@[simp] theorem offerWord_replies (w : Nat) (s : State) : (offerWord w s).replies = s.replies := rfl

/-! ### `applyReset` -/

@[simp] theorem applyReset_build (s : State) : (applyReset s).build = s.build := rfl
@[simp] theorem applyReset_status (s : State) : (applyReset s).status = .idle := rfl
@[simp] theorem applyReset_numS (s : State) : (applyReset s).numS = 5 := rfl
@[simp] theorem applyReset_lzW (s : State) : (applyReset s).lzW = 0 := rfl
@[simp] theorem applyReset_lzL (s : State) : (applyReset s).lzL = 0 := rfl
@[simp] theorem applyReset_lzK (s : State) : (applyReset s).lzK = 0 := rfl
@[simp] theorem applyReset_lzB (s : State) : (applyReset s).lzB = 8 := rfl
@[simp] theorem applyReset_hufSB (s : State) : (applyReset s).hufSB = 8 := rfl
@[simp] theorem applyReset_numN (s : State) : (applyReset s).numN = 0 := rfl
@[simp] theorem applyReset_numR (s : State) : (applyReset s).numR = 0 := rfl
@[simp] theorem applyReset_inBuf (s : State) : (applyReset s).inBuf = [] := rfl
@[simp] theorem applyReset_inRd (s : State) : (applyReset s).inRd = 0 := rfl
@[simp] theorem applyReset_outBuf (s : State) : (applyReset s).outBuf = [] := rfl
@[simp] theorem applyReset_tok (s : State) : (applyReset s).tok = [] := rfl
@[simp] theorem applyReset_pending (s : State) : (applyReset s).pending = s.pending := rfl
@[simp] theorem applyReset_replies (s : State) : (applyReset s).replies = s.replies := rfl

/-! ### Views -/

theorem inLen_eq (s : State) : s.inLen = s.inBuf.length := rfl
theorem outLen_eq (s : State) : s.outLen = s.outBuf.length := rfl
theorem tokCnt_eq (s : State) : s.tokCnt = s.tok.length := rfl
theorem unread_eq (s : State) : s.unread = s.inBuf.drop s.inRd := rfl

end Sys2Proof.Machine
end

