-- ==== Sys2Proof/Laws/Ops.lean ====
section
/-! SUPPORT. What each shared operation can do, said once, and that every memory operation keeps `Memory.wf`. -/

namespace Sys2Proof.Machine

/-! ### Limits -/

theorem allows_mono {cap : Limit} {m n : Nat} (h : m ≤ n) (hn : cap.allows n = true) : cap.allows m = true := by
  cases cap with
  | none => rfl
  | some c => simp [Limit.allows] at *; omega

theorem fits_mono {width : Limit} {m n : Nat} (h : m ≤ n) (hn : width.fits n = true) : width.fits m = true := by
  cases width with
  | none => rfl
  | some w => simp [Limit.fits] at *; omega

/-- A number below `2^k` fits a width that allows `k` bits. -/
theorem fits_of_allows {width : Limit} {k n : Nat} (hk : width.allows k = true) (hn : n < 2 ^ k) :
    width.fits n = true := by
  cases width with
  | none => rfl
  | some w =>
    simp [Limit.allows, Limit.fits] at *
    exact lt_of_lt_of_le hn (Nat.pow_le_pow_right (by decide) hk)

/-- A count within a capacity fits a width that covers the capacity. -/
theorem fits_of_covers {width cap : Limit} {n : Nat} (hc : width.covers cap = true) (hn : cap.allows n = true) :
    width.fits n = true := by
  cases width with
  | none => rfl
  | some w =>
    cases cap with
    | none => simp [Limit.covers] at hc
    | some c => simp [Limit.covers, Limit.allows, Limit.fits] at *; omega

/-! ### Ending a command -/

/-- A command always answers a next state: the completed one or the one after the error it raised (R194). -/
theorem endCommand_next_iff (d : Dest) (s t : State) (r : Except ErrorKind State) :
    endCommand d s r = .next t ↔
      (∃ s', r = .ok s' ∧ t = completeCommand s') ∨ (∃ e, r = .error e ∧ t = raiseError d e s) := by
  cases r <;> simp [endCommand, eq_comm]

theorem endCommand_answers (d : Dest) (s : State) (r : Except ErrorKind State) : ∃ t, endCommand d s r = .next t := by
  cases r <;> exact ⟨_, rfl⟩

@[simp] theorem endCommand_ok (d : Dest) (s s' : State) : endCommand d s (.ok s') = .next (completeCommand s') := rfl

@[simp] theorem endCommand_error (d : Dest) (s : State) (e : ErrorKind) :
    endCommand d s (.error e) = .next (raiseError d e s) := rfl

/-! ### Writing results -/

theorem appendOut_ok_iff (b : Bits) (s t : State) :
    appendOut b s = .ok t ↔
      s.build.outCap.allows (s.outBuf.length + b.length) = true ∧ t = { s with outBuf := s.outBuf ++ b } := by
  cases h : s.build.outCap.allows (s.outBuf.length + b.length) <;> simp [appendOut, outLen_eq, h, eq_comm]

theorem appendOut_error_iff (b : Bits) (s : State) (e : ErrorKind) :
    appendOut b s = .error e ↔
      s.build.outCap.allows (s.outBuf.length + b.length) = false ∧ e = .capacityExceeded := by
  cases h : s.build.outCap.allows (s.outBuf.length + b.length) <;> simp [appendOut, outLen_eq, h, eq_comm]

theorem putOut_ok_iff (b : Bits) (s t : State) :
    putOut b s = .ok t ↔ s.build.outCap.allows b.length = true ∧ t = { s with outBuf := b } := by
  cases h : s.build.outCap.allows b.length <;> simp [putOut, h, eq_comm]

theorem putOut_error_iff (b : Bits) (s : State) (e : ErrorKind) :
    putOut b s = .error e ↔ s.build.outCap.allows b.length = false ∧ e = .capacityExceeded := by
  cases h : s.build.outCap.allows b.length <;> simp [putOut, h, eq_comm]

theorem fitTok_ok_iff (toks toks' : List Token) (s : State) :
    fitTok toks s = .ok toks' ↔ s.build.tokCap.allows toks.length = true ∧ toks' = toks := by
  cases h : s.build.tokCap.allows toks.length <;> simp [fitTok, h, eq_comm]

theorem fitTok_error_iff (toks : List Token) (s : State) (e : ErrorKind) :
    fitTok toks s = .error e ↔ s.build.tokCap.allows toks.length = false ∧ e = .capacityExceeded := by
  cases h : s.build.tokCap.allows toks.length <;> simp [fitTok, h, eq_comm]

/-- A write through a register's port changes nothing but that register (R191). -/
theorem writeReg_frame (r : Reg) (v : Int) (s : State) :
    let t := writeReg r v s
    t.build = s.build ∧ t.status = s.status ∧ t.numR = s.numR ∧ t.inBuf = s.inBuf ∧ t.outBuf = s.outBuf ∧
      t.tok = s.tok ∧ t.pending = s.pending ∧ t.replies = s.replies ∧
      (t.inRd = s.inRd ∨ (t.inRd = v.toNat ∧ v.toNat ≤ s.inBuf.length)) := by
  by_cases h : v.toNat ≤ s.inBuf.length <;> cases r <;> simp [writeReg, inLen_eq, h]

/-! ### Memory operations keep `Memory.wf` -/

theorem memory_wf_iff (s : State) :
    Memory.wf s = true ↔
      s.build.inCap.allows s.inBuf.length = true ∧ s.build.outCap.allows s.outBuf.length = true ∧
        s.build.tokCap.allows s.tok.length = true ∧ (∀ t ∈ s.tok, Token.wf s.build t = true) ∧
        s.inRd ≤ s.inBuf.length := by
  simp [Memory.wf, and_assoc]

theorem allows_zero (cap : Limit) : cap.allows 0 = true := by
  cases cap <;> simp [Limit.allows]

theorem reset_memory_wf : Memory.wf State.reset = true := by decide

theorem resetOf_memory_wf (c : Config) : Memory.wf (State.resetOf c) = true := by
  simp [memory_wf_iff, State.resetOf, allows_zero]

theorem loadIn_memory_wf {b : Bits} {s : State} (h : Memory.wf s = true)
    (hb : s.build.inCap.allows b.length = true) : Memory.wf (loadIn b s) = true := by
  simp_all [memory_wf_iff]

theorem loadTok_memory_wf {toks : List Token} {s : State} (h : Memory.wf s = true)
    (hn : s.build.tokCap.allows toks.length = true) (ht : ∀ t ∈ toks, Token.wf s.build t = true) :
    Memory.wf (loadTok toks s) = true := by
  simp_all [memory_wf_iff]

theorem setTok_memory_wf {toks : List Token} {s : State} (h : Memory.wf s = true)
    (hn : s.build.tokCap.allows toks.length = true) (ht : ∀ t ∈ toks, Token.wf s.build t = true) :
    Memory.wf (setTok toks s) = true := by
  simp_all [memory_wf_iff]

theorem clearOut_memory_wf {s : State} (h : Memory.wf s = true) : Memory.wf (clearOut s) = true := by
  simp_all [memory_wf_iff, allows_zero]

theorem consumeIn_memory_wf {s : State} (h : Memory.wf s = true) : Memory.wf (consumeIn s) = true := by
  simp_all [memory_wf_iff]

theorem appendOut_memory_wf {b : Bits} {s t : State} (h : Memory.wf s = true) (ht : appendOut b s = .ok t) :
    Memory.wf t = true := by
  obtain ⟨hc, rfl⟩ := (appendOut_ok_iff b s t).1 ht
  simp_all [memory_wf_iff]

theorem putOut_memory_wf {b : Bits} {s t : State} (h : Memory.wf s = true) (ht : putOut b s = .ok t) :
    Memory.wf t = true := by
  obtain ⟨hc, rfl⟩ := (putOut_ok_iff b s t).1 ht
  simp_all [memory_wf_iff]

theorem raiseError_memory_wf {d : Dest} {e : ErrorKind} {s : State} (h : Memory.wf s = true) :
    Memory.wf (raiseError d e s) = true := by
  obtain ⟨h1, h2, h3, h4, h5⟩ := (memory_wf_iff s).1 h
  refine (memory_wf_iff _).2 ⟨h1, ?_, ?_, ?_, h5⟩
  · simp only [raiseError_build, raiseError_outBuf]; split <;> simp [allows_zero, h2]
  · simp only [raiseError_build, raiseError_tok]; split <;> simp [allows_zero, h3]
  · simp only [raiseError_build, raiseError_tok]; split <;> simp_all

theorem completeCommand_memory_wf {s : State} (h : Memory.wf s = true) : Memory.wf (completeCommand s) = true := h

theorem reply_memory_wf {r : Reply} {s : State} (h : Memory.wf s = true) : Memory.wf (reply r s) = true := h

theorem applyReset_memory_wf (s : State) : Memory.wf (applyReset s) = true := resetOf_memory_wf s.build

theorem writeReg_memory_wf {r : Reg} {v : Int} {s : State} (h : Memory.wf s = true) :
    Memory.wf (writeReg r v s) = true := by
  obtain ⟨hb, -, -, hi, ho, ht, -, -, hr⟩ := writeReg_frame r v s
  rw [memory_wf_iff] at *
  rw [hb, hi, ho, ht]
  rcases hr with hr | ⟨hr, hv⟩ <;> rw [hr] <;> simp_all

end Sys2Proof.Machine
end

