-- ==== Sys2Proof/Laws/NumberCodec.lean ====
section
/-! SUPPORT. What the number decoder can answer, said once (spec/40_numbercodec.md R101). -/

namespace Sys2Proof.Machine

/-- The length of a code (R79, R80). -/
theorem numCode_length (S n : Nat) :
    (numCode S n).length = if n < 2 ^ S then 1 + S else 2 * bitlen (bitlen n) + bitlen n := by
  unfold numCode
  split
  · simp; omega
  · simp; omega

/-- No code is empty. -/
theorem numCode_length_pos (S n : Nat) : 1 ≤ (numCode S n).length := by
  rw [numCode_length]
  split
  · omega
  · next h =>
    have : 1 ≤ n := le_trans Nat.one_le_two_pow (not_lt.1 h)
    have := bitlen_pos this
    omega

/-- A decoded code takes at least one bit, no more than there are, and its number fits the build. -/
theorem numDecodeFront_ok {numBits : Limit} {S : Nat} {u : Bits} {n used : Nat}
    (h : numDecodeFront numBits S u = .ok (n, used)) : 1 ≤ used ∧ used ≤ u.length ∧ numBits.fits n = true := by
  cases u with
  | nil => simp [numDecodeFront] at h
  | cons x rest =>
    cases x with
    | true =>
      simp only [numDecodeFront] at h
      split at h
      · cases h
      · split at h
        · next hl hf => cases h; exact ⟨by omega, by simp; omega, hf⟩
        · cases h
    | false =>
      simp only [numDecodeFront] at h
      split at h
      · cases h
      · split at h
        · cases h
        · split at h
          · cases h
          · split at h
            · next h1 h2 h3 hk =>
              cases h
              refine ⟨?_, by omega, fits_of_allows hk ?_⟩
              · simp [leadingZeros]; omega
              · refine lt_of_lt_of_le (uint_lt _) (Nat.pow_le_pow_right (by decide) ?_)
                rw [slice_length]
                omega
            · cases h

/-- The decoder raises only `MalformedStream` and `CapacityExceeded`. -/
theorem numDecodeFront_error {numBits : Limit} {S : Nat} {u : Bits} {e : ErrorKind}
    (h : numDecodeFront numBits S u = .error e) : e = .malformedStream ∨ e = .capacityExceeded := by
  cases u with
  | nil => simp [numDecodeFront] at h; simp [← h]
  | cons x rest =>
    cases x with
    | true =>
      simp only [numDecodeFront] at h
      split at h
      · cases h; simp
      · split at h <;> cases h; simp
    | false =>
      simp only [numDecodeFront] at h
      split at h
      · cases h; simp
      · split at h
        · cases h; simp
        · split at h
          · cases h; simp
          · split at h <;> cases h; simp

theorem numDecode_ok_iff {numBits : Limit} {S : Nat} {b : Bits} {pos n p : Nat} :
    numDecode numBits S b pos = .ok (n, p) ↔
      ∃ used, numDecodeFront numBits S (b.drop pos) = .ok (n, used) ∧ p = pos + used := by
  unfold numDecode
  cases h : numDecodeFront numBits S (b.drop pos) with
  | error e => simp
  | ok r =>
    obtain ⟨m, used⟩ := r
    simp only [Except.ok.injEq, Prod.mk.injEq]
    constructor
    · rintro ⟨rfl, rfl⟩; exact ⟨used, ⟨rfl, rfl⟩, rfl⟩
    · rintro ⟨u, ⟨rfl, rfl⟩, rfl⟩; exact ⟨rfl, rfl⟩

theorem numDecode_error {numBits : Limit} {S : Nat} {b : Bits} {pos : Nat} {e : ErrorKind}
    (h : numDecode numBits S b pos = .error e) : e = .malformedStream ∨ e = .capacityExceeded := by
  unfold numDecode at h
  split at h
  · cases h
  · next hf => cases h; exact numDecodeFront_error hf

/-- The cursor after a code lies after it and inside the buffer; the number fits the build. -/
theorem numDecode_ok {numBits : Limit} {S : Nat} {b : Bits} {pos n p : Nat}
    (h : numDecode numBits S b pos = .ok (n, p)) : pos < p ∧ p ≤ b.length ∧ numBits.fits n = true := by
  obtain ⟨used, hu, rfl⟩ := numDecode_ok_iff.1 h
  obtain ⟨h1, h2, h3⟩ := numDecodeFront_ok hu
  simp only [List.length_drop] at h2
  exact ⟨by omega, by omega, h3⟩

end Sys2Proof.Machine
end

