-- ==== Sys2Proof/Laws/LzMatcher.lean ====
section
/-! SUPPORT. What each function of the LZMatcher can answer, said once (spec/41_lzmatcher.md R124 to R137). -/

namespace Sys2Proof.Machine

/-! ### The match search -/

theorem commonPrefix_le (cap : Nat) (a b : List Symbol) : commonPrefix cap a b ≤ cap := by
  induction cap generalizing a b with
  | zero => simp [commonPrefix]
  | succ cap ih =>
    cases a with
    | nil => simp [commonPrefix]
    | cons x a =>
      cases b with
      | nil => simp [commonPrefix]
      | cons y b =>
        simp only [commonPrefix]
        split
        · have := ih a b; omega
        · omega

/-- The counted symbols are equal (R124). -/
theorem commonPrefix_take (cap : Nat) (a b : List Symbol) :
    a.take (commonPrefix cap a b) = b.take (commonPrefix cap a b) := by
  induction cap generalizing a b with
  | zero => simp [commonPrefix]
  | succ cap ih =>
    cases a with
    | nil => simp [commonPrefix]
    | cons x a =>
      cases b with
      | nil => simp [commonPrefix]
      | cons y b =>
        simp only [commonPrefix]
        split
        · next h => rw [h, List.take_succ_cons, List.take_succ_cons, ih a b]
        · simp

/-- A run stays under `L` and off the last symbol (R124). -/
theorem runLength_le (sym : List Symbol) (L j i : Nat) : runLength sym L j i ≤ min L (sym.length - 1 - i) :=
  commonPrefix_le _ _ _

theorem mem_lzCandidates {sym : List Symbol} {W K i j : Nat} {index : HashIndex}
    (h : j ∈ lzCandidates sym W K index i) : i ≤ j + W ∧ j < i := by
  unfold lzCandidates at h
  split at h
  · simp only [List.mem_filter, Bool.and_eq_true, decide_eq_true_eq] at h
    exact h.2
  · simp at h

/-- What the best of a candidate list can be: nothing, or an offset and a length inside their bounds (R125, R132 (c)). -/
theorem foldl_lzBetter_bounds (sym : List Symbol) (W L i : Nat) (js : List Nat) (best : Nat × Nat)
    (hj : ∀ j ∈ js, i ≤ j + W ∧ j < i)
    (hb : best = (0, 0) ∨
      (1 ≤ best.1 ∧ best.1 ≤ min W i ∧ 1 ≤ best.2 ∧ best.2 ≤ min L (sym.length - 1 - i))) :
    let r := js.foldl (lzBetter sym L i) best
    r = (0, 0) ∨ (1 ≤ r.1 ∧ r.1 ≤ min W i ∧ 1 ≤ r.2 ∧ r.2 ≤ min L (sym.length - 1 - i)) := by
  induction js generalizing best with
  | nil => exact hb
  | cons j js ih =>
    refine ih _ (fun k hk => hj k (List.mem_cons_of_mem _ hk)) ?_
    obtain ⟨h1, h2⟩ := hj j List.mem_cons_self
    unfold lzBetter
    split
    · next hlt =>
      have := runLength_le sym L j i
      right
      simp only
      omega
    · exact hb

theorem lzBest_bounds (sym : List Symbol) (W L K : Nat) (index : HashIndex) (i : Nat) :
    let r := lzBest sym W L K index i
    r = (0, 0) ∨ (1 ≤ r.1 ∧ r.1 ≤ min W i ∧ 1 ≤ r.2 ∧ r.2 ≤ min L (sym.length - 1 - i)) :=
  foldl_lzBetter_bounds sym W L i _ (0, 0) (fun _ hj => mem_lzCandidates hj) (Or.inl rfl)

/-- Every token of a search has offset and length below the input's length and a literal of the input (R127, R132). -/
theorem mem_lzMatchLoop {sym : List Symbol} {W L K fuel i : Nat} {index : HashIndex} {t : Token}
    (h : t ∈ lzMatchLoop sym W L K fuel index i) :
    t.offset ≤ sym.length ∧ t.length ≤ sym.length ∧ t.literal ∈ sym := by
  induction fuel generalizing index i with
  | zero => simp [lzMatchLoop] at h
  | succ fuel ih =>
    unfold lzMatchLoop at h
    split at h
    · next hi =>
      rcases List.mem_cons.1 h with rfl | h
      · have hb := lzBest_bounds sym W L K index i
        simp only at hb ⊢
        have hlen : i + (lzBest sym W L K index i).2 < sym.length := by
          rcases hb with hb | hb
          · rw [hb]; simpa using hi
          · omega
        refine ⟨?_, by omega, ?_⟩
        · rcases hb with hb | hb
          · rw [hb]; simp
          · omega
        · rw [List.getD_eq_getElem _ _ hlen]
          exact List.getElem_mem hlen
      · exact ih h
    · simp at h

theorem mem_lzMatch {sym : List Symbol} {W L K : Nat} {t : Token} (h : t ∈ lzMatch sym W L K) :
    t.offset ≤ sym.length ∧ t.length ≤ sym.length ∧ t.literal ∈ sym :=
  mem_lzMatchLoop h

/-! ### Reconstruction -/

@[simp] theorem lzCopy_length (n start : Nat) (out : List Symbol) : (lzCopy n start out).length = out.length + n := by
  induction n generalizing start out with
  | zero => rfl
  | succ n ih => rw [lzCopy, ih]; simp; omega

/-- The copy only appends (R134). -/
theorem lzCopy_prefix (n start : Nat) (out : List Symbol) : out <+: lzCopy n start out := by
  induction n generalizing start out with
  | zero => exact List.prefix_refl _
  | succ n ih => exact (List.prefix_append _ _).trans (ih _ _)

theorem lzApply_ok_iff (out out' : List Symbol) (t : Token) :
    lzApply out t = .ok out' ↔
      t.offset ≤ out.length ∧ (t.length = 0 ∨ 0 < t.offset) ∧
        out' = lzCopy t.length (out.length - t.offset) out ++ [t.literal] := by
  unfold lzApply
  split
  · simp; omega
  · split
    · simp; omega
    · simp only [Except.ok.injEq]
      constructor
      · rintro rfl; exact ⟨by omega, by omega, rfl⟩
      · rintro ⟨-, -, rfl⟩; rfl

/-- Reconstruction raises only `MalformedStream` (R133, R135). -/
theorem lzReconstructFrom_error {out : List Symbol} {toks : List Token} {e : ErrorKind}
    (h : lzReconstructFrom out toks = .error e) : e = .malformedStream := by
  induction toks generalizing out with
  | nil => simp [lzReconstructFrom] at h
  | cons t toks ih =>
    unfold lzReconstructFrom at h
    split at h
    · exact ih h
    · next e' ha =>
      cases h
      unfold lzApply at ha
      split at ha
      · cases ha; rfl
      · split at ha <;> cases ha; rfl

theorem lzReconstruct_error {toks : List Token} {e : ErrorKind} (h : lzReconstruct toks = .error e) :
    e = .malformedStream :=
  lzReconstructFrom_error h

/-- Token lists are executed one after another (R133). -/
theorem lzReconstructFrom_append (out : List Symbol) (a b : List Token) :
    lzReconstructFrom out (a ++ b) =
      match lzReconstructFrom out a with
      | .ok out' => lzReconstructFrom out' b
      | .error e => .error e := by
  induction a generalizing out with
  | nil => rfl
  | cons t a ih =>
    simp only [List.cons_append, lzReconstructFrom]
    cases lzApply out t with
    | ok out' => exact ih out'
    | error e => rfl

/-! ### The token stream -/

/-- Serializing tokens whose literals fit (R136). -/
theorem lzSerialize_fits {S B : Nat} {toks : List Token} (h : ∀ t ∈ toks, t.literal < 2 ^ B) :
    lzSerialize S B toks = .ok (toks.flatMap (tokenBits S B)) := by
  induction toks with
  | nil => rfl
  | cons t toks ih =>
    rw [lzSerialize, if_neg (not_le.2 (h t List.mem_cons_self)), ih fun u hu => h u (List.mem_cons_of_mem _ hu)]
    rfl

/-- Serialization raises only `InvalidInput`, and does so when a literal does not fit (R136). -/
theorem lzSerialize_wide {S B : Nat} {toks : List Token} (h : ∃ t ∈ toks, 2 ^ B ≤ t.literal) :
    lzSerialize S B toks = .error .invalidInput := by
  induction toks with
  | nil => simp at h
  | cons t toks ih =>
    by_cases ht : 2 ^ B ≤ t.literal
    · rw [lzSerialize, if_pos ht]
    · obtain ⟨u, hu, hw⟩ := h
      rcases List.mem_cons.1 hu with rfl | hu
      · exact absurd hw ht
      · rw [lzSerialize, if_neg ht, ih ⟨u, hu, hw⟩]

/-- A token read from a stream fits the build and the width, and the cursor moves on inside the buffer (R137). -/
theorem lzDeserToken_ok {numBits : Limit} {S B pos p : Nat} {b : Bits} {t : Token}
    (h : lzDeserToken numBits S B b pos = .ok (t, p)) :
    pos < p ∧ p ≤ b.length ∧ numBits.fits t.offset = true ∧ numBits.fits t.length = true ∧ t.literal < 2 ^ B := by
  unfold lzDeserToken at h
  split at h
  · cases h
  · next o p1 h1 =>
    split at h
    · cases h
    · next l p2 h2 =>
      split at h
      · cases h
      · next hl =>
        cases h
        obtain ⟨a1, a2, a3⟩ := numDecode_ok h1
        obtain ⟨b1, b2, b3⟩ := numDecode_ok h2
        refine ⟨by omega, by omega, a3, b3, ?_⟩
        refine lt_of_lt_of_le (uint_lt _) (Nat.pow_le_pow_right (by decide) ?_)
        rw [slice_length]
        omega

/-- Every token of a deserialized list fits the build and the width (R137). -/
theorem lzDeserLoop_ok {numBits : Limit} {S B fuel pos : Nat} {b : Bits} {toks : List Token}
    (h : lzDeserLoop numBits S B b fuel pos = .ok toks) :
    ∀ t ∈ toks, numBits.fits t.offset = true ∧ numBits.fits t.length = true ∧ t.literal < 2 ^ B := by
  induction fuel generalizing pos toks with
  | zero =>
    unfold lzDeserLoop at h
    split at h <;> cases h
    simp
  | succ fuel ih =>
    unfold lzDeserLoop at h
    split at h
    · split at h
      · cases h
      · next t p ht =>
        split at h
        · cases h
        · next rest hr =>
          cases h
          intro u hu
          rcases List.mem_cons.1 hu with rfl | hu
          · exact (lzDeserToken_ok ht).2.2
          · exact ih hr u hu
    · cases h; simp

/-- Reading a token raises only what the number code raises, or `MalformedStream` for a cut literal (R137). -/
theorem lzDeserToken_error {numBits : Limit} {S B pos : Nat} {b : Bits} {e : ErrorKind}
    (h : lzDeserToken numBits S B b pos = .error e) : e = .malformedStream ∨ e = .capacityExceeded := by
  unfold lzDeserToken at h
  split at h
  · next h1 => cases h; exact numDecode_error h1
  · split at h
    · next h2 => cases h; exact numDecode_error h2
    · split at h <;> cases h; exact Or.inl rfl

/-- Deserializing raises only `MalformedStream` and `CapacityExceeded` (R137, R203). -/
theorem lzDeserLoop_error {numBits : Limit} {S B fuel pos : Nat} {b : Bits} {e : ErrorKind}
    (h : lzDeserLoop numBits S B b fuel pos = .error e) : e = .malformedStream ∨ e = .capacityExceeded := by
  induction fuel generalizing pos with
  | zero =>
    unfold lzDeserLoop at h
    split at h <;> cases h; exact Or.inl rfl
  | succ fuel ih =>
    unfold lzDeserLoop at h
    split at h
    · split at h
      · next h1 => cases h; exact lzDeserToken_error h1
      · split at h
        · next h2 => cases h; exact ih h2
        · cases h
    · cases h

end Sys2Proof.Machine
end

