-- ==== Sys2Proof/Laws/Operands.lean ====
section
/-! SUPPORT. What each family's operand sourcing and result writing can do, said once (spec/30_encoding.md R78;
spec/41_lzmatcher.md R138 to R143; spec/42_huffman.md R174 to R176). -/

namespace Sys2Proof.Machine

theorem lzWidthLegal_iff (B : Nat) : lzWidthLegal B = true ↔ B = 1 ∨ B = 8 := by
  simp [lzWidthLegal]

theorem lzMatchOperand_ok_iff (s : State) (sym : List Symbol) :
    lzMatchOperand s = .ok sym ↔
      (s.lzB = 1 ∨ s.lzB = 8) ∧ 1 ≤ s.lzL ∧ 1 ≤ s.lzK ∧ s.unread.length % s.lzB = 0 ∧
        sym = syms s.lzB s.unread := by
  unfold lzMatchOperand
  rw [← lzWidthLegal_iff]
  split
  · simp_all
  · split
    · simp; omega
    · split
      · simp_all
      · next h1 h2 h3 =>
        simp only [Except.ok.injEq]
        constructor
        · rintro rfl; exact ⟨by simpa using h1, by omega, by omega, by simpa using h3, rfl⟩
        · rintro ⟨-, -, -, -, rfl⟩; rfl

/-- The operand checks of the match search raise only `InvalidInput` (R201). -/
theorem lzMatchOperand_error {s : State} {e : ErrorKind} (h : lzMatchOperand s = .error e) : e = .invalidInput := by
  unfold lzMatchOperand at h
  split at h
  · cases h; rfl
  · split at h
    · cases h; rfl
    · split at h <;> cases h; rfl

theorem lzMatchTokens_ok_iff (s : State) (toks : List Token) :
    lzMatchTokens s = .ok toks ↔
      (s.lzB = 1 ∨ s.lzB = 8) ∧ 1 ≤ s.lzL ∧ 1 ≤ s.lzK ∧ s.unread.length % s.lzB = 0 ∧
        toks = lzMatch (syms s.lzB s.unread) s.lzW s.lzL s.lzK ∧ s.build.tokCap.allows toks.length = true := by
  unfold lzMatchTokens
  cases h : lzMatchOperand s with
  | error e =>
    simp only [reduceCtorEq, false_iff]
    rintro ⟨h1, h2, h3, h4, -⟩
    have := (lzMatchOperand_ok_iff s _).2 ⟨h1, h2, h3, h4, rfl⟩
    simp [h] at this
  | ok sym =>
    obtain ⟨h1, h2, h3, h4, rfl⟩ := (lzMatchOperand_ok_iff s sym).1 h
    simp only [fitTok_ok_iff]
    constructor
    · rintro ⟨h5, rfl⟩; exact ⟨h1, h2, h3, h4, rfl, h5⟩
    · rintro ⟨-, -, -, -, rfl, h5⟩; exact ⟨h5, rfl⟩

theorem lzDeserTokens_ok_iff (s : State) (toks : List Token) :
    lzDeserTokens s = .ok toks ↔
      (s.lzB = 1 ∨ s.lzB = 8) ∧ lzDeserialize s.build.numBits s.numS s.lzB s.unread = .ok toks ∧
        s.build.tokCap.allows toks.length = true := by
  unfold lzDeserTokens
  rw [← lzWidthLegal_iff]
  split
  · simp_all
  · next h1 =>
    cases lzDeserialize s.build.numBits s.numS s.lzB s.unread with
    | error e => simp
    | ok toks' =>
      simp only [fitTok_ok_iff, Except.ok.injEq]
      constructor
      · rintro ⟨h2, rfl⟩; exact ⟨by simpa using h1, rfl, h2⟩
      · rintro ⟨-, rfl, h2⟩; exact ⟨h2, rfl⟩

theorem lzReconOut_ok_iff (toks : List Token) (s t : State) :
    lzReconOut toks s = .ok t ↔
      ∃ out, lzReconstruct toks = .ok out ∧ s.build.outCap.allows (s.lzB * out.length) = true ∧
        t = { s with outBuf := symBits s.lzB out } := by
  unfold lzReconOut
  cases lzReconstruct toks with
  | error e => simp
  | ok out => simp [putOut_ok_iff]

theorem lzSerOut_ok_iff (toks : List Token) (s t : State) :
    lzSerOut toks s = .ok t ↔
      ∃ b, lzSerialize s.numS s.lzB toks = .ok b ∧ s.build.outCap.allows b.length = true ∧
        t = { s with outBuf := b } := by
  unfold lzSerOut
  cases lzSerialize s.numS s.lzB toks with
  | error e => simp
  | ok b => simp [putOut_ok_iff]

theorem hufResult_ok_iff (r : Except ErrorKind Bits) (s t : State) :
    hufResult r s = .ok t ↔
      ∃ b, r = .ok b ∧ s.build.outCap.allows b.length = true ∧ t = { s with outBuf := b, inRd := s.inBuf.length } := by
  cases r with
  | error e => simp [hufResult]
  | ok b =>
    simp only [hufResult, Except.ok.injEq, exists_eq_left']
    cases h : s.build.outCap.allows b.length with
    | true =>
      rw [(putOut_ok_iff b s _).2 ⟨h, rfl⟩]
      simp only [Except.ok.injEq, true_and]
      exact ⟨fun e => e.symm, fun e => e.symm⟩
    | false => rw [(putOut_error_iff b s _).2 ⟨h, rfl⟩]; simp

theorem hufResult_error_iff (r : Except ErrorKind Bits) (s : State) (e : ErrorKind) :
    hufResult r s = .error e ↔
      r = .error e ∨ ∃ b, r = .ok b ∧ s.build.outCap.allows b.length = false ∧ e = .capacityExceeded := by
  cases r with
  | error e' => simp [hufResult]
  | ok b =>
    simp only [hufResult, reduceCtorEq, false_or, Except.ok.injEq, exists_eq_left']
    cases h : s.build.outCap.allows b.length with
    | true => rw [(putOut_ok_iff b s _).2 ⟨h, rfl⟩]; simp
    | false => rw [(putOut_error_iff b s _).2 ⟨h, rfl⟩]; simp [eq_comm]

end Sys2Proof.Machine
end

