-- ==== Sys2Proof/Laws/Exec.lean ====
section
/-! SUPPORT. What `exec` and `step` can do, said once: every later proof about a command cites these and unfolds no command
(spec/43_system.md R194; spec/60_exceptions.md R208). -/

namespace Sys2Proof.Machine

/-- The whole-buffer destinations of each command (R27, R28). -/
def destOf (i : Instr) : Dest :=
  match i with
  | .numEnc | .numDec => { out := false, tok := false }
  | .lzMatch | .lzDeser => { out := false, tok := true }
  | .lzRecon | .lzSer | .hufEnc | .hufDec | .clrOut | .hufTree => { out := true, tok := false }
  | .lzEnc | .lzDec => { out := true, tok := true }

/-- The state each command's pseudocode ends in, or the error it raises. -/
def resultOf (i : Instr) (s : State) : Except ErrorKind State :=
  match i with
  | .numEnc => numEncResult s
  | .numDec => numDecResult s
  | .lzMatch => lzMatchResult s
  | .lzRecon => lzReconResult s
  | .lzSer => lzSerResult s
  | .lzDeser => lzDeserResult s
  | .lzEnc => lzEncResult s
  | .lzDec => lzDecResult s
  | .hufEnc => hufResult (hufEncode s.unread s.hufSB) s
  | .hufDec => hufResult (hufDecode s.unread) s
  | .clrOut => .ok (clearOut s)
  | .hufTree => hufResult (hufTreeOnly s.unread s.hufSB) s

theorem exec_eq (i : Instr) (s : State) : exec i s = endCommand (destOf i) s (resultOf i s) := by
  cases i <;> rfl

/-- A command leaves the completed state of its pseudocode or the state after the error it raised, and nothing else. -/
theorem exec_next_iff (i : Instr) (s t : State) :
    exec i s = .next t ↔
      (∃ s', resultOf i s = .ok s' ∧ t = completeCommand s') ∨
        (∃ e, resultOf i s = .error e ∧ t = raiseError (destOf i) e s) := by
  rw [exec_eq, endCommand_next_iff]

theorem exec_of_ok {i : Instr} {s s' : State} (h : resultOf i s = .ok s') :
    exec i s = .next (completeCommand s') := by
  rw [exec_eq, h]; rfl

theorem exec_of_error {i : Instr} {s : State} {e : ErrorKind} (h : resultOf i s = .error e) :
    exec i s = .next (raiseError (destOf i) e s) := by
  rw [exec_eq, h]; rfl

/-- Every command answers a next state. -/
theorem exec_answers (i : Instr) (s : State) : ∃ t, exec i s = .next t := by
  rw [exec_eq]; exact endCommand_answers _ _ _

/-! ### What each command's pseudocode ends in -/

theorem numEncResult_ok_iff (s t : State) :
    numEncResult s = .ok t ↔
      0 ≤ s.numN ∧ s.build.outCap.allows (s.outBuf.length + (numCode s.numS s.numN.toNat).length) = true ∧
        t = { s with outBuf := s.outBuf ++ numCode s.numS s.numN.toNat } := by
  unfold numEncResult numEncode
  split
  · next e he =>
    split at he <;> cases he
    simp; omega
  · next c hc =>
    split at hc <;> cases hc
    rw [appendOut_ok_iff]
    constructor
    · intro h; exact ⟨by omega, h⟩
    · intro h; exact h.2

theorem numDecResult_ok_iff (s t : State) :
    numDecResult s = .ok t ↔
      ∃ n p, numDecode s.build.numBits s.numS s.inBuf s.inRd = .ok (n, p) ∧ t = { s with numR := n, inRd := p } := by
  unfold numDecResult
  cases numDecode s.build.numBits s.numS s.inBuf s.inRd with
  | error e => simp
  | ok r =>
    obtain ⟨n, p⟩ := r
    simp only [Except.ok.injEq, Prod.mk.injEq]
    constructor
    · rintro rfl; exact ⟨n, p, ⟨rfl, rfl⟩, rfl⟩
    · rintro ⟨_, _, ⟨rfl, rfl⟩, rfl⟩; rfl

theorem lzMatchResult_ok_iff (s t : State) :
    lzMatchResult s = .ok t ↔
      ∃ toks, lzMatchTokens s = .ok toks ∧ t = { s with tok := toks, inRd := s.inBuf.length } := by
  unfold lzMatchResult
  cases lzMatchTokens s with
  | error e => simp
  | ok toks => simp only [Except.ok.injEq, exists_eq_left']; exact ⟨fun h => h.symm, fun h => h.symm⟩

theorem lzDeserResult_ok_iff (s t : State) :
    lzDeserResult s = .ok t ↔
      ∃ toks, lzDeserTokens s = .ok toks ∧ t = { s with tok := toks, inRd := s.inBuf.length } := by
  unfold lzDeserResult
  cases lzDeserTokens s with
  | error e => simp
  | ok toks => simp only [Except.ok.injEq, exists_eq_left']; exact ⟨fun h => h.symm, fun h => h.symm⟩

theorem lzReconResult_ok_iff (s t : State) :
    lzReconResult s = .ok t ↔
      (s.lzB = 1 ∨ s.lzB = 8) ∧ (∀ u ∈ s.tok, u.literal < 2 ^ s.lzB) ∧ lzReconOut s.tok s = .ok t := by
  unfold lzReconResult
  rw [← lzWidthLegal_iff]
  split
  · simp_all
  · split
    · next h =>
      simp only [List.any_eq_true, decide_eq_true_eq] at h
      obtain ⟨u, hu, hw⟩ := h
      simp only [reduceCtorEq, false_iff]
      rintro ⟨-, hall, -⟩
      exact absurd (hall u hu) (not_lt.2 hw)
    · next hB h =>
      constructor
      · intro ht
        refine ⟨by simpa using hB, fun u hu => ?_, ht⟩
        by_contra hlt
        exact h (List.any_eq_true.2 ⟨u, hu, decide_eq_true (not_lt.1 hlt)⟩)
      · exact fun h => h.2.2

theorem lzSerResult_ok_iff (s t : State) :
    lzSerResult s = .ok t ↔ (s.lzB = 1 ∨ s.lzB = 8) ∧ lzSerOut s.tok s = .ok t := by
  unfold lzSerResult
  rw [← lzWidthLegal_iff]
  split <;> simp_all

theorem lzEncResult_ok_iff (s t : State) :
    lzEncResult s = .ok t ↔
      ∃ toks s', lzMatchTokens s = .ok toks ∧ lzSerOut toks s = .ok s' ∧ t = consumeIn (setTok toks s') := by
  unfold lzEncResult
  cases lzMatchTokens s with
  | error e => simp
  | ok toks =>
    simp only [Except.ok.injEq]
    cases hs : lzSerOut toks s with
    | error e =>
      simp only [reduceCtorEq, false_iff]
      rintro ⟨_, _, rfl, h, -⟩
      rw [hs] at h; cases h
    | ok s' =>
      simp only [Except.ok.injEq]
      constructor
      · rintro rfl; exact ⟨toks, s', rfl, hs, rfl⟩
      · rintro ⟨_, s'', rfl, h, rfl⟩
        rw [hs] at h; cases h; rfl

theorem lzDecResult_ok_iff (s t : State) :
    lzDecResult s = .ok t ↔
      ∃ toks s', lzDeserTokens s = .ok toks ∧ lzReconOut toks s = .ok s' ∧ t = consumeIn (setTok toks s') := by
  unfold lzDecResult
  cases lzDeserTokens s with
  | error e => simp
  | ok toks =>
    simp only [Except.ok.injEq]
    cases hs : lzReconOut toks s with
    | error e =>
      simp only [reduceCtorEq, false_iff]
      rintro ⟨_, _, rfl, h, -⟩
      rw [hs] at h; cases h
    | ok s' =>
      simp only [Except.ok.injEq]
      constructor
      · rintro rfl; exact ⟨toks, s', rfl, hs, rfl⟩
      · rintro ⟨_, s'', rfl, h, rfl⟩
        rw [hs] at h; cases h; rfl

/-- Where a command's result may differ from the state it started in: `NUM_R`, `IN_RD`, OUT and TOK (R29, R78). -/
theorem resultOf_ok_form {i : Instr} {s s' : State} (h : resultOf i s = .ok s') :
    ∃ numR inRd outBuf tok, s' = { s with numR := numR, inRd := inRd, outBuf := outBuf, tok := tok } := by
  cases i with
  | numEnc => obtain ⟨-, -, rfl⟩ := (numEncResult_ok_iff s s').1 h; exact ⟨_, _, _, _, rfl⟩
  | numDec => obtain ⟨n, p, -, rfl⟩ := (numDecResult_ok_iff s s').1 h; exact ⟨_, _, _, _, rfl⟩
  | lzMatch => obtain ⟨toks, -, rfl⟩ := (lzMatchResult_ok_iff s s').1 h; exact ⟨_, _, _, _, rfl⟩
  | lzDeser => obtain ⟨toks, -, rfl⟩ := (lzDeserResult_ok_iff s s').1 h; exact ⟨_, _, _, _, rfl⟩
  | lzRecon =>
    obtain ⟨-, -, h⟩ := (lzReconResult_ok_iff s s').1 h
    obtain ⟨out, -, -, rfl⟩ := (lzReconOut_ok_iff _ s s').1 h; exact ⟨_, _, _, _, rfl⟩
  | lzSer =>
    obtain ⟨-, h⟩ := (lzSerResult_ok_iff s s').1 h
    obtain ⟨b, -, -, rfl⟩ := (lzSerOut_ok_iff _ s s').1 h; exact ⟨_, _, _, _, rfl⟩
  | lzEnc =>
    obtain ⟨toks, t, -, h1, rfl⟩ := (lzEncResult_ok_iff s s').1 h
    obtain ⟨b, -, -, rfl⟩ := (lzSerOut_ok_iff _ s t).1 h1; exact ⟨_, _, _, _, rfl⟩
  | lzDec =>
    obtain ⟨toks, t, -, h1, rfl⟩ := (lzDecResult_ok_iff s s').1 h
    obtain ⟨out, -, -, rfl⟩ := (lzReconOut_ok_iff _ s t).1 h1; exact ⟨_, _, _, _, rfl⟩
  | hufEnc => obtain ⟨b, -, -, rfl⟩ := (hufResult_ok_iff _ s s').1 h; exact ⟨_, _, _, _, rfl⟩
  | hufDec => obtain ⟨b, -, -, rfl⟩ := (hufResult_ok_iff _ s s').1 h; exact ⟨_, _, _, _, rfl⟩
  | hufTree => obtain ⟨b, -, -, rfl⟩ := (hufResult_ok_iff _ s s').1 h; exact ⟨_, _, _, _, rfl⟩
  | clrOut => cases h; exact ⟨_, _, _, _, rfl⟩

/-! ### The step -/

theorem step_nil {s : State} (h : s.pending = []) : step s = .next s := by
  simp [step, nextEvent, h]

theorem step_cons {s : State} {a : HostAction} {rest : List HostAction} (h : s.pending = a :: rest) :
    step s = hostStep a { s with pending := rest } := by
  simp [step, nextEvent, h]

end Sys2Proof.Machine
end

