-- ==== Sys2Proof/Laws/PerInstr.lean ====
section
/-! SUPPORT. The per-command family `Encoding`: a command's word is legal, decodes to it and to no other
(spec/30_encoding.md R75 to R77). -/

namespace Sys2Proof.Laws.Encoding

/-- The word of `i` has a zero ZERO field, an OP between 0x1 and 0xC, and decodes to `i`, also as a 32-bit row of the
table. -/
def Statement (i : Instr) : Prop :=
  encode i / 16 = 0 ∧ 0x1 ≤ encode i ∧ encode i ≤ 0xC ∧ decodeWord (encode i) = .ok i ∧
    decodeTableWord 32 (encode i) = some i

theorem numEnc : Statement .numEnc := ⟨rfl, by decide, by decide, rfl, rfl⟩
theorem numDec : Statement .numDec := ⟨rfl, by decide, by decide, rfl, rfl⟩
theorem lzMatch : Statement .lzMatch := ⟨rfl, by decide, by decide, rfl, rfl⟩
theorem lzRecon : Statement .lzRecon := ⟨rfl, by decide, by decide, rfl, rfl⟩
theorem lzSer : Statement .lzSer := ⟨rfl, by decide, by decide, rfl, rfl⟩
theorem lzDeser : Statement .lzDeser := ⟨rfl, by decide, by decide, rfl, rfl⟩
theorem lzEnc : Statement .lzEnc := ⟨rfl, by decide, by decide, rfl, rfl⟩
theorem lzDec : Statement .lzDec := ⟨rfl, by decide, by decide, rfl, rfl⟩
theorem hufEnc : Statement .hufEnc := ⟨rfl, by decide, by decide, rfl, rfl⟩
theorem hufDec : Statement .hufDec := ⟨rfl, by decide, by decide, rfl, rfl⟩
theorem clrOut : Statement .clrOut := ⟨rfl, by decide, by decide, rfl, rfl⟩
theorem hufTree : Statement .hufTree := ⟨rfl, by decide, by decide, rfl, rfl⟩

end Sys2Proof.Laws.Encoding
end

