-- ==== Sys2Proof/Tests/Slice0.lean ====
section
/-! SUPPORT. Tests: what the well-formedness checks refuse, the command words, at most two small tests per command with results
from spec/95_test_vectors.md, and for every obligation with hypotheses a witness that meets them, clause by clause. -/

namespace Sys2Proof.Tests

open Sys2Proof.Machine

/-- Bits written as digits, first bit first (spec/00_scope.md R9). -/
def bits (l : List Nat) : Bits := l.map fun d => d == 1

/-- What `f` sees of the next state; nothing if the step stops. -/
def see {α : Type} (f : State → α) (o : Host.Outcome State Fault Refusal) : Option α :=
  match o with
  | .next t => some (f t)
  | .fault _ | .refused _ => none

/-- The smallest widths R7 allows, with small buffers. -/
def small : Config :=
  { pw := some 17, numBits := some 33, inCap := some 100, outCap := some 16, tokCap := some 2 }

/-- The reset state with `b` loaded into IN. -/
def withIn (b : Bits) : State := loadIn b State.reset

/-- The reset state with legal search parameters and `b` in IN. -/
def search (W L K : Nat) (b : Bits) : State := { withIn b with lzW := W, lzL := L, lzK := K }

/-! ### Well-formedness: one ill-formed term for each check -/

theorem test_wf_small_build : small.wf = true := by decide
theorem test_wf_pw_16 : Config.wf { small with pw := some 16 } = false := by decide
theorem test_wf_num_bits_32 : Config.wf { small with numBits := some 32 } = false := by decide
theorem test_wf_in_len_does_not_fit : Config.wf { small with inCap := some (2 ^ 17) } = false := by decide
theorem test_wf_out_len_does_not_fit : Config.wf { small with outCap := some (2 ^ 17) } = false := by decide
theorem test_wf_tok_cnt_does_not_fit : Config.wf { small with tokCap := none } = false := by decide
theorem test_wf_match_does_not_fit : Config.wf { small with pw := some 40, inCap := some (2 ^ 33) } = false := by decide
theorem test_wf_token : Token.wf small ⟨2 ^ 33 - 1, 2 ^ 33 - 1, 255⟩ = true := by decide
theorem test_wf_token_offset : Token.wf small ⟨2 ^ 33, 0, 0⟩ = false := by decide
theorem test_wf_token_length : Token.wf small ⟨0, 2 ^ 33, 0⟩ = false := by decide
theorem test_wf_token_literal : Token.wf small ⟨0, 0, 256⟩ = false := by decide
theorem test_wf_parameter_range : Reg.accepts small .lzW (2 ^ 17 - 1) = true ∧ Reg.accepts small .lzW (2 ^ 17) = false ∧
    Reg.accepts small .lzW (-1) = false := by decide
theorem test_wf_num_n_range : Reg.accepts small .numN (-2 ^ 33) = true ∧ Reg.accepts small .numN (2 ^ 33 - 1) = true ∧
    Reg.accepts small .numN (2 ^ 33) = false ∧ Reg.accepts small .numN (-2 ^ 33 - 1) = false := by decide

/-! ### Command words, written out from R75 and R76 -/

theorem test_decode_num : decodeWord 0b00000000000000000000000000000001 = .ok .numEnc ∧
    decodeWord 0b00000000000000000000000000000010 = .ok .numDec := ⟨rfl, rfl⟩
theorem test_decode_lz : decodeWord 0b00000000000000000000000000000011 = .ok .lzMatch ∧
    decodeWord 0b00000000000000000000000000000100 = .ok .lzRecon ∧
    decodeWord 0b00000000000000000000000000000101 = .ok .lzSer ∧
    decodeWord 0b00000000000000000000000000000110 = .ok .lzDeser ∧
    decodeWord 0b00000000000000000000000000000111 = .ok .lzEnc ∧
    decodeWord 0b00000000000000000000000000001000 = .ok .lzDec := ⟨rfl, rfl, rfl, rfl, rfl, rfl⟩
theorem test_decode_huf : decodeWord 0b00000000000000000000000000001001 = .ok .hufEnc ∧
    decodeWord 0b00000000000000000000000000001010 = .ok .hufDec ∧
    decodeWord 0b00000000000000000000000000001100 = .ok .hufTree := ⟨rfl, rfl, rfl⟩
theorem test_decode_sys : decodeWord 0b00000000000000000000000000001011 = .ok .clrOut := rfl
/-- R77, E1 to E3: reserved OPs, and OP 3 with a bit of ZERO set. -/
theorem test_decode_illegal : decodeWord 0x0 = .error (.reservedOp 0x0) ∧ decodeWord 0xD = .error (.reservedOp 0xD) ∧
    decodeWord 0xE = .error (.reservedOp 0xE) ∧ decodeWord 0xF = .error (.reservedOp 0xF) ∧
    decodeWord 0x13 = .error .zeroFieldSet ∧ decodeWord 0x80000003 = .error .zeroFieldSet ∧
    decodeTableWord 32 0x13 = none := ⟨rfl, rfl, rfl, rfl, rfl, rfl, rfl⟩

/-! ### The step and the host -/

/-- The host's `WR CMD, 0xB` runs `CLR_OUT` as the first command after reset. -/
theorem test_step_runs_offered_word : see (fun t => (t.status, t.pending)) (step (State.reset.withFetchWord 32 0xB)) =
    some (.done, []) := by decide
/-- E3: an illegal word sets STATUS to 0x12 and runs nothing. -/
theorem test_step_illegal_word : see (fun t => (t.status.word, t.tok)) (step (State.reset.withFetchWord 32 0x13)) =
    some (0x12, []) := by decide

/-- E5: `WR IN_RD, 7` is ignored with six bits in IN, `WR IN_RD, 6` is taken. -/
theorem test_write_in_rd : see State.inRd (hostWrite 0x0B 7 (withIn (bits [1,0,0,0,0,0]))) = some 0 ∧
    see State.inRd (hostWrite 0x0B 6 (withIn (bits [1,0,0,0,0,0]))) = some 6 := by decide
/-- E7: read-only and reserved numbers ignore writes; `RD 0x20` and `RD CMD` return 0. -/
theorem test_write_ignored : see id (hostWrite 0x01 5 State.reset) = some State.reset ∧
    see id (hostWrite 0x20 1 State.reset) = some State.reset ∧
    see State.replies (hostRead 0x20 State.reset) = some [.value 0] ∧
    see State.replies (hostRead 0x00 State.reset) = some [.value 0] := by decide

/-! ### The NumberCodec -/

/-- Q4 and P1 step 5: 32 is the first large number for `S = 5`; the code goes after what OUT holds. -/
theorem test_num_enc_appends : see (fun t => (t.status, t.outBuf))
    (exec .numEnc { State.reset with numN := 32, outBuf := bits [1,0,0,0,0,0] }) =
    some (.done, bits [1,0,0,0,0,0, 0,0,0, 1,1,0, 1,0,0,0,0,0]) := by decide
/-- E15: 12 + 6 bits do not fit an OUT of 16. -/
theorem test_num_enc_capacity : see (fun t => (t.status, t.outBuf))
    (exec .numEnc { State.resetOf small with outBuf := bits [0,0,0,1,1,0,1,0,0,0,0,0] }) =
    some (.error .capacityExceeded, bits [0,0,0,1,1,0,1,0,0,0,0,0]) := by decide
/-- P1 step 11: the second of two codes, from the cursor. -/
theorem test_num_dec_from_cursor : see (fun t => (t.status, t.numR, t.inRd))
    (exec .numDec { withIn (bits [1,0,0,0,0,0, 0,0,0,1,1,0,1,0,0,0,0,0, 1]) with inRd := 6 }) = some (.done, 32, 18) := by decide
/-- Part 2, the `NUM_BITS` bound: a 34-bit number needs its 46 bits before it is too large for 33. -/
theorem test_num_dec_length_before_width : see (fun t => (t.status, t.numR, t.inRd))
    (exec .numDec (loadIn (bits [0,0,0,0,0,0, 1,0,0,0,1,0] ++ zeros 33) (State.resetOf small))) =
      some (.error .malformedStream, 0, 0) ∧
    see (fun t => (t.status, t.numR, t.inRd))
    (exec .numDec (loadIn (bits [0,0,0,0,0,0, 1,0,0,0,1,0] ++ zeros 34) (State.resetOf small))) =
      some (.error .capacityExceeded, 0, 0) := by decide

/-! ### The LZMatcher -/

/-- Z6: the window keeps the candidate at distance 6 out; the tie is not reached. -/
theorem test_lz_match_window : see (fun t => (t.status, t.tok, t.inRd))
    (exec .lzMatch (search 3 2 1 (bits [0,1,1,0,0,0,0,1, 0,1,1,0,0,0,1,0, 0,1,0,1,1,0,1,0, 0,1,1,0,0,0,0,1, 0,1,1,0,0,0,1,0, 0,1,0,1,1,0,0,1, 0,1,1,0,0,0,0,1, 0,1,1,0,0,0,1,0, 0,1,0,1,0,0,0,1]))) =
    some (.done, [⟨0, 0, 97⟩, ⟨0, 0, 98⟩, ⟨0, 0, 90⟩, ⟨3, 2, 89⟩, ⟨3, 2, 81⟩], 72) := by decide +kernel
/-- Z13: the ascending order of registration is observable. -/
theorem test_lz_match_order : see State.tok
    (exec .lzMatch { search 4 2 2 (bits [0,1,0,0,0,1,1,1,1,1,1,0,0,1,1,0,1,0,1,1]) with lzB := 1 }) =
    some [⟨0, 0, 0⟩, ⟨0, 0, 1⟩, ⟨0, 0, 0⟩, ⟨1, 2, 1⟩, ⟨0, 0, 1⟩, ⟨2, 2, 1⟩, ⟨0, 0, 1⟩, ⟨0, 0, 0⟩, ⟨0, 0, 0⟩, ⟨4, 2, 0⟩,
      ⟨0, 0, 1⟩, ⟨2, 2, 1⟩] := by decide +kernel
/-- P3 step 12 (ZR6): the bits `1010`. -/
theorem test_lz_recon : see (fun t => (t.status, t.outBuf))
    (exec .lzRecon { State.reset with lzB := 1, tok := [⟨0, 0, 1⟩, ⟨0, 0, 0⟩, ⟨2, 1, 0⟩] }) =
    some (.done, bits [1,0,1,0]) := by decide
/-- ZR5: an offset beyond the output; OUT is emptied. -/
theorem test_lz_recon_offset : see (fun t => (t.status, t.outBuf))
    (exec .lzRecon { State.reset with tok := [⟨0, 0, 65⟩, ⟨2, 1, 66⟩], outBuf := bits [1,1,1] }) =
    some (.error .malformedStream, []) := by decide
/-- Z1: offset code, length code, eight literal bits, twice. -/
theorem test_lz_ser : see (fun t => (t.status, t.outBuf))
    (exec .lzSer { State.reset with tok := [⟨0, 0, 65⟩, ⟨1, 3, 65⟩] }) =
    some (.done, bits [1,0,0,0,0,0, 1,0,0,0,0,0, 0,1,0,0,0,0,0,1, 1,0,0,0,0,1, 1,0,0,0,1,1, 0,1,0,0,0,0,0,1]) := by decide
/-- E13: a literal that does not fit one bit. -/
theorem test_lz_ser_literal : see (fun t => (t.status, t.outBuf))
    (exec .lzSer { State.reset with lzB := 1, tok := [⟨0, 0, 2⟩], outBuf := bits [1,1,1] }) =
    some (.error .invalidInput, []) := by decide
/-- ZD8. -/
theorem test_lz_deser : see (fun t => (t.status, t.tok, t.inRd))
    (exec .lzDeser (withIn (bits [1,0,0,0,0,0, 1,0,0,0,0,0, 0,1,0,0,0,0,0,1, 1,0,0,0,0,1, 1,0,0,0,1,1, 0,1,0,0,0,0,0,1]))) =
    some (.done, [⟨0, 0, 65⟩, ⟨1, 3, 65⟩], 40) := by decide
/-- ZD9: four zero bits after the stream are read as a token. -/
theorem test_lz_deser_padded : see (fun t => (t.status, t.tok, t.inRd))
    (exec .lzDeser (withIn (bits [1,0,0,0,0,0, 1,0,0,0,0,0, 0,1,0,0,0,0,0,1, 1,0,0,0,0,1, 1,0,0,0,1,1, 0,1,0,0,0,0,0,1, 0,0,0,0]))) =
    some (.error .malformedStream, [], 0) := by decide
/-- P2 step 5. -/
theorem test_lz_enc : see (fun t => (t.status, t.tok, t.outBuf, t.inRd))
    (exec .lzEnc (search 3 3 1 (bits [0,1,0,0,0,0,0,1, 0,1,0,0,0,0,0,1, 0,1,0,0,0,0,0,1, 0,1,0,0,0,0,0,1, 0,1,0,0,0,0,0,1]))) =
    some (.done, [⟨0, 0, 65⟩, ⟨1, 3, 65⟩], bits [1,0,0,0,0,0, 1,0,0,0,0,0, 0,1,0,0,0,0,0,1, 1,0,0,0,0,1, 1,0,0,0,1,1, 0,1,0,0,0,0,0,1], 40) := by
  decide +kernel
/-- E9: with the reset parameters `L = 0`; OUT and TOK are emptied. -/
theorem test_lz_enc_parameters : see (fun t => (t.status, t.tok, t.outBuf, t.inRd))
    (exec .lzEnc { withIn (bits [0,1,0,0,0,0,0,1, 0,1,0,0,0,0,0,1, 0,1,0,0,0,0,0,1, 0,1,0,0,0,0,0,1, 0,1,0,0,0,0,0,1]) with outBuf := bits [1,1,1], tok := [⟨0, 0, 65⟩] }) =
    some (.error .invalidInput, [], [], 0) := by decide
/-- P2 step 10. -/
theorem test_lz_dec : see (fun t => (t.status, t.tok, t.outBuf, t.inRd))
    (exec .lzDec (withIn (bits [1,0,0,0,0,0, 1,0,0,0,0,0, 0,1,0,0,0,0,0,1, 1,0,0,0,0,1, 1,0,0,0,1,1, 0,1,0,0,0,0,0,1]))) =
    some (.done, [⟨0, 0, 65⟩, ⟨1, 3, 65⟩], bits [0,1,0,0,0,0,0,1, 0,1,0,0,0,0,0,1, 0,1,0,0,0,0,0,1, 0,1,0,0,0,0,0,1, 0,1,0,0,0,0,0,1], 40) := by decide
/-- P5 step 10: the last literal is three bits short. -/
theorem test_lz_dec_cut : see (fun t => (t.status, t.tok, t.outBuf, t.inRd))
    (exec .lzDec { withIn (bits [1,0,0,0,0,0, 1,0,0,0,0,0, 0,1,0,0,0,0,0,1, 1,0,0,0,0,1, 1,0,0,0,1,1, 0,1,0,0,0]) with tok := [⟨0, 0, 65⟩] }) =
    some (.error .malformedStream, [], [], 0) := by decide

/-! ### The HuffmanCodec -/

/-- H1: `b"hello"`. -/
theorem test_huf_enc : see (fun t => (t.status, t.outBuf, t.inRd)) (exec .hufEnc (withIn
    (bits [0,1,1,0,1,0,0,0, 0,1,1,0,0,1,0,1, 0,1,1,0,1,1,0,0, 0,1,1,0,1,1,0,0, 0,1,1,0,1,1,1,1]))) =
    some (.done, bits [0,0,1,0,0,0, 0,0,0,0,0,0,0,0,0,0,1,0,0,1,1,1, 0,0,1,0,1,1,0,0,1,0,1,1,0,1,1,0,1,0,0,0,0,1,0,1,1,0,1,1,1,1,1,0,1,1,0,1,1,0,0, 0,0,0,0,0,0,0,0,0,0,0,0,0,0,1,0,1, 0,1,0,0,1,1,1,1,1,0], 40) := by
  decide +kernel
/-- H6: `SB = 1`, the merge order gives the more frequent symbol the code 1. -/
theorem test_huf_enc_bits : see State.outBuf (exec .hufEnc { withIn (bits [0,1,0,0,0,0,0,1]) with hufSB := 1 }) =
    some (bits [0,0,0,0,0,1, 0,0,0,0,0,0,0,0,0,0,0,0,0,1,0,1, 0,1,1,1,0, 0,0,0,0,0,0,0,0,0,0,0,0,0,0,0,0,1, 1,0,1,1,1,1,1,0]) := by decide +kernel
/-- H3 with four pad bits, P4 step 15; `HUF_SB` is not read. -/
theorem test_huf_dec : see (fun t => (t.status, t.outBuf, t.inRd)) (exec .hufDec { withIn
    (bits [0,0,1,0,0,0, 0,0,0,0,0,0,0,0,0,0,0,1,0,0,1,1, 0,1,0,1,0,0,0,0,0,1,1,0,1,0,0,0,0,1,0, 0,0,0,0,0,0,0,0,0,0,0,0,0,0,0,1,0, 0,1, 0,0,0,0]) with hufSB := 3 }) =
    some (.done, bits [0,1,0,0,0,0,0,1, 0,1,0,0,0,0,1,0], 64) := by decide +kernel
/-- HD12: the H2 frame without its last bit; OUT is emptied. -/
theorem test_huf_dec_short : see (fun t => (t.status, t.outBuf, t.inRd)) (exec .hufDec { withIn
    (bits [0,0,1,0,0,0, 0,0,0,0,0,0,0,0,0,0,0,0,1,0,0,1, 1,0,1,0,0,0,0,0,1, 0,0,0,0,0,0,0,0,0,0,0,0,0,0,1,0,0, 0,0,0]) with outBuf := bits [1,1,1] }) =
    some (.error .malformedStream, [], 0) := by decide +kernel
/-- HT1. -/
theorem test_huf_tree : see (fun t => (t.status, t.outBuf, t.inRd)) (exec .hufTree (withIn
    (bits [0,1,1,0,1,0,0,0, 0,1,1,0,0,1,0,1, 0,1,1,0,1,1,0,0, 0,1,1,0,1,1,0,0, 0,1,1,0,1,1,1,1]))) =
    some (.done, bits [0,0,1,0,1,1,0,0,1,0,1,1,0,1,1,0,1,0,0,0,0,1,0,1,1,0,1,1,1,1,1,0,1,1,0,1,1,0,0], 40) := by decide +kernel
/-- E11 with `HUF_TREE`: a width above 63 is refused on data, not on an empty input. -/
theorem test_huf_tree_width : see State.status (exec .hufTree { withIn (bits [0,1,0,0,0,0,0,1]) with hufSB := 64 }) =
      some (.error .capacityExceeded) ∧
    see State.status (exec .hufTree { State.reset with hufSB := 64 }) = some .done := by decide

/-! ### The system command -/

/-- E4: `CLR_OUT` after an illegal command. -/
theorem test_clr_out : see (fun t => (t.status, t.outBuf, t.tok)) (exec .clrOut
    { State.reset with status := .error .illegalCommand, outBuf := bits [1,1,1], tok := [⟨0, 0, 65⟩] }) =
    some (.done, [], [⟨0, 0, 65⟩]) := by decide


/-! ### Witnesses: states and operands that meet the hypotheses of each obligation, clause by clause -/

/-- A build with no room for anything. -/
def tight : Config := { small with outCap := some 0, tokCap := some 0 }

theorem witness_illegal_words : (0x10 : Nat) / 16 ≠ 0 ∧ 0x0 % 16 = 0x0 ∧ 0xD % 16 = 0xD ∧ 0xE % 16 = 0xE ∧ 0xF % 16 = 0xF := by
  decide
theorem witness_step_runs_legal : ({ State.resetOf small with pending := [.wr 0x00 (0xC : Nat)] } : State).pending =
      .wr 0x00 ((0xC : Nat) : Int) :: [] ∧ small.pw.fits 0xC = true ∧ decodeWord 0xC = .ok .hufTree := ⟨rfl, rfl, rfl⟩
theorem witness_step_runs_illegal : ({ State.resetOf small with pending := [.wr 0x00 (0x1FFFF : Nat)] } : State).pending =
      .wr 0x00 ((0x1FFFF : Nat) : Int) :: [] ∧ small.pw.fits 0x1FFFF = true ∧
    decodeWord 0x1FFFF = .error .zeroFieldSet := ⟨rfl, by decide, rfl⟩
theorem witness_step_runs_offered : decodeTableWord 32 0x1 = some .numEnc ∧ small.pw.fits (0x1 % 2 ^ 32) = true := by
  decide
theorem witness_step_takes_oldest : ({ State.reset with pending := [.readOut, .rd 0x01] } : State).pending =
      .readOut :: [.rd 0x01] ∧ State.reset.pending = [] := ⟨rfl, rfl⟩
theorem witness_host_write : small.pw.fits (2 ^ 17 - 1) = true ∧ (6 : Nat) ≤ (withIn (zeros 6)).inBuf.length ∧
    (withIn (zeros 6)).inBuf.length < 7 ∧ small.numBits.fitsSigned (-2 ^ 33) = true ∧
    small.numBits.fitsSigned (2 ^ 33 - 1) = true ∧ (0x0E : Nat) ≤ 0x0E := by decide
theorem witness_buffer_primitives : small.inCap.allows (zeros 100).length = true ∧
    small.tokCap.allows [(⟨2 ^ 33 - 1, 0, 255⟩ : Token), ⟨0, 2 ^ 33 - 1, 0⟩].length = true ∧
    ∀ t ∈ [(⟨2 ^ 33 - 1, 0, 255⟩ : Token), ⟨0, 2 ^ 33 - 1, 0⟩],
      small.numBits.fits t.offset = true ∧ small.numBits.fits t.length = true ∧ t.literal < 2 ^ 8 := by decide
theorem witness_unpresentable : (decodeReg 0x00).accepts small (2 ^ 17) = false ∧
    (decodeReg 0x08).accepts small (2 ^ 33) = false ∧ small.inCap.allows (zeros 101).length = false ∧
    small.tokCap.allows (List.replicate 3 (⟨0, 0, 0⟩ : Token)).length = false ∧
    small.numBits.fits (⟨2 ^ 33, 0, 0⟩ : Token).offset = false ∧ small.numBits.fits (⟨0, 2 ^ 33, 0⟩ : Token).length = false ∧
    2 ^ 8 ≤ (⟨0, 0, 256⟩ : Token).literal := by decide
theorem witness_platform_reset : ({ State.reset with numS := 3, pending := [.reset] } : State).pending = .reset :: [] := rfl
theorem witness_status_life : exec .clrOut State.reset = .next { State.reset with status := .done } ∧
    (∀ v, HostAction.readOut ≠ .wr 0x00 v) ∧ HostAction.readOut ≠ .reset ∧
    hostStep .readOut State.reset = .next { State.reset with replies := [.bits []] } := by
  refine ⟨rfl, ?_, ?_, rfl⟩ <;> simp
/-- A command that succeeds and one that raises, for every statement about `exec i s = .next t`. -/
theorem witness_exec_next : (∃ t, exec .hufTree (withIn (zeros 8)) = .next t ∧ t.status = .done) ∧
    (∃ t, exec .hufTree { withIn (zeros 8) with hufSB := 0 } = .next t ∧ t.status = .error .invalidInput) := by
  refine ⟨⟨_, rfl, ?_⟩, ⟨_, rfl, ?_⟩⟩ <;> decide
theorem witness_num_r : (∃ t, exec .numDec (withIn (bits [1, 0, 0, 0, 0, 1])) = .next t ∧ t.status = .done) ∧
    (∃ t, exec .numDec State.reset = .next t ∧ ¬(Instr.numDec = .numDec ∧ t.status = .done)) := by
  refine ⟨⟨_, rfl, ?_⟩, ⟨_, rfl, ?_⟩⟩ <;> decide
theorem witness_buffers_kept : (replacesOut .numDec = false ∧ Instr.numDec ≠ .numEnc ∧ Instr.numDec ≠ .clrOut) ∧
    replacesTok .lzRecon = false ∧ takesUnread .hufDec = true ∧
    (∃ t, exec .hufDec State.reset = .next t ∧ t.status = .done) ∧
    (takesUnread .lzSer = false ∧ Instr.lzSer ≠ .numDec) := by
  refine ⟨by decide, by decide, by decide, ⟨_, rfl, ?_⟩, by decide⟩; decide
theorem witness_unlisted_registers : Instr.lzRecon ∉ [Instr.numEnc, .numDec, .lzSer, .lzDeser, .lzEnc, .lzDec] ∧
    Instr.lzDec ∉ [Instr.lzMatch, .lzEnc] ∧ Instr.numEnc ∉ [Instr.lzMatch, .lzRecon, .lzSer, .lzDeser, .lzEnc, .lzDec] ∧
    Instr.hufDec ∉ [Instr.hufEnc, .hufTree] ∧ Instr.numDec ≠ .numEnc := by decide
/-- The same unread part at another cursor, another OUT and another STATUS. -/
theorem witness_history : sameOperands (withIn (bits [1, 0, 0, 0, 0, 1]))
      { withIn (bits [1, 1, 1, 0, 0, 0, 0, 1]) with inRd := 2, status := .done, numR := 9, outBuf := bits [1] } ∧
    ((withIn []).outBuf.length = { withIn [] with status := .done }.outBuf.length) ∧
    (∃ t, exec .numDec (withIn (bits [1, 0, 0, 0, 0, 1])) = .next t ∧ t.status = .done) := by
  refine ⟨by unfold sameOperands; decide, rfl, ⟨_, rfl, ?_⟩⟩; decide
theorem witness_good_state : GoodState { State.resetOf small with pending := [.wr 0x0B 0, .wr 0x00 0xB] } ∧
    ∃ t, step { State.resetOf small with pending := [.wr 0x0B 0, .wr 0x00 0xB] } = .next t :=
  ⟨by unfold GoodState; decide, _, rfl⟩
theorem witness_host_keeps_range : HostKeepsRange { State.resetOf small with
    pending := [.wr 0x00 (2 ^ 17 - 1), .wr 0x08 (-2 ^ 33), .loadIn (zeros 100), .loadTok [⟨0, 0, 255⟩], .reset] } := by
  unfold HostKeepsRange; decide

/-! #### Bit sequences and the NumberCodec -/

theorem witness_integers_and_bits : 31 < 2 ^ 5 ∧ (bits [1, 1, 1, 1, 1]).length = 5 ∧ uint (bits [1, 1, 1, 1, 1]) = 31 ∧
    0 < 2 ^ 0 := by decide
theorem witness_bit_length : 31 < 2 ^ 5 ∧ 1 ≤ 1 := by decide
theorem witness_number_round_trip : small.numBits.fits (2 ^ 33 - 1) = true ∧ small.numBits.fits 0 = true := by decide
theorem witness_numbers_concatenate : ∀ n ∈ [0, 32, 2 ^ 33 - 1], small.numBits.fits n = true := by decide
theorem witness_number_code_length : 31 ≤ 31 ∧ (32 ≤ 32 ∧ 63 ≤ 63) ∧ (64 ≤ 64 ∧ 127 ≤ 127) ∧ (128 ≤ 128 ∧ 255 ≤ 255) ∧
    (2 ^ 7 ≤ 2 ^ 7 ∧ 2 ^ 15 - 1 < 2 ^ 15) ∧ (2 ^ 15 ≤ 2 ^ 15 ∧ 2 ^ 31 - 1 < 2 ^ 31) ∧
    (2 ^ 31 ≤ 2 ^ 31 ∧ 2 ^ 63 - 1 < 2 ^ 63) := by decide
theorem witness_num_enc_small : ({ State.resetOf small with numN := 31 } : State).numN = ((31 : Nat) : Int) ∧
    31 < 2 ^ State.reset.numS ∧ small.outCap.allows ((zeros 10).length + (1 + State.reset.numS)) = true := by decide
theorem witness_num_enc_large : ({ State.resetOf small with numN := 32 } : State).numN = ((32 : Nat) : Int) ∧
    2 ^ State.reset.numS ≤ 32 ∧
    small.outCap.allows ((zeros 4).length + (2 * bitlen (bitlen 32) + bitlen 32)) = true := by decide
theorem witness_num_enc_raises : ({ State.reset with numN := -1 } : State).numN < 0 ∧
    small.outCap.allows ((zeros 11).length + (numCode State.reset.numS 31).length) = false := by decide
theorem witness_num_dec_small : (withIn (bits [1, 1, 1, 1, 1, 1, 0])).unread =
      true :: (bits [1, 1, 1, 1, 1] ++ bits [0]) ∧ (bits [1, 1, 1, 1, 1]).length = State.reset.numS ∧
    small.numBits.fits (uint (bits [1, 1, 1, 1, 1])) = true := by decide
theorem witness_num_dec_small_too_wide : ({ withIn (true :: (true :: zeros 33 ++ [])) with numS := 34 } : State).unread =
      true :: ((true :: zeros 33) ++ []) ∧ (true :: zeros 33).length = 34 ∧
    small.numBits.fits (uint (true :: zeros 33)) = false := by decide
theorem witness_num_dec_cut : ((withIn (bits [1, 0, 0, 0, 0])).unread = true :: bits [0, 0, 0, 0] ∧
      (bits [0, 0, 0, 0]).length < State.reset.numS) ∧
    (withIn []).unread = zeros 0 ∧ (withIn (bits [0, 0, 0])).unread = zeros 3 ∧
    ((withIn (bits [0, 0, 0, 1, 1])).unread = zeros 3 ++ true :: bits [1] ∧ (bits [1]).length + 1 < 3) ∧
    ((withIn (bits [0, 0, 0, 1, 1, 0, 1, 0, 0, 0, 0])).unread =
        zeros ((bits [1, 0]).length + 1) ++ (true :: bits [1, 0]) ++ bits [1, 0, 0, 0, 0] ∧
      (bits [1, 0, 0, 0, 0]).length < uint (true :: bits [1, 0])) := by decide
theorem witness_num_dec_large : (withIn (bits [0, 0, 0, 1, 1, 0, 1, 0, 0, 0, 0, 0, 1])).unread =
      zeros ((bits [1, 0]).length + 1) ++ (true :: bits [1, 0]) ++ bits [1, 0, 0, 0, 0, 0] ++ bits [1] ∧
    (bits [1, 0, 0, 0, 0, 0]).length = uint (true :: bits [1, 0]) ∧
    small.numBits.allows (bits [1, 0, 0, 0, 0, 0]).length = true := by decide
theorem witness_num_dec_large_too_wide : (withIn (bits [0, 0, 0, 0, 0, 0, 1, 0, 0, 0, 1, 0] ++ zeros 34)).unread =
      zeros ((bits [0, 0, 0, 1, 0]).length + 1) ++ (true :: bits [0, 0, 0, 1, 0]) ++ zeros 34 ++ [] ∧
    (zeros 34).length = uint (true :: bits [0, 0, 0, 1, 0]) ∧ small.numBits.allows (zeros 34).length = false := by decide

/-! #### The LZMatcher -/

theorem witness_lz_token_shape : lzMatch [65, 66, 65, 66] 4 4 2 = [⟨0, 0, 65⟩, ⟨0, 0, 66⟩] ++ ⟨2, 1, 66⟩ :: [] := by decide
/-- Z1: the run at `i = 1` reads past `i` itself and stops at the cap 3. -/
theorem witness_lz_run : runLength [65, 65, 65, 65, 65] 3 0 1 = 3 ∧ 3 ≤ min 3 ([65, 65, 65, 65, 65].length - 1 - 1) ∧
    ∀ t, t < 3 → [65, 65, 65, 65, 65][0 + t]? = [65, 65, 65, 65, 65][1 + t]? := by decide
/-- Z5: at `i = 6` the candidates 0 and 3 tie with a run of 2, and the first one wins; Z8: at `i = 7` the later of the
candidates 0 and 4 has the longer run. -/
theorem witness_lz_best : lzCandidates [97, 98, 90, 97, 98, 89, 97, 98, 81] 9 1
      (indexAfter [97, 98, 90, 97, 98, 89, 97, 98, 81] 1 [⟨0, 0, 97⟩, ⟨0, 0, 98⟩, ⟨0, 0, 90⟩, ⟨3, 2, 89⟩]) 6 = [0, 3] ∧
    lzBest [97, 98, 90, 97, 98, 89, 97, 98, 81] 9 2 1
      (indexAfter [97, 98, 90, 97, 98, 89, 97, 98, 81] 1 [⟨0, 0, 97⟩, ⟨0, 0, 98⟩, ⟨0, 0, 90⟩, ⟨3, 2, 89⟩]) 6 = (6, 2) ∧
    lzBest [98, 99, 89, 97, 98, 99, 88, 98, 99, 88, 81] 16 5 1
      (indexAfter [98, 99, 89, 97, 98, 99, 88, 98, 99, 88, 81] 1
        [⟨0, 0, 98⟩, ⟨0, 0, 99⟩, ⟨0, 0, 89⟩, ⟨0, 0, 97⟩, ⟨4, 2, 88⟩]) 7 = (3, 3) := by decide +kernel
theorem witness_lz_lookup : [65, 66].length = 2 ∧ 2 + 2 ≤ [65, 66, 65, 66].length ∧ [65, 66, 65, 66].length < 3 + 2 := by
  decide
theorem witness_lz_match : (State.reset.lzB = 1 ∨ State.reset.lzB = 8) ∧ 1 ≤ (search 3 1 1 (zeros 16)).lzL ∧
    1 ≤ (search 3 1 1 (zeros 16)).lzK ∧ (search 3 1 1 (zeros 16)).unread.length % State.reset.lzB = 0 ∧
    small.tokCap.allows (lzMatch (syms 8 (zeros 16)) 3 1 1).length = true ∧ [65].length < 2 := by decide
theorem witness_lz_match_raises : ({ State.reset with lzB := 4 } : State).lzB ≠ 1 ∧ 4 ≠ 8 ∧ State.reset.lzL = 0 ∧
    (search 3 1 1 (zeros 12)).unread.length % State.reset.lzB ≠ 0 ∧
    small.tokCap.allows (lzMatch (syms 8 (zeros 24)) 0 1 1).length = false := by decide
theorem witness_overlapping_copy : lzReconstruct [⟨0, 0, 97⟩, ⟨0, 0, 98⟩] = .ok [97, 98] ∧ 1 ≤ 2 ∧ 2 ≤ [97, 98].length := by
  decide
theorem witness_unexecutable_tokens : lzReconstruct [⟨0, 0, 65⟩] = .ok [65] ∧ [65].length < (⟨2, 0, 66⟩ : Token).offset ∧
    ((⟨0, 1, 66⟩ : Token).offset = 0 ∧ 0 < (⟨0, 1, 66⟩ : Token).length) ∧
    ((⟨1, 0, 66⟩ : Token).offset ≤ [65].length ∧ (⟨1, 0, 66⟩ : Token).length = 0) := by decide
theorem witness_lz_recon : (State.reset.lzB = 1 ∨ State.reset.lzB = 8) ∧ literalsFit 8 [⟨0, 0, 255⟩, ⟨1, 0, 0⟩] ∧
    lzReconstruct [⟨0, 0, 255⟩, ⟨1, 0, 0⟩] = .ok [255, 0] ∧ small.outCap.allows (8 * [255, 0].length) = true ∧
    tight.outCap.allows (8 * [255, 0].length) = false := by
  refine ⟨by decide, by unfold literalsFit; decide, by decide, by decide, by decide⟩
theorem witness_lz_recon_raises : ({ State.reset with lzB := 0 } : State).lzB ≠ 1 ∧ 0 ≠ 8 ∧
    (∃ t ∈ [(⟨0, 0, 256⟩ : Token)], 2 ^ State.reset.lzB ≤ t.literal) ∧
    lzReconstruct [⟨1, 1, 65⟩] = .error .malformedStream := by decide
theorem witness_lz_ser : literalsFit 1 [⟨0, 0, 1⟩] ∧ small.outCap.allows (streamOf 5 1 [⟨0, 0, 1⟩]).length = true ∧
    tight.outCap.allows (streamOf 5 1 [⟨0, 0, 1⟩]).length = false := by
  refine ⟨by unfold literalsFit; decide, by decide, by decide⟩
theorem witness_token_stream : literalsFit 8 [⟨2 ^ 33 - 1, 2 ^ 33 - 1, 255⟩] ∧
    numbersFit small.numBits [⟨2 ^ 33 - 1, 2 ^ 33 - 1, 255⟩] := by
  refine ⟨by unfold literalsFit; decide, by unfold numbersFit; decide⟩
theorem witness_lz_deser : (withIn (streamOf 5 8 [⟨1, 3, 65⟩])).unread = streamOf State.reset.numS State.reset.lzB [⟨1, 3, 65⟩] ∧
    (withIn (streamOf 5 8 [⟨1, 3, 65⟩] ++ zeros 1)).unread = streamOf 5 8 [⟨1, 3, 65⟩] ++ zeros (0 + 1) ∧
    small.tokCap.allows [(⟨1, 3, 65⟩ : Token)].length = true ∧ tight.tokCap.allows [(⟨1, 3, 65⟩ : Token)].length = false := by
  decide
/-- R82: a stream of non-canonical codes, `010` for 0 and `011` for 1, is accepted; too many tokens for `tight`. -/
theorem witness_lz_deser_any_stream : lzDeserialize small.numBits 5 8 (bits [0, 1, 0, 0, 1, 1, 0, 1, 0, 0, 0, 0, 0, 1]) =
      .ok [⟨0, 1, 65⟩] ∧ bits [0, 1, 0] ≠ [] ∧
    small.tokCap.allows [(⟨0, 1, 65⟩ : Token)].length = true ∧ tight.tokCap.allows [(⟨0, 1, 65⟩ : Token)].length = false ∧
    lzDeserialize small.numBits 5 8 (bits [1]) = .error .malformedStream := ⟨rfl, by decide, rfl, rfl, rfl⟩
/-- ZD4 and ZD5: a stream cut one bit before the end of its literal, and one cut after an offset code. -/
theorem witness_lz_deser_cut : numbersFit small.numBits [⟨0, 0, 65⟩] ∧
    streamOf 5 8 [⟨0, 0, 65⟩] = bits [1, 0, 0, 0, 0, 0, 1, 0, 0, 0, 0, 0, 0, 1, 0, 0, 0, 0, 0] ++ bits [1] ∧
    streamOf 5 8 [⟨1, 3, 65⟩] = bits [1, 0, 0, 0, 0, 1] ++ bits [1, 0, 0, 0, 1, 1, 0, 1, 0, 0, 0, 0, 0, 1] ∧
    bits [1, 0, 0, 0, 0, 1] ≠ [] ∧ bits [1] ≠ [] ∧
    (withIn (streamOf 5 8 [⟨0, 0, 65⟩] ++ bits [1, 0, 0, 0, 0, 1])).unread =
      streamOf 5 8 [⟨0, 0, 65⟩] ++ bits [1, 0, 0, 0, 0, 1] :=
  ⟨by unfold numbersFit; decide, rfl, rfl, by decide, by decide, rfl⟩
theorem witness_lz_deser_too_wide : 2 ^ 5 ≤ 2 ^ 33 ∧ small.numBits.fits (2 ^ 33) = false ∧ small.numBits.fits 0 = true ∧
    (withIn (numCode 5 0 ++ numCode 5 (2 ^ 33))).unread = streamOf 5 8 [] ++ numCode 5 0 ++ numCode 5 (2 ^ 33) ++ [] := by
  decide
theorem witness_lz_backend_done : ∃ s1 s2, exec .lzMatch (search 3 3 1 (zeros 8)) = .next s1 ∧ exec .lzSer s1 = .next s2 ∧
    s1.status = .done ∧ s2.status = .done := by
  refine ⟨_, _, rfl, rfl, ?_, ?_⟩ <;> decide
theorem witness_lz_backend_first_raises : ∃ s1 s2, exec .lzDeser (withIn (zeros 8)) = .next s1 ∧ exec .lzRecon s1 = .next s2 ∧
    s1.status = .error .malformedStream := by
  refine ⟨_, _, rfl, rfl, ?_⟩; decide
theorem witness_lz_backend_first_raises_enc : ∃ s1 s2, exec .lzMatch (withIn (zeros 8)) = .next s1 ∧ exec .lzSer s1 = .next s2 ∧
    s1.status = .error .invalidInput := by
  refine ⟨_, _, rfl, rfl, ?_⟩; decide
theorem witness_lz_backend_second_raises : ∃ s1 s2, exec .lzDeser (withIn (streamOf 5 8 [⟨1, 1, 65⟩])) = .next s1 ∧
    exec .lzRecon s1 = .next s2 ∧ s1.status = .done ∧ s2.status = .error .malformedStream := by
  refine ⟨_, _, rfl, rfl, ?_, ?_⟩ <;> decide
theorem witness_lz_backend_second_raises_enc : ∃ s1 s2,
    exec .lzMatch { search 3 3 1 (zeros 8) with build := { small with outCap := some 0 } } = .next s1 ∧
    exec .lzSer s1 = .next s2 ∧ s1.status = .done ∧ s2.status = .error .capacityExceeded := by
  refine ⟨_, _, rfl, rfl, ?_, ?_⟩ <;> decide
theorem witness_lz_backend_completes : [(⟨0, 0, 0⟩ : Token)] = lzMatch (syms 8 (search 3 3 1 (zeros 8)).unread) 3 3 1 ∧
    Config.unbounded.outCap.allows (streamOf 5 8 [⟨0, 0, 0⟩]).length = true ∧ literalsFit 8 [⟨0, 0, 0⟩] ∧
    numbersFit small.numBits [⟨0, 0, 0⟩] ∧ lzReconstruct [⟨0, 0, 0⟩] = .ok [0] ∧
    small.outCap.allows (8 * [0].length) = true := by
  refine ⟨by decide, by decide, by unfold literalsFit; decide, by unfold numbersFit; decide, by decide, by decide⟩
theorem witness_lz_backend_raises : small.outCap.allows (streamOf 5 8 [⟨0, 0, 0⟩]).length = false ∧
    lzDeserialize small.numBits 5 8 (streamOf 5 8 [⟨1, 1, 65⟩]) = .ok [⟨1, 1, 65⟩] ∧
    lzReconstruct [⟨1, 1, 65⟩] = .error .malformedStream ∧ tight.outCap.allows (8 * [0].length) = false ∧
    lzDeserialize small.numBits 5 8 (zeros 1) = .error .malformedStream := ⟨rfl, rfl, rfl, rfl, rfl⟩
theorem witness_lz_round_trip : (zeros 16).length % State.reset.lzB = 0 ∧ small.numBits.fits (zeros 16).length = true ∧
    small.outCap.allows (zeros 16).length = true ∧
    ∃ t, exec .lzEnc (loadIn (zeros 16) { search 3 3 1 [] with build := { small with outCap := some 40 } }) = .next t ∧
      t.status = .done := by
  refine ⟨by decide, by decide, by decide, _, rfl, ?_⟩; decide

/-! #### The HuffmanCodec -/

theorem witness_huf_counts : 1 ≤ 3 ∧ (chunks 3 (bits [1, 0, 1, 1]))[1]? = some (bits [1]) := by decide
theorem witness_huf_structure : bits [1, 0] ≠ [] ∧ 2 ≤ (hufFreq (bits [1, 0]) 1).length ∧
    (hufFreq (bits [1, 1]) 1).length = 1 ∧ (0 ∈ (hufFreq (bits [1, 0]) 1).map Prod.fst) ∧
    (1 ∈ (hufFreq (bits [1, 0]) 1).map Prod.fst) ∧ (hufEncode (bits [1, 0]) 1).isOk = true := by decide
theorem witness_huf_merges : ([(0, 2), (3, 1), (5, 1)] : FreqTable).Pairwise fun a b => a.1 < b.1 := by decide
theorem witness_huf_serialization : ∀ v ∈ (HufTree.internal 3 (.leaf 0 1) (.leaf 255 2)).leaves, v < 2 ^ 8 := by decide
theorem witness_huf_enc_and_tree : State.reset.unread = [] ∧ (withIn (zeros 8)).unread ≠ [] ∧ 1 ≤ State.reset.hufSB ∧
    State.reset.hufSB ≤ 63 ∧ ceilDiv (withIn (zeros 8)).unread.length 8 ≤ 131071 ∧
    (hufSerTree (hufTree (hufFreq (zeros 8) 8)) 8).length < 2 ^ 16 ∧
    small.outCap.allows (hufSerTree (hufTree (hufFreq (zeros 8) 8)) 8).length = true ∧
    tight.outCap.allows (hufSerTree (hufTree (hufFreq (zeros 8) 8)) 8).length = false := by decide
/-- H8: the tree of a zero byte fits an OUT of 16 bits, its frame of 49 bits fits 49 but not 48. -/
theorem witness_huf_enc_frame : hufSerTree (hufTree (hufFreq (zeros 8) 8)) 8 = true :: zeros 8 ∧
    (chunkVals 8 (zeros 8)).flatMap (codeFor (hufCodes (hufTree (hufFreq (zeros 8) 8)))) = zeros 1 ∧
    Limit.allows (some 49) (39 + (true :: zeros 8).length + (zeros 1).length) = true ∧
    Limit.allows (some 48) (39 + (true :: zeros 8).length + (zeros 1).length) = false ∧
    Limit.allows (some 48) (true :: zeros 8).length = true := by decide
theorem witness_huf_enc_widths : ({ withIn (zeros 8) with hufSB := 0 } : State).hufSB = 0 ∧
    63 < ({ withIn (zeros 8) with hufSB := 64 } : State).hufSB := by decide
/-- HC2: one byte more than the 17-bit field holds. -/
theorem witness_huf_enc_bytes : 131071 < ceilDiv (withIn (zeros (8 * 131071 + 1))).unread.length 8 := by
  have h : ∀ b, (withIn b).unread = b := fun _ => rfl
  rw [h, zeros_length]; decide
/-- 1009 distinct 63-bit symbols: their tree has `65 * 1009 - 1 = 65584` bits, more than the 16-bit field counts. -/
theorem witness_huf_enc_tree : ∃ vals : List Nat, 2 ^ 16 ≤
    (hufSerTree (hufTree (hufFreq (withIn (symBits 63 vals)).unread 63)) 63).length := by
  refine ⟨(List.range 1009).reverse, ?_⟩
  have hn : (freqOf (List.range 1009).reverse).length = 1009 := by decide +kernel
  have hlt : ∀ v ∈ (List.range 1009).reverse, v < 2 ^ 63 := fun v hv => by
    have := List.mem_range.1 (List.mem_reverse.1 hv); omega
  have hu : ∀ b, (withIn b).unread = b := fun _ => rfl
  generalize (List.range 1009).reverse = vals at hn hlt
  obtain ⟨t, ht, hl⟩ := hufTree_some (f := freqOf vals) (fun he => by simp [he] at hn)
  have := hufSerNode_length_succ 63 t
  rw [hu, hufFreq, chunkVals_symBits (by decide) _ hlt, ht]
  simp only [hufSerTree]
  omega
theorem witness_huf_dec : (∃ out, hufDecode (bitsOf 6 8 ++ zeros 33) = .ok out ∧ tight.outCap.allows out.length = true) ∧
    (∃ out, hufDecode (hufFrame 8 (true :: zeros 8) 1 [false]) = .ok out ∧ tight.outCap.allows out.length = false) ∧
    hufDecode (zeros 21) = .error .malformedStream ∧ (zeros 21).length < 22 ∧
    uint (slice (zeros 39) 0 6) = 0 ∧
    (bitsOf 6 8 ++ zeros 32).length < 39 + uint (slice (bitsOf 6 8 ++ zeros 32) 6 22) := by
  refine ⟨⟨_, rfl, ?_⟩, ⟨_, rfl, ?_⟩, rfl, ?_, ?_, ?_⟩ <;> decide
theorem witness_huf_round_trip : (zeros 8).length % 8 = 0 ∧ (zeros 8).length % 1 = 0 ∧ (zeros 8 = [] → bits [1] = []) ∧
    (([] : Bits) = [] → ([] : Bits) = []) ∧ ∃ b, hufEncode (zeros 8) 1 = .ok b := by
  refine ⟨rfl, rfl, by decide, fun h => h, _, rfl⟩
theorem witness_huf_any_tree : (HufTree.internal 0 (.leaf 1 0) (.leaf 0 0)).leaves.Nodup ∧
    (∀ v ∈ (HufTree.internal 0 (.leaf 1 0) (.leaf 0 0)).leaves, v < 2 ^ 1) ∧
    (∀ v ∈ chunkVals 1 (bits [1, 0, 1, 1, 0, 1, 1, 1]), v ∈ (HufTree.internal 0 (.leaf 1 0) (.leaf 0 0)).leaves) ∧
    (hufSerTree (some (HufTree.internal 0 (.leaf 1 0) (.leaf 0 0))) 1).length < 2 ^ 16 := by decide
theorem witness_huf_degenerate : 1 ≤ 63 ∧ 63 ≤ 63 ∧ 2 ^ 63 - 1 < 2 ^ 63 ∧ 131071 ≤ 131071 := by decide
theorem witness_huf_whole_symbols : hufFrame 8 (true :: zeros 8) 1 [true] ≠ [] ∧
    hufDecode (hufFrame 8 (true :: zeros 8) 1 [true]) = .ok (zeros 8) := ⟨by decide, rfl⟩
theorem witness_huf_field : (∀ v ∈ (HufTree.leaf 1 0 : HufTree Nat).leaves, v < 2 ^ 1) ∧ bits [0] ≠ [] ∧
    (hufSerTree (some (HufTree.leaf 1 0 : HufTree Nat)) 1 ++ bits [0]).length < 2 ^ 16 ∧
    hufSerTree (some (HufTree.leaf 1 0 : HufTree Nat)) 1 = bits [1] ++ bits [1] ∧ bits [1] ≠ [] ∧
    (bits [1]).length < 2 ^ 16 := by decide

end Sys2Proof.Tests
end

