-- ==== Sys2Proof/Proofs/IntegersAndBits.lean ====
section
/-! PROOFS. Integers as bit sequences: `uint` and `bitsOf` are inverse (spec/00_scope.md R10), `bitlen` is the least
sufficient width (R11). -/

namespace Sys2Proof.Machine

/-- Two sequences of one length that spell the same number are equal: the number fixes the first bit, since the bits after
it spell less than that bit weighs. -/
theorem eq_of_uint_eq {a b : Bits} (hlen : a.length = b.length) (h : uint a = uint b) : a = b := by
  induction a generalizing b with
  | nil => exact (List.length_eq_zero_iff.1 hlen.symm).symm
  | cons x a ih =>
    cases b with
    | nil => cases hlen
    | cons y b =>
      have hl : a.length = b.length := Nat.succ.inj hlen
      have ha := uint_lt a
      have hb := uint_lt b
      rw [uint_cons, uint_cons, hl] at h
      rw [hl] at ha
      have hxy : x = y := by
        cases x <;> cases y
        case false.false | true.true => rfl
        case false.true | true.false =>
          simp only [Bool.toNat_false, Bool.toNat_true, Nat.zero_mul, Nat.one_mul] at h
          omega
      subst hxy
      rw [ih hl (Nat.add_left_cancel h)]

theorem eq_bitsOf_of_uint_eq {k v : Nat} {b : Bits} (hlen : b.length = k) (h : uint b = v) : b = bitsOf k v := by
  have hv : v < 2 ^ k := by rw [← h, ← hlen]; exact uint_lt b
  exact eq_of_uint_eq (by rw [hlen, bitsOf_length]) (by rw [h, uint_bitsOf hv])

theorem bitlen_of_pos {n : Nat} (h : 1 ≤ n) : bitlen n = n.log2 + 1 := if_neg (Nat.pos_iff_ne_zero.1 h)

theorem bitlen_two_pow (k : Nat) : bitlen (2 ^ k) = k + 1 := by
  rw [bitlen_of_pos Nat.one_le_two_pow, Nat.log2_two_pow]

theorem uint_minbits (n : Nat) : uint (minbits n) = n := uint_bitsOf (lt_two_pow_bitlen n)

theorem minbits_head?_of_pos {n : Nat} (h : 1 ≤ n) : (minbits n).head? = some true := by
  rw [minbits, bitlen_of_pos h, bitsOf, List.head?_cons, Nat.testBit_log2 (Nat.pos_iff_ne_zero.1 h)]

/-- Settles O24: the value of `bitsOf` is `uint_bitsOf`, its uniqueness the injectivity of `uint` at each length. -/
theorem integersAndBits : Obligations.IntegersAndBits :=
  ⟨uint_nil, uint_concat,
    fun k v hv => ⟨bitsOf_length k v, uint_bitsOf hv, fun _ hlen h => eq_bitsOf_of_uint_eq hlen h⟩, rfl⟩

/-- Settles O25: `bitlen` is sufficient and least, and for `n ≥ 1` the first of its bits is the one `Nat.log2` names. -/
theorem bitLengthIsLeast : Obligations.BitLengthIsLeast :=
  ⟨fun n => ⟨lt_two_pow_bitlen n, fun _ h => bitlen_le h⟩,
    by decide, by decide, by decide, by decide, bitlen_two_pow,
    fun n => ⟨minbits_length n, uint_minbits n⟩, fun _ h => minbits_head?_of_pos h, rfl⟩

end Sys2Proof.Machine
end

section
/-! PROOFS. Register numbers (spec/10_state.md R21) and the values after reset (R36). -/

namespace Sys2Proof.Machine

@[simp] theorem encodeReg_decodeReg (n : Nat) : encodeReg (decodeReg n) = n := by
  unfold decodeReg
  split <;> rfl

theorem decodeReg_eq_cmd_iff {n : Nat} : decodeReg n = .cmd ↔ n = 0 := by
  constructor
  · intro h
    rw [← encodeReg_decodeReg n, h]
    rfl
  · rintro rfl
    rfl

theorem decodeReg_eq_reserved_iff {n : Nat} : decodeReg n = .reserved n ↔ 0x0E ≤ n := by
  constructor
  · have named : ∀ m < 0x0E, decodeReg m ≠ .reserved m := by decide
    exact fun h => not_lt.1 fun hlt => named n hlt h
  · intro h
    obtain ⟨k, rfl⟩ := Nat.exists_eq_add_of_le' h
    rfl

/-- Settles O3: `encodeReg` is a left inverse of `decodeReg`, and the named numbers are those below 0x0E. -/
theorem registerNumbersAreOneToOne : Obligations.RegisterNumbersAreOneToOne :=
  ⟨encodeReg_decodeReg, fun _ => decodeReg_eq_reserved_iff.symm⟩

/-- Settles O11: every field of `State.reset` is written out in `State.resetOf`. -/
theorem resetValues : Obligations.ResetValues :=
  ⟨rfl, rfl, rfl, rfl, rfl, rfl, rfl, rfl, rfl, rfl, rfl, rfl, rfl, rfl, rfl, rfl, rfl⟩

end Sys2Proof.Machine
end

section
/-! PROOFS. What a command computes from its operands, apart from where it puts it (spec/30_encoding.md R78). Each command is
a function of its operands, `yieldOf`, followed by `applyYield`, the writes the tables of spec/10_state.md R26 to R28
allow it; `resultOf_eq_yield` ties the two to the model. -/

namespace Sys2Proof.Machine

/-- What a command that succeeds has computed: the number decoded and the bits its code took, the bits for OUT, the tokens
for TOK. -/
structure Yield where
  number : Nat := 0
  used : Nat := 0
  out : Bits := []
  toks : List Token := []

/-- A whole result that fits OUT, or the error that computing it raised, or `CapacityExceeded` (R27). -/
def fitOut (r : Except ErrorKind Bits) (s : State) : Except ErrorKind Bits := do
  let b ← r
  if s.build.outCap.allows b.length then .ok b else .error .capacityExceeded

/-- What each command computes, or the error it raises. The state is read through its operands only (`yieldOf_congr`). -/
def yieldOf (i : Instr) (s : State) : Except ErrorKind Yield :=
  match i with
  | .numEnc => do
    let c ← numEncode s.numN s.numS
    if s.build.outCap.allows (s.outBuf.length + c.length) then .ok { out := c } else .error .capacityExceeded
  | .numDec => do
    let (n, used) ← numDecodeFront s.build.numBits s.numS s.unread
    return { number := n, used := used }
  | .lzMatch => do return { toks := ← lzMatchTokens s }
  | .lzDeser => do return { toks := ← lzDeserTokens s }
  | .lzRecon =>
    if lzWidthLegal s.lzB = false then .error .invalidInput
    else if s.tok.any (fun t => decide (2 ^ s.lzB ≤ t.literal)) then .error .invalidInput
    else do return { out := ← fitOut ((lzReconstruct s.tok).map (symBits s.lzB)) s }
  | .lzSer =>
    if lzWidthLegal s.lzB = false then .error .invalidInput
    else do return { out := ← fitOut (lzSerialize s.numS s.lzB s.tok) s }
  | .lzEnc => do
    let toks ← lzMatchTokens s
    return { toks := toks, out := ← fitOut (lzSerialize s.numS s.lzB toks) s }
  | .lzDec => do
    let toks ← lzDeserTokens s
    return { toks := toks, out := ← fitOut ((lzReconstruct toks).map (symBits s.lzB)) s }
  | .hufEnc => do return { out := ← fitOut (hufEncode s.unread s.hufSB) s }
  | .hufDec => do return { out := ← fitOut (hufDecode s.unread) s }
  | .hufTree => do return { out := ← fitOut (hufTreeOnly s.unread s.hufSB) s }
  | .clrOut => .ok {}

/-- Where a command's yield goes (R25 to R28): `NUM_DEC` alone writes `NUM_R`, the bulk commands move the cursor to the end,
`NUM_ENC` appends to OUT, the commands with OUT or TOK as a whole-buffer destination replace it. -/
def applyYield (i : Instr) (s : State) (y : Yield) : State :=
  { s with
    numR := if i = .numDec then y.number else s.numR
    inRd := if takesUnread i then s.inBuf.length else if i = .numDec then s.inRd + y.used else s.inRd
    outBuf := if i = .numEnc then s.outBuf ++ y.out else if (destOf i).out then y.out else s.outBuf
    tok := if replacesTok i then y.toks else s.tok }

/-! ### The destinations are those of the tables of R27 and R28 -/

theorem destOf_out (i : Instr) : (destOf i).out = (replacesOut i || decide (i = .clrOut)) := by
  cases i <;> rfl

theorem destOf_tok (i : Instr) : (destOf i).tok = replacesTok i := by
  cases i <;> rfl

theorem applyYield_outBuf_of_replaces {i : Instr} (h : replacesOut i = true) (s : State) (y : Yield) :
    (applyYield i s y).outBuf = y.out := by
  have henc : i ≠ .numEnc := by rintro rfl; cases h
  simp [applyYield, henc, destOf_out, h]

theorem applyYield_outBuf_of_keeps {i : Instr} (h : replacesOut i = false) (henc : i ≠ .numEnc) (hclr : i ≠ .clrOut)
    (s : State) (y : Yield) : (applyYield i s y).outBuf = s.outBuf := by
  simp [applyYield, henc, destOf_out, h, hclr]

theorem applyYield_tok_of_replaces {i : Instr} (h : replacesTok i = true) (s : State) (y : Yield) :
    (applyYield i s y).tok = y.toks := if_pos h

theorem applyYield_tok_of_keeps {i : Instr} (h : replacesTok i = false) (s : State) (y : Yield) :
    (applyYield i s y).tok = s.tok := by
  simp [applyYield, h]

/-- The unread part after a successful `NUM_DEC` is what its yield left of the unread part before. -/
theorem applyYield_unread_numDec (s : State) (y : Yield) : (applyYield .numDec s y).unread = s.unread.drop y.used :=
  List.drop_drop.symm

/-! ### The model's results are yields, applied -/

theorem hufResult_eq_fitOut (r : Except ErrorKind Bits) (s : State) :
    hufResult r s = (fitOut r s).map fun b => { s with outBuf := b, inRd := s.inBuf.length } := by
  cases r with
  | error e => rfl
  | ok b =>
    simp only [hufResult, putOut, fitOut, bind, Except.bind]
    cases s.build.outCap.allows b.length <;> rfl

theorem lzReconOut_eq_fitOut (toks : List Token) (s : State) :
    lzReconOut toks s =
      (fitOut ((lzReconstruct toks).map (symBits s.lzB)) s).map fun b => { s with outBuf := b } := by
  unfold lzReconOut
  cases lzReconstruct toks with
  | error e => rfl
  | ok out => simp only [putOut, fitOut, Except.map, bind, Except.bind]; split <;> rfl

theorem lzSerOut_eq_fitOut (toks : List Token) (s : State) :
    lzSerOut toks s = (fitOut (lzSerialize s.numS s.lzB toks) s).map fun b => { s with outBuf := b } := by
  unfold lzSerOut
  cases lzSerialize s.numS s.lzB toks with
  | error e => rfl
  | ok b => simp only [putOut, fitOut, bind, Except.bind]; split <;> rfl

/-- A command's pseudocode is its yield followed by the writes. -/
theorem resultOf_eq_yield (i : Instr) (s : State) : resultOf i s = (yieldOf i s).map (applyYield i s) := by
  cases i with
  | numEnc =>
    simp only [resultOf, numEncResult, yieldOf, appendOut]
    cases numEncode s.numN s.numS with
    | error e => rfl
    | ok c => simp only [bind, Except.bind]; split <;> rfl
  | numDec =>
    simp only [resultOf, numDecResult, numDecode, yieldOf, unread_eq]
    cases numDecodeFront s.build.numBits s.numS (s.inBuf.drop s.inRd) <;> rfl
  | lzMatch =>
    simp only [resultOf, lzMatchResult, yieldOf]
    cases lzMatchTokens s <;> rfl
  | lzDeser =>
    simp only [resultOf, lzDeserResult, yieldOf]
    cases lzDeserTokens s <;> rfl
  | lzRecon =>
    simp only [resultOf, lzReconResult, yieldOf, lzReconOut_eq_fitOut]
    split
    · rfl
    · split
      · rfl
      · cases fitOut ((lzReconstruct s.tok).map (symBits s.lzB)) s <;> rfl
  | lzSer =>
    simp only [resultOf, lzSerResult, yieldOf, lzSerOut_eq_fitOut]
    split
    · rfl
    · cases fitOut (lzSerialize s.numS s.lzB s.tok) s <;> rfl
  | lzEnc =>
    simp only [resultOf, lzEncResult, yieldOf, lzSerOut_eq_fitOut]
    cases lzMatchTokens s with
    | error e => rfl
    | ok toks =>
      simp only [bind, Except.bind]
      cases fitOut (lzSerialize s.numS s.lzB toks) s <;> rfl
  | lzDec =>
    simp only [resultOf, lzDecResult, yieldOf, lzReconOut_eq_fitOut]
    cases lzDeserTokens s with
    | error e => rfl
    | ok toks =>
      simp only [bind, Except.bind]
      cases fitOut ((lzReconstruct toks).map (symBits s.lzB)) s <;> rfl
  | hufEnc =>
    simp only [resultOf, yieldOf, hufResult_eq_fitOut]
    cases fitOut (hufEncode s.unread s.hufSB) s <;> rfl
  | hufDec =>
    simp only [resultOf, yieldOf, hufResult_eq_fitOut]
    cases fitOut (hufDecode s.unread) s <;> rfl
  | hufTree =>
    simp only [resultOf, yieldOf, hufResult_eq_fitOut]
    cases fitOut (hufTreeOnly s.unread s.hufSB) s <;> rfl
  | clrOut => rfl

theorem numDecode_of_yieldOf {s : State} {y : Yield} (h : yieldOf .numDec s = .ok y) :
    numDecode s.build.numBits s.numS s.inBuf s.inRd = .ok (y.number, s.inRd + y.used) := by
  simp only [yieldOf, unread_eq] at h
  unfold numDecode
  cases hfront : numDecodeFront s.build.numBits s.numS (s.inBuf.drop s.inRd) <;> rw [hfront] at h <;> cases h
  rfl

theorem exec_eq_yield (i : Instr) (s : State) :
    exec i s = endCommand (destOf i) s ((yieldOf i s).map (applyYield i s)) := by
  rw [exec_eq, resultOf_eq_yield]

/-- A command leaves its yield applied and STATUS `DONE`, or the state after the error that kept it from one. -/
theorem exec_next_iff_yield (i : Instr) (s t : State) :
    exec i s = .next t ↔
      (∃ y, yieldOf i s = .ok y ∧ t = completeCommand (applyYield i s y)) ∨
        (∃ e, yieldOf i s = .error e ∧ t = raiseError (destOf i) e s) := by
  rw [exec_eq_yield, endCommand_next_iff]
  cases yieldOf i s <;> simp [Except.map]

/-! ### A yield depends on the operands only -/

theorem lzMatchTokens_congr {s t : State} (h : sameOperands s t) : lzMatchTokens s = lzMatchTokens t := by
  obtain ⟨hbuild, -, hW, hL, hK, hB, -, -, hunread, -⟩ := h
  simp only [lzMatchTokens, lzMatchOperand, fitTok, hbuild, hW, hL, hK, hB, hunread]

theorem lzDeserTokens_congr {s t : State} (h : sameOperands s t) : lzDeserTokens s = lzDeserTokens t := by
  obtain ⟨hbuild, hS, -, -, -, hB, -, -, hunread, -⟩ := h
  simp only [lzDeserTokens, fitTok, hbuild, hS, hB, hunread]

theorem fitOut_congr {s t : State} (h : sameOperands s t) (r : Except ErrorKind Bits) : fitOut r s = fitOut r t := by
  simp only [fitOut, h.1]

/-- R33, R78: equal operands give equal yields; `NUM_ENC` also looks at the length of OUT. -/
theorem yieldOf_congr {i : Instr} {s t : State} (h : sameOperands s t)
    (hout : i = .numEnc → s.outBuf.length = t.outBuf.length) : yieldOf i s = yieldOf i t := by
  have hmatch := lzMatchTokens_congr h
  have hdeser := lzDeserTokens_congr h
  have hfit := fitOut_congr h
  obtain ⟨hbuild, hS, -, -, -, hB, hSB, hN, hunread, htok⟩ := h
  cases i with
  | numEnc => simp only [yieldOf, hbuild, hS, hN, hout rfl]
  | numDec => simp only [yieldOf, hbuild, hS, hunread]
  | lzMatch => simp only [yieldOf, hmatch]
  | lzDeser => simp only [yieldOf, hdeser]
  | lzRecon => simp only [yieldOf, hfit, hB, htok]
  | lzSer => simp only [yieldOf, hfit, hS, hB, htok]
  | lzEnc => simp only [yieldOf, hmatch, hfit, hS, hB]
  | lzDec => simp only [yieldOf, hdeser, hfit, hB]
  | hufEnc => simp only [yieldOf, hfit, hunread, hSB]
  | hufDec => simp only [yieldOf, hfit, hunread]
  | hufTree => simp only [yieldOf, hfit, hunread, hSB]
  | clrOut => rfl

end Sys2Proof.Machine
end

section
/-! PROOFS. STATUS, `NUM_R`, the buffers and the parameters under every command (spec/10_state.md R23 to R28, R33). -/

namespace Sys2Proof.Machine

/-! ### STATUS -/

theorem Status.word_fields (st : Status) :
    st.word < 2 ^ 5 ∧ st.word % 4 ≤ 2 ∧ st.word / 4 ≤ 4 ∧ (st.word / 4 ≠ 0 ↔ st.word % 4 = 2) := by
  cases st with
  | idle => decide
  | done => decide
  | error e => cases e <;> decide

theorem exec_status_ne_idle {i : Instr} {s t : State} (h : exec i s = .next t) : t.status ≠ .idle := by
  obtain ⟨s', -, rfl⟩ | ⟨e, -, rfl⟩ := (exec_next_iff i s t).1 h <;> simp

theorem hostWrite_next {reg : Nat} {v : Int} {s t : State} (hreg : reg ≠ 0) (h : hostWrite reg v s = .next t) :
    t = writeReg (decodeReg reg) v s := by
  unfold hostWrite at h
  split at h
  · split at h
    · next hcmd => exact absurd (decodeReg_eq_cmd_iff.1 hcmd) hreg
    · cases h; rfl
  · cases h

theorem hostStep_status {a : HostAction} {s t : State} (hcmd : ∀ v, a ≠ .wr 0x00 v) (hreset : a ≠ .reset)
    (h : hostStep a s = .next t) : t.status = s.status := by
  cases a with
  | wr reg v =>
    have hreg : reg ≠ 0 := fun h0 => hcmd v (h0 ▸ rfl)
    rw [hostWrite_next hreg h]
    exact (writeReg_frame (decodeReg reg) v s).2.1
  | rd reg => cases h; rfl
  | loadIn b =>
    simp only [hostStep, hostLoadIn] at h
    split at h <;> cases h
    exact loadIn_status b s
  | loadTok toks =>
    simp only [hostStep, hostLoadTok] at h
    split at h <;> cases h
    exact loadTok_status toks s
  | readOut => cases h; rfl
  | readTok => cases h; rfl
  | reset => exact absurd rfl hreset

/-- No command reads STATUS: it is no operand, and either end of a command overwrites it. -/
theorem exec_status_irrelevant (i : Instr) (s : State) (st : Status) : exec i { s with status := st } = exec i s := by
  have hops : sameOperands { s with status := st } s := ⟨rfl, rfl, rfl, rfl, rfl, rfl, rfl, rfl, rfl, rfl⟩
  rw [exec_eq_yield, exec_eq_yield, yieldOf_congr hops fun _ => rfl]
  cases yieldOf i s <;> rfl

/-- Settles O13: the two ends of a command set STATUS, and `exec` answers one of them. -/
theorem statusLife : Obligations.StatusLife :=
  ⟨by decide, Status.word_fields, fun _ _ _ => exec_status_ne_idle, fun _ _ _ => hostStep_status,
    exec_status_irrelevant⟩

/-! ### Frames -/

/-- Settles O14: neither `applyYield` nor `raiseError` writes any of these fields. -/
theorem commandsNeverChangeParametersOrInput : Obligations.CommandsNeverChangeParametersOrInput := by
  intro i s t h
  obtain ⟨y, -, rfl⟩ | ⟨e, -, rfl⟩ := (exec_next_iff_yield i s t).1 h
  · exact ⟨rfl, rfl, rfl, rfl, rfl, rfl, rfl, rfl, rfl, rfl, rfl⟩
  · exact ⟨rfl, rfl, rfl, rfl, rfl, rfl, rfl, rfl, rfl, rfl, rfl⟩

/-- Settles O15: `applyYield` puts the decoded number into `NUM_R`, and writes `NUM_R` for `NUM_DEC` only. -/
theorem numRHoldsLastDecodedNumber : Obligations.NumRHoldsLastDecodedNumber := by
  intro i s t h
  obtain ⟨y, hy, rfl⟩ | ⟨e, -, rfl⟩ := (exec_next_iff_yield i s t).1 h
  · refine ⟨?_, fun hnot => if_neg fun hi => hnot ⟨hi, rfl⟩⟩
    rintro rfl -
    exact ⟨_, numDecode_of_yieldOf hy⟩
  · exact ⟨fun _ hdone => Status.noConfusion hdone, fun _ => rfl⟩

/-- Settles O16: on success `applyYield` writes by the tables of R26 to R28; on an error `raiseError` empties only the
destinations, which are those tables' too. -/
theorem commandsKeepTheBuffersTheyDoNotWrite : Obligations.CommandsKeepTheBuffersTheyDoNotWrite := by
  intro i s t h
  obtain ⟨y, -, rfl⟩ | ⟨e, -, rfl⟩ := (exec_next_iff_yield i s t).1 h
  · refine ⟨fun hrep henc hclr => applyYield_outBuf_of_keeps hrep henc hclr s y,
      fun hrep => applyYield_tok_of_keeps hrep s y, fun htake _ => if_pos htake, fun htake hdec => ?_, ?_⟩
    · simp [applyYield, htake, hdec]
    · rintro rfl
      exact ⟨y.out, rfl⟩
  · refine ⟨fun hrep _ hclr => ?_, fun hrep => ?_, fun _ hdone => Status.noConfusion hdone, fun _ _ => rfl, ?_⟩
    · simp [destOf_out, hrep, hclr]
    · simp [destOf_tok, hrep]
    · rintro rfl
      exact ⟨[], (List.append_nil s.outBuf).symm⟩

/-! ### History -/

/-- Settles O20: both states have the same yield or raise the same error, and what becomes of it in OUT, TOK and `NUM_R`
does not depend on the state. -/
theorem resultsDoNotDependOnHistory : Obligations.ResultsDoNotDependOnHistory := by
  intro i s t s' t' hops hout hs ht
  rw [exec_eq_yield] at hs ht
  rw [← yieldOf_congr hops hout] at ht
  cases hy : yieldOf i s with
  | ok y =>
    rw [hy] at hs ht
    cases hs
    cases ht
    refine ⟨rfl, fun hrep => ?_, fun hrep => ?_, ?_, ?_⟩
    · exact (applyYield_outBuf_of_replaces hrep s y).trans (applyYield_outBuf_of_replaces hrep t y).symm
    · exact (applyYield_tok_of_replaces hrep s y).trans (applyYield_tok_of_replaces hrep t y).symm
    · rintro rfl
      exact ⟨y.out, rfl, rfl⟩
    · rintro rfl -
      obtain ⟨-, -, -, -, -, -, -, -, hunread, -⟩ := hops
      refine ⟨rfl, ?_⟩
      calc (applyYield .numDec s y).unread
          _ = s.unread.drop y.used := applyYield_unread_numDec s y
          _ = t.unread.drop y.used := by rw [hunread]
          _ = (applyYield .numDec t y).unread := (applyYield_unread_numDec t y).symm
  | error e =>
    rw [hy] at hs ht
    cases hs
    cases ht
    refine ⟨rfl, fun hrep => ?_, fun hrep => ?_, ?_, fun _ hdone => Status.noConfusion hdone⟩
    · simp [destOf_out, hrep]
    · simp [destOf_tok, hrep]
    · rintro rfl
      exact ⟨[], (List.append_nil s.outBuf).symm, (List.append_nil t.outBuf).symm⟩

end Sys2Proof.Machine
end

section
/-! PROOFS. Command words (spec/30_encoding.md R75 to R77): the OP table and its reserved codes, and from them which words
the decoder takes. -/

namespace Sys2Proof.Machine

theorem eq_encode_of_opTable {op : Nat} {i : Instr} (h : opTable op = some i) : op = encode i := by
  unfold opTable at h
  split at h <;> cases h <;> rfl

theorem opTable_eq_none_iff {op : Nat} : opTable op = none ↔ op = 0x0 ∨ 0xD ≤ op := by
  constructor
  · have tabled : ∀ n < 0xD, n ≠ 0x0 → opTable n ≠ none := by decide
    intro h
    by_contra hop
    obtain ⟨hzero, hlt⟩ := not_or.1 hop
    exact tabled op (not_le.1 hlt) hzero h
  · rintro (rfl | h)
    · rfl
    · obtain ⟨k, rfl⟩ := Nat.exists_eq_add_of_le' h
      rfl

theorem decodeWord_encode (i : Instr) : decodeWord (encode i) = .ok i := by
  cases i <;> rfl

theorem decodeWord_ok_iff {v : Nat} {i : Instr} :
    decodeWord v = .ok i ↔ v / 16 = 0 ∧ opTable (v % 16) = some i := by
  unfold decodeWord
  split
  · next hzero => cases opTable (v % 16) <;> simp [hzero]
  · next hzero => simp [hzero]

theorem decodeWord_error_iff {v : Nat} :
    (∃ e, decodeWord v = .error e) ↔ v / 16 ≠ 0 ∨ opTable (v % 16) = none := by
  unfold decodeWord
  split
  · next hzero => cases opTable (v % 16) <;> simp [hzero]
  · next hzero => simp [hzero]

/-- A word that decodes has no bit of ZERO set, so it is its own OP, which the table gives to one command only. -/
theorem decodeWord_eq_ok_iff_eq_encode {v : Nat} {i : Instr} : decodeWord v = .ok i ↔ v = encode i := by
  constructor
  · intro h
    obtain ⟨hzero, hop⟩ := decodeWord_ok_iff.1 h
    have hv : v % 16 = v := by omega
    rw [← hv]
    exact eq_encode_of_opTable hop
  · rintro rfl
    exact decodeWord_encode i

/-- Settles O2: the words that decode are the encodings, and a word is rejected for its ZERO field or for an OP the table
leaves reserved. -/
theorem legalWordsAreTheEncodings : Obligations.LegalWordsAreTheEncodings :=
  ⟨fun _ _ => decodeWord_eq_ok_iff_eq_encode,
    fun _ => decodeWord_error_iff.trans (or_congr_right opTable_eq_none_iff)⟩

/-- Settles O1: each row of the two tables, evaluated. -/
theorem commandWordsDecodeAsTabled : Obligations.CommandWordsDecodeAsTabled :=
  ⟨rfl, rfl, rfl, rfl, rfl, rfl, rfl, rfl, rfl, rfl, rfl, rfl, rfl, rfl, rfl, rfl⟩

end Sys2Proof.Machine
end

section
/-! PROOFS. Parameters a command does not list (spec/30_encoding.md R78): its yield does not read them, and the writes that
follow leave them where they stand. -/

namespace Sys2Proof.Machine

/-- An update of the state that keeps a command's yield, and that the writes at the end of the command do not touch,
passes through the command. -/
theorem exec_commutes {f : State → State} {i : Instr} {s t : State} (hyield : yieldOf i (f s) = yieldOf i s)
    (hok : ∀ y, completeCommand (applyYield i (f s) y) = f (completeCommand (applyYield i s y)))
    (herror : ∀ e, raiseError (destOf i) e (f s) = f (raiseError (destOf i) e s)) (h : exec i s = .next t) :
    exec i (f s) = .next (f t) := by
  rw [exec_next_iff_yield, hyield]
  obtain ⟨y, hy, rfl⟩ | ⟨e, he, rfl⟩ := (exec_next_iff_yield i s t).1 h
  · exact .inl ⟨y, hy, (hok y).symm⟩
  · exact .inr ⟨e, he, (herror e).symm⟩

theorem yieldOf_numS_irrelevant {i : Instr} (hi : i ∉ [.numEnc, .numDec, .lzSer, .lzDeser, .lzEnc, .lzDec]) (s : State)
    (v : Nat) : yieldOf i { s with numS := v } = yieldOf i s := by
  cases i with
  | numEnc | numDec | lzSer | lzDeser | lzEnc | lzDec => exact absurd (by decide) hi
  | lzMatch | lzRecon | hufEnc | hufDec | hufTree | clrOut => rfl

theorem yieldOf_search_irrelevant {i : Instr} (hi : i ∉ [.lzMatch, .lzEnc]) (s : State) (w l k : Nat) :
    yieldOf i { s with lzW := w, lzL := l, lzK := k } = yieldOf i s := by
  cases i with
  | lzMatch | lzEnc => exact absurd (by decide) hi
  | numEnc | numDec | lzRecon | lzSer | lzDeser | lzDec | hufEnc | hufDec | hufTree | clrOut => rfl

theorem yieldOf_lzB_irrelevant {i : Instr} (hi : i ∉ [.lzMatch, .lzRecon, .lzSer, .lzDeser, .lzEnc, .lzDec]) (s : State)
    (v : Nat) : yieldOf i { s with lzB := v } = yieldOf i s := by
  cases i with
  | lzMatch | lzRecon | lzSer | lzDeser | lzEnc | lzDec => exact absurd (by decide) hi
  | numEnc | numDec | hufEnc | hufDec | hufTree | clrOut => rfl

theorem yieldOf_hufSB_irrelevant {i : Instr} (hi : i ∉ [.hufEnc, .hufTree]) (s : State) (v : Nat) :
    yieldOf i { s with hufSB := v } = yieldOf i s := by
  cases i with
  | hufEnc | hufTree => exact absurd (by decide) hi
  | numEnc | numDec | lzMatch | lzRecon | lzSer | lzDeser | lzEnc | lzDec | hufDec | clrOut => rfl

theorem yieldOf_numN_irrelevant {i : Instr} (hi : i ≠ .numEnc) (s : State) (v : Int) :
    yieldOf i { s with numN := v } = yieldOf i s := by
  cases i with
  | numEnc => exact absurd rfl hi
  | numDec | lzMatch | lzRecon | lzSer | lzDeser | lzEnc | lzDec | hufEnc | hufDec | hufTree | clrOut => rfl

/-- Settles O19: writing an unlisted register keeps the yield, so by `exec_commutes` the command does the same beside it. -/
theorem unlistedRegistersHaveNoEffect : Obligations.UnlistedRegistersHaveNoEffect := by
  refine ⟨fun i s t v h hi => ?_, fun i s t w l k h hi => ?_, fun i s t v h hi => ?_, fun i s t v h hi => ?_,
    fun i s t v h hi => ?_⟩
  · exact exec_commutes (f := ({ · with numS := v })) (yieldOf_numS_irrelevant hi s v) (fun _ => rfl) (fun _ => rfl) h
  · exact exec_commutes (f := ({ · with lzW := w, lzL := l, lzK := k })) (yieldOf_search_irrelevant hi s w l k)
      (fun _ => rfl) (fun _ => rfl) h
  · exact exec_commutes (f := ({ · with lzB := v })) (yieldOf_lzB_irrelevant hi s v) (fun _ => rfl) (fun _ => rfl) h
  · exact exec_commutes (f := ({ · with hufSB := v })) (yieldOf_hufSB_irrelevant hi s v) (fun _ => rfl) (fun _ => rfl) h
  · exact exec_commutes (f := ({ · with numN := v })) (yieldOf_numN_irrelevant hi s v) (fun _ => rfl) (fun _ => rfl) h

end Sys2Proof.Machine
end

section
/-! PROOFS. When the frame decoder succeeds (spec/42_huffman.md R169), and that bits after the last codeword it needs do not
matter (spec/30_encoding.md R89). -/

namespace Sys2Proof.Machine

/-- A slice that ends inside the first part does not see the second. -/
theorem slice_append_left {α : Type} {b : List α} {hi : Nat} (h : hi ≤ b.length) (x : List α) (lo : Nat) :
    slice (b ++ x) lo hi = slice b lo hi := by
  simp only [slice, ← List.drop_take, List.take_append_of_le_length h]

/-! ### The symbol loop -/

theorem hufDecodeLoop_of_le {SB target fuel emitted : Nat} (h : target ≤ emitted) (t : Option (HufTree Unit))
    (payload : Bits) : hufDecodeLoop t SB target fuel emitted payload = .ok [] := by
  cases fuel <;> simp [hufDecodeLoop, not_lt.2 h]

theorem hufDecodeLoop_zero_of_lt {SB target emitted : Nat} (h : emitted < target) (t : Option (HufTree Unit))
    (payload : Bits) : hufDecodeLoop t SB target 0 emitted payload = .error .malformedStream := if_pos h

/-- While output is still due, the loop succeeds with one symbol and then the output of the rest. -/
theorem hufDecodeLoop_succ_ok_iff {SB target fuel emitted : Nat} (h : emitted < target) (t : Option (HufTree Unit))
    (payload out : Bits) :
    hufDecodeLoop t SB target (fuel + 1) emitted payload = .ok out ↔
      ∃ v rest tail, hufSymbol t payload = .ok (v, rest) ∧
        hufDecodeLoop t SB target fuel (emitted + SB) rest = .ok tail ∧ out = bitsOf SB v ++ tail := by
  rw [hufDecodeLoop, if_pos h]
  cases hufSymbol t payload with
  | error e => simp
  | ok sym =>
    obtain ⟨v, rest⟩ := sym
    cases htail : hufDecodeLoop t SB target fuel (emitted + SB) rest <;> simp [htail, eq_comm]

/-- A frame decodes when its symbol width is not 0, its fields are all there, its tree field parses and its payload holds
the codewords the byte count asks for. -/
theorem hufDecode_ok_iff {b : Bits} (hb : b ≠ []) (out : Bits) :
    hufDecode b = .ok out ↔
      uint (slice b 0 6) ≠ 0 ∧ 39 + uint (slice b 6 22) ≤ b.length ∧
        ∃ tree, hufTreeField (slice b 22 (22 + uint (slice b 6 22))) (uint (slice b 0 6)) = .ok tree ∧
          hufDecodeLoop tree (uint (slice b 0 6))
            (8 * uint (slice b (22 + uint (slice b 6 22)) (39 + uint (slice b 6 22)))) (b.length + 1) 0
            (b.drop (39 + uint (slice b 6 22))) = .ok out := by
  unfold hufDecode
  rw [if_neg hb]
  split
  · next hshort =>
    have hfields : ¬ 39 + uint (slice b 6 22) ≤ b.length := by omega
    simp [hfields]
  · simp only
    split
    · next hSB => simp [hSB]
    · next hSB =>
      split
      · next hshort =>
        have hfields : ¬ 39 + uint (slice b 6 22) ≤ b.length := by omega
        simp [hfields]
      · next hlong =>
        have hfields : 39 + uint (slice b 6 22) ≤ b.length := by omega
        cases htree : hufTreeField (slice b 22 (22 + uint (slice b 6 22))) (uint (slice b 0 6)) <;>
          simp [hSB, hfields]

/-! ### More bits at the end -/

theorem hufFollow_append {t : HufTree Unit} {b rest : Bits} {v : Symbol} (h : hufFollow t b = .ok (v, rest)) (x : Bits) :
    hufFollow t (b ++ x) = .ok (v, rest ++ x) := by
  induction t generalizing b with
  | leaf u f => cases h; rfl
  | internal f l r ihl ihr =>
    cases b with
    | nil => cases h
    | cons bit b =>
      cases bit with
      | false => exact ihl h
      | true => exact ihr h

theorem hufSymbol_append {t : Option (HufTree Unit)} {b rest : Bits} {v : Symbol} (h : hufSymbol t b = .ok (v, rest))
    (x : Bits) : hufSymbol t (b ++ x) = .ok (v, rest ++ x) := by
  unfold hufSymbol at h
  split at h
  · cases h
  · cases h
  · cases h; rfl
  · exact hufFollow_append h x

/-- The loop takes from the front of the payload only, so neither more payload nor more fuel changes its output. -/
theorem hufDecodeLoop_append {t : Option (HufTree Unit)} {SB target fuel fuel' emitted : Nat} {payload out : Bits}
    (h : hufDecodeLoop t SB target fuel emitted payload = .ok out) (hfuel : fuel ≤ fuel') (x : Bits) :
    hufDecodeLoop t SB target fuel' emitted (payload ++ x) = .ok out := by
  induction fuel generalizing fuel' emitted payload out with
  | zero =>
    rcases lt_or_ge emitted target with hlt | hge
    · rw [hufDecodeLoop_zero_of_lt hlt] at h
      cases h
    · rw [← h, hufDecodeLoop_of_le hge, hufDecodeLoop_of_le hge]
  | succ fuel ih =>
    rcases lt_or_ge emitted target with hlt | hge
    · obtain ⟨k, rfl⟩ := Nat.exists_eq_add_of_le' hfuel
      obtain ⟨v, rest, tail, hsym, htail, rfl⟩ := (hufDecodeLoop_succ_ok_iff hlt t payload out).1 h
      exact (hufDecodeLoop_succ_ok_iff hlt t (payload ++ x) _).2
        ⟨v, rest ++ x, tail, hufSymbol_append hsym x, ih htail (Nat.le_add_left fuel k), rfl⟩
    · rw [← h, hufDecodeLoop_of_le hge, hufDecodeLoop_of_le hge]

/-- Settles O59: every header field ends inside the frame, and the loop's payload only gains bits at its end. -/
theorem hufTrailingBitsIgnored : Obligations.HufTrailingBitsIgnored := by
  intro b x out hb h
  obtain ⟨hSB, hfields, tree, htree, hloop⟩ := (hufDecode_ok_iff hb out).1 h
  have hwidth : slice (b ++ x) 0 6 = slice b 0 6 := slice_append_left (by omega) x 0
  have htreeLen : slice (b ++ x) 6 22 = slice b 6 22 := slice_append_left (by omega) x 6
  have hlen : (b ++ x).length = b.length + x.length := List.length_append
  refine (hufDecode_ok_iff (List.append_ne_nil_of_left_ne_nil hb x) out).2 ?_
  rw [hwidth, htreeLen, slice_append_left (by omega) x 22, slice_append_left hfields x, hlen,
    List.drop_append_of_le_length hfields]
  exact ⟨hSB, by omega, tree, htree, hufDecodeLoop_append hloop (by omega) x⟩

end Sys2Proof.Machine
end

section
/-! PROOFS. The number code (spec/30_encoding.md R79 to R82; spec/40_numbercodec.md): its length, what the decoder answers
on each form of its input, the round trip, and the two commands. -/

namespace Sys2Proof.Machine

/-! ### The two forms of a code and their length (R79, R80, R106) -/

theorem numCode_of_lt {S n : Nat} (h : n < 2 ^ S) : numCode S n = true :: bitsOf S n := if_pos h

theorem numCode_of_le {S n : Nat} (h : 2 ^ S ≤ n) :
    numCode S n = zeros (bitlen (bitlen n)) ++ minbits (bitlen n) ++ minbits n := if_neg (not_lt.2 h)

theorem numCode_length_of_le {S n : Nat} (h : 2 ^ S ≤ n) :
    (numCode S n).length = 2 * bitlen (bitlen n) + bitlen n := by
  rw [numCode_length, if_neg (not_lt.2 h)]

theorem lt_bitlen {k n : Nat} (h : 2 ^ k ≤ n) : k < bitlen n :=
  (Nat.pow_lt_pow_iff_right Nat.one_lt_two).1 (h.trans_lt (lt_two_pow_bitlen n))

theorem bitlen_eq_succ {k n : Nat} (hlo : 2 ^ k ≤ n) (hhi : n < 2 ^ (k + 1)) : bitlen n = k + 1 :=
  le_antisymm (bitlen_le hhi) (lt_bitlen hlo)

/-- One length of number: every number of `k + 1` bits has a code of the same length. -/
theorem numCode_length_of_bitlen {S k n : Nat} (hS : S ≤ k) (hlo : 2 ^ k ≤ n) (hhi : n < 2 ^ (k + 1)) :
    (numCode S n).length = 2 * bitlen (k + 1) + (k + 1) := by
  rw [numCode_length_of_le ((Nat.pow_le_pow_right Nat.two_pos hS).trans hlo), bitlen_eq_succ hlo hhi]

/-- One length of `bitlen(n)`: while that has `k + 1` bits, the two fields before the number take `2 (k + 1)` bits. -/
theorem numCode_length_of_bitlen_bitlen {S k n : Nat} (hS : S + 1 ≤ 2 ^ k) (hlo : 2 ^ (2 ^ k - 1) ≤ n)
    (hhi : n < 2 ^ (2 ^ (k + 1) - 1)) : (numCode S n).length = bitlen n + 2 * (k + 1) := by
  have hlower : 2 ^ k ≤ bitlen n := Nat.le_of_pred_lt (lt_bitlen hlo)
  have hupper : bitlen n < 2 ^ (k + 1) := (bitlen_le hhi).trans_lt (Nat.pred_lt (Nat.two_pow_pos _).ne')
  have hlarge : 2 ^ S ≤ n := (Nat.pow_le_pow_right Nat.two_pos (Nat.le_sub_of_add_le hS)).trans hlo
  rw [numCode_length_of_le hlarge, bitlen_eq_succ hlower hupper, Nat.add_comm]

/-- Settles O28: the general length is `numCode_length`; the ranges are those where `bitlen(n)`, or only
`bitlen(bitlen(n))`, is fixed. -/
theorem numberCodeLength : Obligations.NumberCodeLength := by
  refine ⟨fun n S => numCode_length S n, fun n h => ?_, fun n hlo hhi => ?_, fun n hlo hhi => ?_, fun n hlo hhi => ?_,
    fun n hlo hhi => ?_, fun n hlo hhi => ?_, fun n hlo hhi => ?_⟩
  · rw [numCode_length, if_pos (by omega)]
  · exact numCode_length_of_bitlen (k := 5) (by decide) hlo (by omega)
  · exact numCode_length_of_bitlen (k := 6) (by decide) hlo (by omega)
  · exact numCode_length_of_bitlen (k := 7) (by decide) hlo (by omega)
  · exact numCode_length_of_bitlen_bitlen (k := 3) (by decide) hlo hhi
  · exact numCode_length_of_bitlen_bitlen (k := 4) (by decide) hlo hhi
  · exact numCode_length_of_bitlen_bitlen (k := 5) (by decide) hlo hhi

/-! ### What the decoder answers on each form of its input (R81, R101) -/

theorem numDecodeFront_small {S : Nat} {f : Bits} (hf : f.length = S) (numBits : Limit) (rest : Bits) :
    numDecodeFront numBits S (true :: (f ++ rest)) =
      if numBits.fits (uint f) then .ok (uint f, 1 + S) else .error .capacityExceeded := by
  have hlen : ¬ (f ++ rest).length < S := by simp [hf]
  rw [numDecodeFront, if_neg hlen, List.take_left' hf]

theorem numDecodeFront_small_cut {S : Nat} {rest : Bits} (h : rest.length < S) (numBits : Limit) :
    numDecodeFront numBits S (true :: rest) = .error .malformedStream := if_pos h

theorem numDecodeFront_zeros (numBits : Limit) (S k : Nat) :
    numDecodeFront numBits S (zeros k) = .error .malformedStream := by
  cases k with
  | zero => rfl
  | succ k =>
    have hall : leadingZeros (zeros (k + 1)) = (zeros (k + 1)).length := by rw [leadingZeros_zeros, zeros_length]
    exact if_pos hall

/-- The large form, once its `z` leading 0 bits are counted and a 1 bit is known to follow them. -/
theorem numDecodeFront_large_eq {u : Bits} {z : Nat} (hz : leadingZeros u = z) (hpos : 1 ≤ z) (hlt : z < u.length)
    (numBits : Limit) (S : Nat) :
    numDecodeFront numBits S u =
      if u.length < 2 * z then .error .malformedStream
      else
        let logn := uint (slice u z (2 * z))
        if u.length < 2 * z + logn then .error .malformedStream
        else if numBits.allows logn then .ok (uint (slice u (2 * z) (2 * z + logn)), 2 * z + logn)
        else .error .capacityExceeded := by
  subst hz
  match u with
  | [] => cases hlt
  | true :: _ => cases hpos
  | false :: rest => exact if_neg hlt.ne

theorem numDecodeFront_large_cut {z : Nat} {rest : Bits} (h : rest.length + 1 < z) (numBits : Limit) (S : Nat) :
    numDecodeFront numBits S (zeros z ++ true :: rest) = .error .malformedStream := by
  have hlen : (zeros z ++ true :: rest).length = z + (rest.length + 1) := by simp
  rw [numDecodeFront_large_eq (leadingZeros_marked z rest) (by omega) (by omega), if_pos (by omega)]

/-- The large form with its first field `1 f` in full: that field is the width of the second. -/
theorem numDecodeFront_large (f r : Bits) (numBits : Limit) (S : Nat) :
    numDecodeFront numBits S (zeros (f.length + 1) ++ (true :: f) ++ r) =
      if r.length < uint (true :: f) then .error .malformedStream
      else if numBits.allows (uint (true :: f)) then
        .ok (uint (r.take (uint (true :: f))), 2 * (f.length + 1) + uint (true :: f))
      else .error .capacityExceeded := by
  have hlead : leadingZeros (zeros (f.length + 1) ++ (true :: f) ++ r) = f.length + 1 := by
    rw [List.append_assoc]
    exact leadingZeros_marked (f.length + 1) (f ++ r)
  have hfields : (zeros (f.length + 1) ++ (true :: f)).length = 2 * (f.length + 1) := by
    rw [List.length_append, zeros_length, List.length_cons, two_mul]
  have hlen : (zeros (f.length + 1) ++ (true :: f) ++ r).length = 2 * (f.length + 1) + r.length := by
    rw [List.length_append, hfields]
  have hwidth : slice (zeros (f.length + 1) ++ (true :: f) ++ r) (f.length + 1) (2 * (f.length + 1)) = true :: f := by
    simp [slice, two_mul]
  have hnumber (k : Nat) :
      slice (zeros (f.length + 1) ++ (true :: f) ++ r) (2 * (f.length + 1)) (2 * (f.length + 1) + k) = r.take k := by
    rw [slice, List.drop_left' hfields, Nat.add_sub_cancel_left]
  rw [numDecodeFront_large_eq hlead (by omega) (by omega), if_neg (by omega)]
  simp only [hwidth, hnumber, hlen, Nat.add_lt_add_iff_left]

/-- The large form in full; nothing asks that `g` begin with a 1 bit (R82). -/
theorem numDecodeFront_large_full {f g : Bits} (hg : g.length = uint (true :: f)) (numBits : Limit) (S : Nat)
    (rest : Bits) :
    numDecodeFront numBits S (zeros (f.length + 1) ++ (true :: f) ++ g ++ rest) =
      if numBits.allows g.length then .ok (uint g, 2 * (f.length + 1) + g.length) else .error .capacityExceeded := by
  have hlen : ¬ (g ++ rest).length < g.length := by simp
  rw [List.append_assoc, numDecodeFront_large, ← hg, if_neg hlen, List.take_left]

/-! ### Decoding a code (R104, R105) -/

/-- A number that fits a width has no more bits than it. -/
theorem allows_bitlen_of_fits {width : Limit} {n : Nat} (h : width.fits n = true) :
    width.allows (bitlen n) = true := by
  cases width with
  | none => rfl
  | some w => exact decide_eq_true (bitlen_le (of_decide_eq_true h))

theorem exists_minbits_eq_cons {n : Nat} (h : 1 ≤ n) : ∃ f, minbits n = true :: f :=
  ⟨_, List.eq_cons_of_mem_head? (minbits_head?_of_pos h)⟩

theorem numDecodeFront_numCode_append {numBits : Limit} {n : Nat} (h : numBits.fits n = true) (S : Nat) (t : Bits) :
    numDecodeFront numBits S (numCode S n ++ t) = .ok (n, (numCode S n).length) := by
  rcases lt_or_ge n (2 ^ S) with hsmall | hlarge
  · rw [numCode_length, if_pos hsmall, numCode_of_lt hsmall, List.cons_append,
      numDecodeFront_small (bitsOf_length S n), uint_bitsOf hsmall, if_pos h]
  · obtain ⟨f, hf⟩ := exists_minbits_eq_cons (bitlen_pos (Nat.one_le_two_pow.trans hlarge))
    have hwidth : bitlen (bitlen n) = f.length + 1 := by rw [← minbits_length, hf, List.length_cons]
    have hg : (minbits n).length = uint (true :: f) := by rw [minbits_length, ← hf, uint_minbits]
    rw [numCode_length_of_le hlarge, numCode_of_le hlarge, hf, hwidth, numDecodeFront_large_full hg, minbits_length,
      if_pos (allows_bitlen_of_fits h), uint_minbits]

/-- A code anywhere in a buffer is read from its first bit. -/
theorem numDecode_numCode {numBits : Limit} {n : Nat} (h : numBits.fits n = true) (S : Nat) (pre t : Bits) :
    numDecode numBits S (pre ++ (numCode S n ++ t)) pre.length = .ok (n, pre.length + (numCode S n).length) :=
  numDecode_ok_iff.2 ⟨_, by rw [List.drop_left, numDecodeFront_numCode_append h], rfl⟩

theorem decodeNumbers_numCodes {numBits : Limit} {ns : List Nat} (h : ∀ n ∈ ns, numBits.fits n = true) (S : Nat)
    (pre t : Bits) :
    decodeNumbers numBits S (pre ++ (ns.flatMap (numCode S) ++ t)) ns.length pre.length =
      .ok (ns, pre.length + (ns.flatMap (numCode S)).length) := by
  induction ns generalizing pre with
  | nil => rfl
  | cons n ns ih =>
    obtain ⟨hn, hns⟩ := List.forall_mem_cons.1 h
    have hhead := numDecode_numCode hn S pre (ns.flatMap (numCode S) ++ t)
    have htail := ih hns (pre ++ numCode S n)
    rw [List.append_assoc, List.length_append] at htail
    rw [List.flatMap_cons, List.append_assoc, List.length_cons, decodeNumbers, hhead]
    simp only [htail, List.length_append, Nat.add_assoc]

@[simp] theorem numEncode_natCast (n S : Nat) : numEncode (n : Int) S = .ok (numCode S n) :=
  if_neg (not_lt.2 n.cast_nonneg)

/-- Settles O26: the code is read from the front of what follows the empty sequence. -/
theorem numberCodeRoundTrip : Obligations.NumberCodeRoundTrip := by
  intro n S t numBits h
  refine ⟨numCode S n, numEncode_natCast n S, ?_⟩
  simpa using numDecode_numCode h S [] t

/-- Settles O27: by induction on the numbers, each code read after the codes before it. -/
theorem numberCodesConcatenate : Obligations.NumberCodesConcatenate := by
  intro ns S t numBits h
  simpa using decodeNumbers_numCodes h S [] t

/-! ### `NUM_ENC` (R102) -/

theorem numEncResult_of_natCast {s : State} {n : Nat} (hn : s.numN = n) :
    numEncResult s = appendOut (numCode s.numS n) s := by
  simp only [numEncResult, hn, numEncode_natCast]

theorem exec_numEnc_of_allows {s : State} {n : Nat} (hn : s.numN = n)
    (hcap : s.build.outCap.allows (s.outBuf.length + (numCode s.numS n).length) = true) :
    exec .numEnc s = .next { s with outBuf := s.outBuf ++ numCode s.numS n, status := .done } := by
  have hresult : resultOf .numEnc s = .ok { s with outBuf := s.outBuf ++ numCode s.numS n } :=
    (numEncResult_of_natCast hn).trans ((appendOut_ok_iff _ s _).2 ⟨hcap, rfl⟩)
  exact exec_of_ok hresult

theorem exec_numEnc_of_not_allows {s : State} {n : Nat} (hn : s.numN = n)
    (hcap : s.build.outCap.allows (s.outBuf.length + (numCode s.numS n).length) = false) :
    exec .numEnc s = .next { s with status := .error .capacityExceeded } := by
  have hresult : resultOf .numEnc s = .error .capacityExceeded :=
    (numEncResult_of_natCast hn).trans ((appendOut_error_iff _ s _).2 ⟨hcap, rfl⟩)
  exact exec_of_error hresult

theorem exec_numEnc_of_neg {s : State} (hn : s.numN < 0) :
    exec .numEnc s = .next { s with status := .error .invalidInput } := by
  have hresult : resultOf .numEnc s = .error .invalidInput := by
    rw [resultOf, numEncResult, numEncode, if_pos hn]
  exact exec_of_error hresult

/-- Settles O29: one success and two errors, the success split by the form of the code. -/
theorem numEncAppendsTheCode : Obligations.NumEncAppendsTheCode := by
  refine ⟨fun s n hn hsmall hcap => ?_, fun s n hn hlarge hcap => ?_, fun _ => exec_numEnc_of_neg,
    fun _ _ => exec_numEnc_of_not_allows⟩
  · rw [← numCode_of_lt hsmall]
    refine exec_numEnc_of_allows hn ?_
    rwa [numCode_length, if_pos hsmall]
  · rw [← numCode_of_le hlarge]
    refine exec_numEnc_of_allows hn ?_
    rwa [numCode_length_of_le hlarge]

/-! ### `NUM_DEC` (R103) -/

theorem exec_numDec_of_ok {s : State} {n used : Nat}
    (h : numDecodeFront s.build.numBits s.numS s.unread = .ok (n, used)) :
    exec .numDec s = .next { s with numR := n, inRd := s.inRd + used, status := .done } := by
  have hresult : resultOf .numDec s = .ok { s with numR := n, inRd := s.inRd + used } :=
    (numDecResult_ok_iff s _).2 ⟨n, _, numDecode_ok_iff.2 ⟨used, h, rfl⟩, rfl⟩
  exact exec_of_ok hresult

theorem exec_numDec_of_error {s : State} {e : ErrorKind}
    (h : numDecodeFront s.build.numBits s.numS s.unread = .error e) :
    exec .numDec s = .next { s with status := .error e } := by
  have hresult : resultOf .numDec s = .error e := by
    simp only [resultOf, numDecResult, numDecode, h]
  exact exec_of_error hresult

/-- Settles O30: the command does what the decoder answers on the unread part, form by form. -/
theorem numDecOnEveryUnreadPart : Obligations.NumDecOnEveryUnreadPart := by
  refine ⟨fun s f rest hu hf hfits => ?_, fun s f rest hu hf hfits => ?_, fun s rest hu hcut => ?_, fun s k hu => ?_,
    fun s z rest hu hcut => ?_, fun s f rest hu hcut => ?_, fun s f g rest hu hg hfits => ?_,
    fun s f g rest hu hg hfits => ?_⟩
  · exact exec_numDec_of_ok (by rw [hu, numDecodeFront_small hf, if_pos hfits])
  · exact exec_numDec_of_error (by rw [hu, numDecodeFront_small hf, hfits]; rfl)
  · exact exec_numDec_of_error (by rw [hu, numDecodeFront_small_cut hcut])
  · exact exec_numDec_of_error (by rw [hu, numDecodeFront_zeros])
  · exact exec_numDec_of_error (by rw [hu, numDecodeFront_large_cut hcut])
  · exact exec_numDec_of_error (by rw [hu, numDecodeFront_large, if_pos hcut])
  · exact exec_numDec_of_ok (by rw [hu, numDecodeFront_large_full hg, if_pos hfits])
  · exact exec_numDec_of_error (by rw [hu, numDecodeFront_large_full hg, hfits]; rfl)

end Sys2Proof.Machine
end

section
/-! PROOFS. Reconstruction (spec/41_lzmatcher.md R133 to R135): what the overlapping copy appends, how many symbols a token
list stands for, and the tokens that cannot be executed. -/

namespace Sys2Proof.Machine

/-! ### The overlapping copy (R134) -/

theorem lzCopy_getElem?_of_lt {k : Nat} {out : List Symbol} (h : k < out.length) (n start : Nat) :
    (lzCopy n start out)[k]? = out[k]? := by
  obtain ⟨copied, hcopied⟩ := lzCopy_prefix n start out
  rw [← hcopied, List.getElem?_append_left h]

/-- Symbol `u` of a copy is the symbol `u` places after its start, be it old or copied just before. -/
theorem lzCopy_getElem?_copied {n u start : Nat} {out : List Symbol} (hu : u < n) (hs : start < out.length) :
    (lzCopy n start out)[out.length + u]? = (lzCopy n start out)[start + u]? := by
  induction n generalizing u start out with
  | zero => cases hu
  | succ n ih =>
    have hlen : (out ++ [out.getD start 0]).length = out.length + 1 := List.length_append
    rw [lzCopy]
    cases u with
    | zero =>
      rw [lzCopy_getElem?_of_lt (by omega), lzCopy_getElem?_of_lt (by omega), Nat.add_zero, Nat.add_zero,
        List.getElem?_concat_length, List.getElem?_append_left hs, List.getD_eq_getElem _ _ hs,
        List.getElem?_eq_getElem hs]
    | succ u =>
      have := ih (Nat.lt_of_succ_lt_succ hu) (start := start + 1) (out := out ++ [out.getD start 0]) (by omega)
      rwa [hlen, Nat.add_right_comm, Nat.add_right_comm start] at this

/-- R134: the copy repeats the `offset` symbols before it. -/
theorem lzCopy_getElem?_periodic {n u offset : Nat} {out : List Symbol} (hu : u < n) (hpos : 1 ≤ offset)
    (hle : offset ≤ out.length) :
    (lzCopy n (out.length - offset) out)[out.length + u]? = out[out.length - offset + u % offset]? := by
  induction u using Nat.strong_induction_on with
  | _ u ih =>
    rw [lzCopy_getElem?_copied hu (by omega)]
    rcases lt_or_ge u offset with hold | hnew
    · rw [Nat.mod_eq_of_lt hold, lzCopy_getElem?_of_lt (by omega)]
    · have hback : out.length - offset + u = out.length + (u - offset) := by omega
      rw [hback, ih (u - offset) (by omega) (by omega), Nat.mod_eq_sub_mod hnew]

/-- Settles O37: the tokens before are executed first; the copy then keeps what was written and repeats its last `offset`
symbols. -/
theorem overlappingCopy : Obligations.OverlappingCopy := by
  intro toks out offset length c hout hpos hle
  have happly : lzApply out ⟨offset, length, c⟩ = .ok (lzCopy length (out.length - offset) out ++ [c]) :=
    (lzApply_ok_iff _ _ _).2 ⟨hle, .inr hpos, rfl⟩
  have hlen := lzCopy_length length (out.length - offset) out
  refine ⟨lzCopy length (out.length - offset) out ++ [c], ?_, ?_, fun k hk => ?_, fun u hu => ?_, ?_⟩
  · rw [lzReconstruct] at hout ⊢
    simp only [lzReconstructFrom_append, hout, lzReconstructFrom, happly]
  · rw [List.length_append, hlen, List.length_singleton]
  · rw [List.getElem?_append_left (by omega), lzCopy_getElem?_of_lt hk]
  · rw [List.getElem?_append_left (by omega), lzCopy_getElem?_periodic hu hpos hle]
  · rw [← hlen, List.getElem?_concat_length]

/-! ### Executing one token after another (R133, R135) -/

theorem lzReconstruct_append_cons {before : List Token} {out : List Symbol} (h : lzReconstruct before = .ok out)
    (t : Token) (after : List Token) :
    lzReconstruct (before ++ t :: after) = (lzApply out t).bind fun out' => lzReconstructFrom out' after := by
  rw [lzReconstruct] at h ⊢
  rw [lzReconstructFrom_append, h]
  simp only [lzReconstructFrom]
  cases lzApply out t <;> rfl

/-- A token list stands for as many symbols as it covers. -/
theorem lzReconstructFrom_length {out out' : List Symbol} {toks : List Token}
    (h : lzReconstructFrom out toks = .ok out') : out'.length = out.length + symbolsCovered toks := by
  induction toks generalizing out with
  | nil => cases h; rfl
  | cons t toks ih =>
    rw [lzReconstructFrom] at h
    split at h
    · next out1 happly =>
      obtain ⟨-, -, rfl⟩ := (lzApply_ok_iff _ _ _).1 happly
      rw [ih h]
      simp [symbolsCovered]
      omega
    · cases h

theorem lzApply_of_unexecutable {out : List Symbol} {t : Token}
    (h : out.length < t.offset ∨ (t.offset = 0 ∧ 0 < t.length)) : lzApply out t = .error .malformedStream := by
  rw [lzApply]
  rcases h with hfar | ⟨hzero, hcopy⟩
  · exact if_pos hfar
  · rw [if_neg (by omega), if_pos ⟨hcopy, hzero⟩]

/-- A token that copies nothing appends its literal, whatever its offset inside the output. -/
theorem lzApply_of_length_zero {out : List Symbol} {t : Token} (hoff : t.offset ≤ out.length) (hlen : t.length = 0) :
    lzApply out t = .ok (out ++ [t.literal]) :=
  (lzApply_ok_iff _ _ _).2 ⟨hoff, .inl hlen, by rw [hlen]; rfl⟩

end Sys2Proof.Machine
end

section
/-! PROOFS. The match search (spec/41_lzmatcher.md R122 to R132): runs, the best of the candidates, the token each step
emits; and that reconstruction gives the symbols back (R144). -/

namespace Sys2Proof.Machine

/-! ### Runs (R124) -/

theorem getElem?_of_lt_commonPrefix {cap t : Nat} {a b : List Symbol} (h : t < commonPrefix cap a b) : a[t]? = b[t]? := by
  rw [← List.getElem?_take_of_lt h, commonPrefix_take, List.getElem?_take_of_lt h]

theorem le_commonPrefix {cap r : Nat} {a b : List Symbol} (hcap : r ≤ cap) (hb : r ≤ b.length)
    (h : ∀ t < r, a[t]? = b[t]?) : r ≤ commonPrefix cap a b := by
  induction r generalizing cap a b with
  | zero => exact Nat.zero_le _
  | succ r ih =>
    obtain ⟨cap, rfl⟩ := Nat.exists_eq_add_of_le' (Nat.one_le_of_lt hcap)
    obtain ⟨y, b, rfl⟩ := List.exists_cons_of_length_pos (Nat.zero_lt_of_lt hb)
    cases a with
    | nil => cases h 0 (Nat.succ_pos r)
    | cons x a =>
      have hxy : x = y := Option.some.inj (h 0 (Nat.succ_pos r))
      rw [commonPrefix, if_pos hxy]
      exact Nat.succ_le_succ (ih (Nat.le_of_succ_le_succ hcap) (Nat.le_of_succ_le_succ hb)
        fun t ht => h (t + 1) (Nat.succ_lt_succ ht))

theorem getElem?_of_lt_runLength {sym : List Symbol} {L j i t : Nat} (h : t < runLength sym L j i) :
    sym[j + t]? = sym[i + t]? := by
  simpa using getElem?_of_lt_commonPrefix h

theorem le_runLength {sym : List Symbol} {L j i r : Nat} (hcap : r ≤ min L (sym.length - 1 - i))
    (h : ∀ t < r, sym[j + t]? = sym[i + t]?) : r ≤ runLength sym L j i := by
  refine le_commonPrefix hcap ?_ fun t ht => ?_
  · rw [List.length_drop]; omega
  · simpa using h t ht

/-! ### The best candidate (R125) -/

/-- The best so far never gets shorter, and it is no shorter than the candidate just looked at. -/
theorem lzBetter_length (sym : List Symbol) (L i : Nat) (best : Nat × Nat) (j : Nat) :
    best.2 ≤ (lzBetter sym L i best j).2 ∧ runLength sym L j i ≤ (lzBetter sym L i best j).2 := by
  unfold lzBetter
  split
  · next h => exact ⟨h.le, le_rfl⟩
  · next h => exact ⟨le_rfl, not_lt.1 h⟩

/-- What scanning the candidates leaves: the best it began with, if no run is longer; otherwise the first candidate of the
greatest run. -/
theorem foldl_lzBetter_first (sym : List Symbol) (L i : Nat) (js : List Nat) (best : Nat × Nat) :
    let r := js.foldl (lzBetter sym L i) best
    (∀ j ∈ js, runLength sym L j i ≤ r.2) ∧
      (r = best ∨ best.2 < r.2 ∧ ∃ before j after, js = before ++ j :: after ∧ r = (i - j, runLength sym L j i) ∧
        ∀ k ∈ before, runLength sym L k i < runLength sym L j i) := by
  induction js using List.reverseRecOn with
  | nil => exact ⟨by simp, .inl rfl⟩
  | append_singleton js j ih =>
    simp only [List.foldl_append, List.foldl_cons, List.foldl_nil] at ih ⊢
    obtain ⟨hmax, hfirst⟩ := ih
    obtain ⟨hkeep, hnew⟩ := lzBetter_length sym L i (js.foldl (lzBetter sym L i) best) j
    refine ⟨fun k hk => ?_, ?_⟩
    · rcases List.mem_append.1 hk with hk | hk
      · exact (hmax k hk).trans hkeep
      · rw [List.mem_singleton.1 hk]; exact hnew
    · by_cases hlt : (js.foldl (lzBetter sym L i) best).2 < runLength sym L j i
      · have hbest : best.2 ≤ (js.foldl (lzBetter sym L i) best).2 := by
          rcases hfirst with h | ⟨h, -⟩
          · rw [h]
          · exact h.le
        rw [lzBetter, if_pos hlt]
        exact .inr ⟨hbest.trans_lt hlt, js, j, [], rfl, rfl, fun k hk => (hmax k hk).trans_lt hlt⟩
      · rw [lzBetter, if_neg hlt]
        refine hfirst.imp_right fun ⟨h, before, k, after, hjs, hr, hless⟩ => ?_
        exact ⟨h, before, k, after ++ [j], by rw [hjs]; simp, hr, hless⟩

theorem runLength_le_lzBest {sym : List Symbol} {W K i j : Nat} {index : HashIndex} (L : Nat)
    (h : j ∈ lzCandidates sym W K index i) : runLength sym L j i ≤ (lzBest sym W L K index i).2 :=
  (foldl_lzBetter_first sym L i _ (0, 0)).1 j h

/-- A best with a run is the first candidate of the greatest run. -/
theorem lzBest_first {sym : List Symbol} {W L K i : Nat} {index : HashIndex} (h : lzBest sym W L K index i ≠ (0, 0)) :
    ∃ before j after, lzCandidates sym W K index i = before ++ j :: after ∧
      lzBest sym W L K index i = (i - j, runLength sym L j i) ∧
      ∀ k ∈ before, runLength sym L k i < runLength sym L j i :=
  ((foldl_lzBetter_first sym L i _ (0, 0)).2.resolve_left h).2

theorem lzBest_eq_zero_iff {sym : List Symbol} {W L K i : Nat} {index : HashIndex} :
    lzBest sym W L K index i = (0, 0) ↔ ∀ j ∈ lzCandidates sym W K index i, runLength sym L j i = 0 := by
  constructor
  · intro h j hj
    exact Nat.eq_zero_of_le_zero ((runLength_le_lzBest L hj).trans_eq (congrArg Prod.snd h))
  · intro h
    by_contra hne
    obtain ⟨before, j, after, hjs, hbest, -⟩ := lzBest_first hne
    have hrun : runLength sym L j i = 0 := h j (by simp [hjs])
    have hbounds := lzBest_bounds sym W L K index i
    rw [hbest, hrun] at hbounds
    rcases hbounds with hz | ⟨-, -, hpos, -⟩
    · exact hne (by rw [hbest, hrun]; exact hz)
    · exact absurd hpos (Nat.not_succ_le_zero 0)

/-- A run stays off the last symbol, so its literal is inside the input (R127). -/
theorem lzBest_literal_lt {sym : List Symbol} {i : Nat} (hi : i < sym.length) (W L K : Nat) (index : HashIndex) :
    i + (lzBest sym W L K index i).2 < sym.length := by
  rcases lzBest_bounds sym W L K index i with h | ⟨-, -, -, h⟩
  · rw [h]; exact hi
  · omega

/-! ### Reconstructing a search's tokens (R144) -/

/-- Copying a run from its candidate continues the input. -/
theorem lzCopy_run {sym : List Symbol} {n j i : Nat} (hj : j < i) (hn : i + n ≤ sym.length)
    (h : ∀ t < n, sym[j + t]? = sym[i + t]?) : lzCopy n j (sym.take i) = sym.take (i + n) := by
  induction n generalizing i j with
  | zero => rfl
  | succ n ih =>
    have hi : i < sym.length := by omega
    have hsym : sym[j]? = some sym[i] := (h 0 (Nat.succ_pos n)).trans (List.getElem?_eq_getElem hi)
    have hread : (sym.take i).getD j 0 = sym[i] := by
      rw [List.getD_eq_getElem?_getD, List.getElem?_take_of_lt hj, hsym, Option.getD_some]
    rw [lzCopy, hread, List.take_append_getElem hi, ih (by omega) (by omega), Nat.add_assoc, Nat.add_comm 1]
    intro t ht
    have := h (t + 1) (Nat.succ_lt_succ ht)
    rwa [← Nat.add_assoc, ← Nat.add_assoc, Nat.add_right_comm, Nat.add_right_comm i] at this

/-- The token of the step at `i` continues the input from `i`, whatever the index holds: a candidate's run is compared
symbol for symbol. -/
theorem lzApply_lzBest {sym : List Symbol} {i : Nat} (hi : i < sym.length) (W L K : Nat) (index : HashIndex) :
    let best := lzBest sym W L K index i
    lzApply (sym.take i) ⟨best.1, best.2, sym.getD (i + best.2) 0⟩ = .ok (sym.take (i + best.2 + 1)) := by
  intro best
  have hlit : i + best.2 < sym.length := lzBest_literal_lt hi W L K index
  have hlen : (sym.take i).length = i := List.length_take_of_le hi.le
  rw [List.getD_eq_getElem _ _ hlit, ← List.take_append_getElem hlit]
  refine (lzApply_ok_iff _ _ _).2 ?_
  rw [hlen]
  by_cases hne : best = (0, 0)
  · simp [hne, lzCopy]
  · obtain ⟨before, j, after, hjs, hbest, -⟩ := lzBest_first hne
    obtain ⟨-, hj⟩ := mem_lzCandidates (show j ∈ lzCandidates sym W K index i by simp [hjs])
    have hoff : best.1 = i - j := congrArg Prod.fst hbest
    have hrun : best.2 = runLength sym L j i := congrArg Prod.snd hbest
    have hstart : i - best.1 = j := by omega
    refine ⟨by simp only [hoff]; omega, .inr (by simp only [hoff]; omega), ?_⟩
    rw [hstart, lzCopy_run hj hlit.le fun t ht => getElem?_of_lt_runLength (hrun ▸ ht)]

theorem lzReconstructFrom_lzMatchLoop (sym : List Symbol) (W L K : Nat) {fuel i : Nat} (hi : i ≤ sym.length)
    (hfuel : sym.length ≤ i + fuel) (index : HashIndex) :
    lzReconstructFrom (sym.take i) (lzMatchLoop sym W L K fuel index i) = .ok sym := by
  induction fuel generalizing i index with
  | zero => rw [lzMatchLoop, lzReconstructFrom, List.take_of_length_le (by omega)]
  | succ fuel ih =>
    rw [lzMatchLoop]
    split
    · next hlt =>
      have happly := lzApply_lzBest hlt W L K index
      have hlit := lzBest_literal_lt hlt W L K index
      simp only [lzReconstructFrom, happly]
      exact ih (by omega) (by omega) _
    · next hge => rw [lzReconstructFrom, List.take_of_length_le (not_lt.1 hge)]

theorem lzReconstruct_lzMatch (sym : List Symbol) (W L K : Nat) : lzReconstruct (lzMatch sym W L K) = .ok sym :=
  lzReconstructFrom_lzMatchLoop sym W L K (Nat.zero_le _) (Nat.le_add_left _ _) []

/-- Settles O31: after each token the output is the input up to the next step's position. -/
theorem lzMatchReconstructs : Obligations.LzMatchReconstructs :=
  fun sym W L K _ _ => lzReconstruct_lzMatch sym W L K

/-- Settles O38: a token is executed on the output of the tokens before it, and a search's tokens all are (R144). -/
theorem unexecutableTokensRaise : Obligations.UnexecutableTokensRaise := by
  refine ⟨fun before after t out hout h => ?_, fun before t out hout hoff hlen => ?_,
    fun sym W L K _ _ => ⟨sym, lzReconstruct_lzMatch sym W L K⟩⟩
  · rw [lzReconstruct_append_cons hout, lzApply_of_unexecutable h]
    rfl
  · rw [lzReconstruct_append_cons hout, lzApply_of_length_zero hoff hlen]
    rfl

/-! ### The token at each step (R125 to R128, R132) -/

@[simp] theorem symbolsCovered_nil : symbolsCovered [] = 0 := rfl

@[simp] theorem symbolsCovered_cons (t : Token) (toks : List Token) :
    symbolsCovered (t :: toks) = t.length + 1 + symbolsCovered toks := rfl

@[simp] theorem symbolsCovered_append (a b : List Token) :
    symbolsCovered (a ++ b) = symbolsCovered a + symbolsCovered b := by
  simp [symbolsCovered]

theorem symbolsCovered_lzMatch (sym : List Symbol) (W L K : Nat) : symbolsCovered (lzMatch sym W L K) = sym.length := by
  simpa using (lzReconstructFrom_length (lzReconstruct_lzMatch sym W L K)).symm

/-- The registrations of the steps that emitted `before`, the first of them at position `i` (R126). -/
def registrationsFrom (sym : List Symbol) (K : Nat) : Nat → List Token → HashIndex
  | _, [] => []
  | i, t :: before => lzRegistrations sym K i ++ registrationsFrom sym K (i + t.length + 1) before

theorem registrationsFrom_eq_flatMap (sym : List Symbol) (K i : Nat) (before : List Token) :
    registrationsFrom sym K i before =
      (List.range before.length).flatMap fun k => lzRegistrations sym K (i + symbolsCovered (before.take k)) := by
  induction before generalizing i with
  | nil => rfl
  | cons t before ih =>
    rw [registrationsFrom, ih, List.length_cons, List.range_succ_eq_map, List.flatMap_cons, List.flatMap_map]
    simp [Nat.add_assoc]

theorem registrationsFrom_zero (sym : List Symbol) (K : Nat) (before : List Token) :
    registrationsFrom sym K 0 before = indexAfter sym K before := by
  simp [registrationsFrom_eq_flatMap, indexAfter]

/-- The token that follows `before` is the one of the step at the position `before` leads to, on the index its steps
built. -/
theorem lzMatchLoop_token {sym : List Symbol} {W L K fuel i : Nat} {index : HashIndex} {before after : List Token}
    {t : Token} (h : lzMatchLoop sym W L K fuel index i = before ++ t :: after) :
    i + symbolsCovered before < sym.length ∧
      (t.offset, t.length) = lzBest sym W L K (index ++ registrationsFrom sym K i before) (i + symbolsCovered before) ∧
      t.literal = sym.getD (i + symbolsCovered before + t.length) 0 := by
  induction before generalizing fuel i index with
  | nil =>
    cases fuel with
    | zero => cases h
    | succ fuel =>
      rw [lzMatchLoop] at h
      split at h
      · next hi =>
        cases h
        simpa [registrationsFrom] using hi
      · cases h
  | cons u before ih =>
    cases fuel with
    | zero => cases h
    | succ fuel =>
      rw [lzMatchLoop] at h
      split at h
      · obtain ⟨rfl, htail⟩ := List.cons.inj h
        have := ih htail
        simpa only [registrationsFrom, symbolsCovered_cons, List.append_assoc, Nat.add_assoc] using this
      · cases h

/-- R125, R127: the token of a search after `before`, with the symbol after its run. -/
theorem lzMatch_token {sym : List Symbol} {W L K : Nat} {before after : List Token} {t : Token}
    (h : lzMatch sym W L K = before ++ t :: after) :
    (t.offset, t.length) = lzBest sym W L K (indexAfter sym K before) (symbolsCovered before) ∧
      sym[symbolsCovered before + t.length]? = some t.literal := by
  obtain ⟨hi, hbest, hlit⟩ := lzMatchLoop_token h
  rw [List.nil_append, registrationsFrom_zero, Nat.zero_add] at hbest
  rw [Nat.zero_add] at hi hlit
  have hlt := lzBest_literal_lt hi W L K (indexAfter sym K before)
  rw [← hbest] at hlt
  exact ⟨hbest, by rw [hlit, List.getD_eq_getElem _ _ hlt, List.getElem?_eq_getElem hlt]⟩

/-- R132 (a): the last token's literal is the last symbol, since the lengths plus one sum to the number of symbols. -/
theorem lzMatch_getLast?_literal (sym : List Symbol) (W L K : Nat) :
    (lzMatch sym W L K).getLast?.map Token.literal = sym.getLast? := by
  have hsum := symbolsCovered_lzMatch sym W L K
  rcases List.eq_nil_or_concat' (lzMatch sym W L K) with hnil | ⟨before, t, hlast⟩
  · rw [hnil] at hsum ⊢
    rw [List.eq_nil_of_length_eq_zero hsum.symm]
    rfl
  · obtain ⟨-, hlit⟩ := lzMatch_token hlast
    rw [hlast, symbolsCovered_append] at hsum
    have hend : sym.length - 1 = symbolsCovered before + t.length := by simp at hsum; omega
    rw [hlast, List.getLast?_concat, List.getLast?_eq_getElem?, hend, hlit]
    rfl

/-- Settles O32: runs by `commonPrefix`, the best by scanning the candidates, the tokens step by step; the bounds are those
of the best. -/
theorem lzMatchTokenShape : Obligations.LzMatchTokenShape := by
  refine ⟨fun sym L j i => ⟨runLength_le sym L j i, fun t => getElem?_of_lt_runLength, fun r => le_runLength⟩,
    fun sym W L K index i => ⟨fun j => runLength_le_lzBest L, lzBest_eq_zero_iff, lzBest_first⟩,
    fun sym W L K _ _ => ⟨lzMatch_getLast?_literal sym W L K, symbolsCovered_lzMatch sym W L K,
      fun before after t h => ?_⟩, by decide⟩
  obtain ⟨hbest, hlit⟩ := lzMatch_token h
  refine ⟨hbest, hlit, ?_⟩
  have hbounds := lzBest_bounds sym W L K (indexAfter sym K before) (symbolsCovered before)
  rw [← hbest] at hbounds
  exact hbounds.imp_left Prod.mk.inj

/-! ### Searches that find nothing (R138) -/

theorem lzCandidates_eq_nil {sym : List Symbol} {W K : Nat} (h : W = 0 ∨ sym.length < K) (index : HashIndex) (i : Nat) :
    lzCandidates sym W K index i = [] := by
  refine List.eq_nil_iff_forall_not_mem.2 fun j hj => ?_
  obtain ⟨hwindow, hlt⟩ := mem_lzCandidates hj
  rcases h with hW | hK
  · omega
  · rw [lzCandidates, if_neg (by omega)] at hj
    cases hj

/-- With an empty window, or fewer symbols than a key, every token is a literal. -/
theorem lzMatchLoop_literals {sym : List Symbol} {W K : Nat} (h : W = 0 ∨ sym.length < K) (L : Nat) {fuel i : Nat}
    (hfuel : sym.length ≤ i + fuel) (index : HashIndex) :
    lzMatchLoop sym W L K fuel index i = (sym.drop i).map fun c => ⟨0, 0, c⟩ := by
  induction fuel generalizing i index with
  | zero => rw [List.drop_of_length_le (by omega)]; rfl
  | succ fuel ih =>
    rw [lzMatchLoop]
    split
    · next hi =>
      have hbest : lzBest sym W L K index i = (0, 0) := by rw [lzBest, lzCandidates_eq_nil h]; rfl
      simp only [hbest, Nat.add_zero]
      rw [ih (by omega), List.getD_eq_getElem _ _ hi, List.drop_eq_getElem_cons hi, List.map_cons]
    · next hi => rw [List.drop_of_length_le (not_lt.1 hi)]; rfl

end Sys2Proof.Machine
end

section
/-! PROOFS. The hash index (spec/10_state.md R39; spec/41_lzmatcher.md R122, R123, R126, R130, R131): what a lookup returns,
and that a position registered twice is not noticed. -/

namespace Sys2Proof.Machine

/-! ### Lookups (R130) -/

/-- A lookup in one step's registrations: the full k-grams that equal the key, in ascending start position. -/
theorem hashLookup_lzRegistrations (sym : List Symbol) (K i : Nat) (key : List Symbol) :
    hashLookup (lzRegistrations sym K i) key =
      (List.range' (i + 1 - K) (i + 1 - (i + 1 - K))).filter
        fun p => decide (p + K ≤ sym.length) && (slice sym p (p + K) == key) := by
  rw [hashLookup, lzRegistrations, List.filter_map, List.map_map, List.filter_filter]
  exact (List.map_id _).trans (List.filter_congr fun p _ => Bool.and_comm _ _)

theorem hashLookup_flatMap (steps : List Nat) (f : Nat → HashIndex) (key : List Symbol) :
    hashLookup (steps.flatMap f) key = steps.flatMap fun i => hashLookup (f i) key := by
  rw [hashLookup, List.filter_flatMap, List.map_flatMap]
  rfl

theorem hashLookup_steps (sym : List Symbol) (K : Nat) (steps : List Nat) (key : List Symbol) :
    hashLookup (steps.flatMap (lzRegistrations sym K)) key =
      (steps.flatMap fun i => List.range' (i + 1 - K) (i + 1 - (i + 1 - K))).filter
        fun p => decide (p + K ≤ sym.length) && (slice sym p (p + K) == key) := by
  simp only [hashLookup_flatMap, hashLookup_lzRegistrations, List.filter_flatMap]

/-- The window test written with a signed difference, as in R122. -/
theorem decide_window (W i p : Nat) : decide ((i : Int) - W ≤ p) = decide (i ≤ p + W) :=
  decide_eq_decide.2 (by omega)

/-- Settles O34: a lookup filters each step's registrations by the key, the candidates filter the lookup by the window. -/
theorem lzLookupIsExact : Obligations.LzLookupIsExact := by
  intro sym K steps starts
  refine ⟨fun key _ => hashLookup_steps sym K steps key, fun W i h => ?_, fun W i h => ?_⟩
  · rw [lzCandidates, if_pos h, hashLookup_steps, List.filter_filter]
    refine List.filter_congr fun p _ => ?_
    rw [decide_window, Bool.and_comm, ← Bool.and_assoc]
  · rw [lzCandidates, if_neg (not_le.2 h)]

/-! ### Duplicate registrations (R131) -/

/-- What one entry of the index does to the best of the step at `i`: a candidate is compared, any other entry passed over. -/
def lzConsider (sym : List Symbol) (W L K i : Nat) (best : Nat × Nat) (e : List Symbol × Nat) : Nat × Nat :=
  if i + K ≤ sym.length ∧ e.1 = slice sym i (i + K) ∧ i ≤ e.2 + W ∧ e.2 < i then lzBetter sym L i best e.2 else best

theorem lzBest_eq_foldl (sym : List Symbol) (W L K : Nat) (index : HashIndex) (i : Nat) :
    lzBest sym W L K index i = index.foldl (lzConsider sym W L K i) (0, 0) := by
  rw [lzBest, lzCandidates]
  split
  · next h =>
    rw [hashLookup, List.foldl_filter, List.foldl_map, List.foldl_filter]
    congr 1
    funext best e
    by_cases hkey : e.1 = slice sym i (i + K) <;> simp [lzConsider, h, hkey]
  · next h =>
    have hskip : lzConsider sym W L K i = fun best _ => best := by
      funext best e
      exact if_neg fun hc => h hc.1
    rw [hskip, List.foldl_fixed]
    rfl

/-- An entry does not change the best when it is no candidate or its run is no longer. -/
theorem lzConsider_eq_self_iff {sym : List Symbol} {W L K i : Nat} {best : Nat × Nat} {e : List Symbol × Nat} :
    lzConsider sym W L K i best e = best ↔
      (i + K ≤ sym.length ∧ e.1 = slice sym i (i + K) ∧ i ≤ e.2 + W ∧ e.2 < i → runLength sym L e.2 i ≤ best.2) := by
  rw [lzConsider]
  split
  · next hc =>
    constructor
    · intro h _
      rw [← congrArg Prod.snd h]
      exact (lzBetter_length sym L i best e.2).2
    · intro h
      exact if_neg (not_lt.2 (h hc))
  · next hc => simp [hc]

theorem lzConsider_length_le (sym : List Symbol) (W L K i : Nat) (best : Nat × Nat) (e : List Symbol × Nat) :
    best.2 ≤ (lzConsider sym W L K i best e).2 := by
  rw [lzConsider]
  split
  · exact (lzBetter_length sym L i best e.2).1
  · exact le_rfl

/-- An entry without effect stays without effect. -/
theorem lzConsider_settled {sym : List Symbol} {W L K i : Nat} {best : Nat × Nat} {e : List Symbol × Nat}
    (h : lzConsider sym W L K i best e = best) (e' : List Symbol × Nat) :
    lzConsider sym W L K i (lzConsider sym W L K i best e') e = lzConsider sym W L K i best e' :=
  lzConsider_eq_self_iff.2 fun hc => (lzConsider_eq_self_iff.1 h hc).trans (lzConsider_length_le ..)

/-- Considered a second time, an entry has no effect. -/
theorem lzConsider_again (sym : List Symbol) (W L K i : Nat) (best : Nat × Nat) (e : List Symbol × Nat) :
    lzConsider sym W L K i (lzConsider sym W L K i best e) e = lzConsider sym W L K i best e := by
  refine lzConsider_eq_self_iff.2 fun hc => ?_
  rw [lzConsider, if_pos hc]
  exact (lzBetter_length sym L i best e.2).2

theorem foldl_lzConsider_settled {sym : List Symbol} {W L K i : Nat} (index : HashIndex) {best : Nat × Nat}
    {e : List Symbol × Nat} (h : e ∈ index ∨ lzConsider sym W L K i best e = best) :
    lzConsider sym W L K i (index.foldl (lzConsider sym W L K i) best) e =
      index.foldl (lzConsider sym W L K i) best := by
  induction index generalizing best with
  | nil => exact h.resolve_left List.not_mem_nil
  | cons x index ih =>
    refine ih ?_
    rcases h with hmem | h
    · rcases List.mem_cons.1 hmem with rfl | hmem
      · exact .inr (lzConsider_again ..)
      · exact .inl hmem
    · exact .inr (lzConsider_settled h x)

/-- Leaving out entries without effect changes nothing. -/
theorem foldl_lzConsider_filter {sym : List Symbol} {W L K i : Nat} {seen : HashIndex} (new : HashIndex)
    {best : Nat × Nat} (h : ∀ e ∈ seen, lzConsider sym W L K i best e = best) :
    (new.filter fun e => !seen.contains e).foldl (lzConsider sym W L K i) best =
      new.foldl (lzConsider sym W L K i) best := by
  induction new generalizing best with
  | nil => rfl
  | cons x new ih =>
    rw [List.filter_cons, List.foldl_cons]
    by_cases hx : x ∈ seen
    · rw [if_neg (by simpa using hx), h x hx, ih h]
    · rw [if_pos (by simpa using hx), List.foldl_cons, ih fun e he => lzConsider_settled (h e he) x]

/-- Two indexes no step can tell apart: the same entries, and the same best at every position. -/
def sameBests (sym : List Symbol) (W L K : Nat) (once index : HashIndex) : Prop :=
  (∀ e, e ∈ once ↔ e ∈ index) ∧ ∀ i, lzBest sym W L K once i = lzBest sym W L K index i

theorem sameBests_append {sym : List Symbol} {W L K : Nat} {once index : HashIndex}
    (h : sameBests sym W L K once index) (new : HashIndex) :
    sameBests sym W L K (once ++ new.filter fun e => !once.contains e) (index ++ new) := by
  obtain ⟨hmem, hbest⟩ := h
  refine ⟨fun e => ?_, fun i => ?_⟩
  · by_cases he : e ∈ once <;> simp [← hmem, he]
  · have := hbest i
    rw [lzBest_eq_foldl, lzBest_eq_foldl] at this ⊢
    rw [List.foldl_append, List.foldl_append, foldl_lzConsider_filter, this]
    exact fun e he => foldl_lzConsider_settled once (.inl he)

theorem lzMatchOnceLoop_eq {sym : List Symbol} {W L K : Nat} (fuel : Nat) {once index : HashIndex}
    (h : sameBests sym W L K once index) (i : Nat) :
    lzMatchOnceLoop sym W L K fuel once i = lzMatchLoop sym W L K fuel index i := by
  induction fuel generalizing once index i with
  | zero => rfl
  | succ fuel ih =>
    rw [lzMatchOnceLoop, lzMatchLoop, h.2 i]
    simp only [ih (sameBests_append h (lzRegistrations sym K i))]

/-- Settles O33: a repeated entry never has a strictly longer run than when it was first considered. -/
theorem lzDuplicatesAreUnobservable : Obligations.LzDuplicatesAreUnobservable :=
  fun sym _ _ _ => lzMatchOnceLoop_eq sym.length ⟨fun _ => Iff.rfl, fun _ => rfl⟩ 0

end Sys2Proof.Machine
end

section
/-! PROOFS. The token stream (spec/30_encoding.md R82, R83; spec/41_lzmatcher.md R136, R137): a reader sees only what follows
its cursor, the round trip (R145), and streams cut short, padded, or with a number too wide. -/

namespace Sys2Proof.Machine

/-! ### A reader sees only what follows its cursor -/

theorem numDecode_eq_map (numBits : Limit) (S : Nat) (b : Bits) (pos : Nat) :
    numDecode numBits S b pos = (numDecodeFront numBits S (b.drop pos)).map fun r => (r.1, pos + r.2) := by
  unfold numDecode
  cases numDecodeFront numBits S (b.drop pos) <;> rfl

/-- A token is read from `pos` as it is read from the front of what follows `pos`. -/
theorem lzDeserToken_eq_map (numBits : Limit) (S B : Nat) (b : Bits) (pos : Nat) :
    lzDeserToken numBits S B b pos = (lzDeserToken numBits S B (b.drop pos) 0).map fun r => (r.1, pos + r.2) := by
  simp only [lzDeserToken, numDecode_eq_map, List.drop_zero, Nat.zero_add]
  cases numDecodeFront numBits S (b.drop pos) with
  | error e => rfl
  | ok o =>
    simp only [Except.map, List.drop_drop]
    cases numDecodeFront numBits S (b.drop (pos + o.2)) with
    | error e => rfl
    | ok l =>
      simp only [List.length_drop, slice, List.drop_drop, Nat.sub_sub, ← Nat.add_assoc, Nat.add_sub_cancel_left]
      split
      · rfl
      · simp only [Nat.add_assoc]

theorem lzDeserLoop_of_le {fuel pos : Nat} {b : Bits} (h : b.length ≤ pos) (numBits : Limit) (S B : Nat) :
    lzDeserLoop numBits S B b fuel pos = .ok [] := by
  cases fuel <;> exact if_neg (not_lt.2 h)

theorem lzDeserLoop_succ_of_lt {fuel pos : Nat} {b : Bits} (h : pos < b.length) (numBits : Limit) (S B : Nat) :
    lzDeserLoop numBits S B b (fuel + 1) pos =
      (lzDeserToken numBits S B b pos).bind fun r => (lzDeserLoop numBits S B b fuel r.2).map (r.1 :: ·) := by
  rw [lzDeserLoop, if_pos h]
  cases lzDeserToken numBits S B b pos with
  | error e => rfl
  | ok r =>
    simp only [Except.bind]
    cases lzDeserLoop numBits S B b fuel r.2 <;> rfl

/-- Two cursors with the same bits after them read the same tokens, as long as neither has too little fuel. -/
theorem lzDeserLoop_congr {numBits : Limit} {S B fuel fuel' pos pos' : Nat} {b b' : Bits}
    (h : b.drop pos = b'.drop pos') (hfuel : b.length ≤ pos + fuel) (hfuel' : b'.length ≤ pos' + fuel') :
    lzDeserLoop numBits S B b fuel pos = lzDeserLoop numBits S B b' fuel' pos' := by
  have hleft : b.length - pos = b'.length - pos' := by
    rw [← List.length_drop, ← List.length_drop, h]
  induction fuel generalizing fuel' pos pos' with
  | zero => rw [lzDeserLoop_of_le (by omega), lzDeserLoop_of_le (by omega)]
  | succ fuel ih =>
    rcases lt_or_ge pos b.length with hlt | hge
    · obtain ⟨fuel', rfl⟩ := Nat.exists_eq_add_of_le' (show 1 ≤ fuel' by omega)
      rw [lzDeserLoop_succ_of_lt hlt, lzDeserLoop_succ_of_lt (by omega), lzDeserToken_eq_map, h,
        lzDeserToken_eq_map _ _ _ b']
      cases htok : lzDeserToken numBits S B (b'.drop pos') 0 with
      | error e => rfl
      | ok r =>
        obtain ⟨hpos, -⟩ := lzDeserToken_ok htok
        have hdrop : b.drop (pos + r.2) = b'.drop (pos' + r.2) := by
          rw [← List.drop_drop, h, List.drop_drop]
        have := ih (pos := pos + r.2) (pos' := pos' + r.2) (fuel' := fuel') hdrop (by omega) (by omega) (by omega)
        simp only [Except.map, Except.bind, this]
    · rw [lzDeserLoop_of_le hge, lzDeserLoop_of_le (by omega)]

@[simp] theorem lzDeserialize_nil (numBits : Limit) (S B : Nat) : lzDeserialize numBits S B [] = .ok [] := rfl

/-- R137: the first token, then the tokens of what follows it. -/
theorem lzDeserialize_of_ne_nil {b : Bits} (hb : b ≠ []) (numBits : Limit) (S B : Nat) :
    lzDeserialize numBits S B b =
      (lzDeserToken numBits S B b 0).bind fun r => (lzDeserialize numBits S B (b.drop r.2)).map (r.1 :: ·) := by
  have hlen : 0 < b.length := List.length_pos_iff.2 hb
  obtain ⟨fuel, hfuel⟩ := Nat.exists_eq_add_of_le' hlen
  rw [lzDeserialize, hfuel, lzDeserLoop_succ_of_lt hlen]
  cases htok : lzDeserToken numBits S B b 0 with
  | error e => rfl
  | ok r =>
    obtain ⟨hpos, -⟩ := lzDeserToken_ok htok
    have hrest : lzDeserLoop numBits S B b fuel r.2 = lzDeserialize numBits S B (b.drop r.2) :=
      lzDeserLoop_congr (List.drop_zero).symm (by omega) (by omega)
    simp only [Except.bind, hrest]

theorem lzDeserialize_of_token_error {numBits : Limit} {S B : Nat} {b : Bits} {e : ErrorKind} (hb : b ≠ [])
    (h : lzDeserToken numBits S B b 0 = .error e) : lzDeserialize numBits S B b = .error e := by
  rw [lzDeserialize_of_ne_nil hb, h]
  rfl

/-! ### The round trip (R145) -/

theorem tokenBits_ne_nil (S B : Nat) (t : Token) : tokenBits S B t ≠ [] := by
  have := numCode_length_pos S t.offset
  rw [← List.length_pos_iff, tokenBits, List.length_append, List.length_append]
  omega

theorem streamOf_cons (S B : Nat) (t : Token) (toks : List Token) :
    streamOf S B (t :: toks) = tokenBits S B t ++ streamOf S B toks := rfl

theorem streamOf_singleton (S B : Nat) (t : Token) : streamOf S B [t] = tokenBits S B t :=
  List.append_nil _

/-- R136: the literals fit, so the list is serialized to its stream. -/
theorem lzSerialize_eq_streamOf {B : Nat} {toks : List Token} (h : literalsFit B toks) (S : Nat) :
    lzSerialize S B toks = .ok (streamOf S B toks) :=
  lzSerialize_fits h

theorem numDecode_numCode_front {numBits : Limit} {n : Nat} (h : numBits.fits n = true) (S : Nat) (t : Bits) :
    numDecode numBits S (numCode S n ++ t) 0 = .ok (n, (numCode S n).length) := by
  simpa using numDecode_numCode h S [] t

/-- A token is read back with the low `B` bits of its literal, which are the literal itself where it fits. -/
theorem lzDeserToken_tokenBits {numBits : Limit} {t : Token} (hoff : numBits.fits t.offset = true)
    (hlen : numBits.fits t.length = true) (S B : Nat) (rest : Bits) :
    lzDeserToken numBits S B (tokenBits S B t ++ rest) 0 =
      .ok ({ t with literal := t.literal % 2 ^ B }, (tokenBits S B t).length) := by
  have hfirst := numDecode_numCode_front hoff S (numCode S t.length ++ (bitsOf B t.literal ++ rest))
  have hsecond := numDecode_numCode hlen S (numCode S t.offset) (bitsOf B t.literal ++ rest)
  have hfield : slice (numCode S t.offset ++ (numCode S t.length ++ (bitsOf B t.literal ++ rest)))
      ((numCode S t.offset).length + (numCode S t.length).length)
      ((numCode S t.offset).length + (numCode S t.length).length + B) = bitsOf B t.literal := by
    rw [slice, ← List.append_assoc, List.drop_left' List.length_append, Nat.add_sub_cancel_left,
      List.take_left' (bitsOf_length B _)]
  simp only [tokenBits, List.append_assoc, lzDeserToken, hfirst, hsecond, hfield, uint_bitsOf_mod, List.length_append,
    bitsOf_length, ← Nat.add_assoc]
  rw [if_neg (by omega)]

/-- The stream of a list, whatever follows it, is read as the list and then what follows. -/
theorem lzDeserialize_streamOf_append {numBits : Limit} {B : Nat} {toks : List Token} (hlit : literalsFit B toks)
    (hnum : numbersFit numBits toks) (S : Nat) (rest : Bits) :
    lzDeserialize numBits S B (streamOf S B toks ++ rest) = (lzDeserialize numBits S B rest).map (toks ++ ·) := by
  induction toks with
  | nil => cases h : lzDeserialize numBits S B rest <;> simp [streamOf, h, Except.map]
  | cons t toks ih =>
    obtain ⟨hlit1, hlit⟩ := List.forall_mem_cons.1 hlit
    obtain ⟨⟨hoff, hlen⟩, hnum⟩ := List.forall_mem_cons.1 hnum
    have hne : tokenBits S B t ++ (streamOf S B toks ++ rest) ≠ [] :=
      List.append_ne_nil_of_left_ne_nil (tokenBits_ne_nil S B t) _
    rw [streamOf_cons, List.append_assoc, lzDeserialize_of_ne_nil hne, lzDeserToken_tokenBits hoff hlen,
      Nat.mod_eq_of_lt hlit1]
    simp only [Except.bind, List.drop_left, ih hlit hnum]
    cases lzDeserialize numBits S B rest <;> rfl

theorem lzDeserialize_streamOf {numBits : Limit} {B : Nat} {toks : List Token} (hlit : literalsFit B toks)
    (hnum : numbersFit numBits toks) (S : Nat) : lzDeserialize numBits S B (streamOf S B toks) = .ok toks := by
  simpa [Except.map] using lzDeserialize_streamOf_append hlit hnum S []

theorem lzDeserialize_streamOf_append_error {numBits : Limit} {S B : Nat} {toks : List Token} {rest : Bits}
    {e : ErrorKind} (hlit : literalsFit B toks) (hnum : numbersFit numBits toks)
    (h : lzDeserialize numBits S B rest = .error e) :
    lzDeserialize numBits S B (streamOf S B toks ++ rest) = .error e := by
  rw [lzDeserialize_streamOf_append hlit hnum, h]
  rfl

/-- Settles O41: by induction on the list, each token is read back and the stream of the rest remains. -/
theorem tokenStreamRoundTrip : Obligations.TokenStreamRoundTrip :=
  fun toks S B _ hlit hnum => ⟨streamOf S B toks, lzSerialize_eq_streamOf hlit S, lzDeserialize_streamOf hlit hnum S⟩

/-! ### Zero bits after the stream (R235) -/

theorem lzDeserialize_zeros (numBits : Limit) (S B k : Nat) :
    lzDeserialize numBits S B (zeros (k + 1)) = .error .malformedStream := by
  refine lzDeserialize_of_token_error (List.cons_ne_nil _ _) ?_
  simp only [lzDeserToken, numDecode, List.drop_zero, numDecodeFront_zeros]

/-! ### A stream cut inside a token (R203)

More bits at the end change a reader's answer only if that answer was `MalformedStream`. A token cut short is therefore
`MalformedStream`: any other answer would be that of the whole token, which ends beyond the cut. -/

theorem leadingZeros_append {u : Bits} (h : leadingZeros u < u.length) (y : Bits) :
    leadingZeros (u ++ y) = leadingZeros u := by
  induction u with
  | nil => cases h
  | cons x u ih =>
    cases x with
    | true => rfl
    | false => exact congrArg Nat.succ (ih (Nat.lt_of_succ_lt_succ h))

theorem numDecodeFront_unmarked {u : Bits} (h : leadingZeros u = u.length) (numBits : Limit) (S : Nat) :
    numDecodeFront numBits S u = .error .malformedStream := by
  match u with
  | [] => rfl
  | true :: _ => cases h
  | false :: _ => exact if_pos h

/-- The large form: all three length checks pass, and they and the fields lie inside the first part. -/
theorem numDecodeFront_append_large {numBits : Limit} {S : Nat} {u : Bits} (hpos : 1 ≤ leadingZeros u)
    (h : numDecodeFront numBits S u ≠ .error .malformedStream) (y : Bits) :
    numDecodeFront numBits S (u ++ y) = numDecodeFront numBits S u := by
  have hmarked : leadingZeros u < u.length :=
    lt_of_le_of_ne (leadingZeros_le u) fun hall => h (numDecodeFront_unmarked hall numBits S)
  have hlen : (u ++ y).length = u.length + y.length := List.length_append
  rw [numDecodeFront_large_eq rfl hpos hmarked] at h ⊢
  have hfirst : 2 * leadingZeros u ≤ u.length := not_lt.1 fun hcut => h (if_pos hcut)
  rw [if_neg (not_lt.2 hfirst)] at h ⊢
  have hsecond : 2 * leadingZeros u + uint (slice u (leadingZeros u) (2 * leadingZeros u)) ≤ u.length :=
    not_lt.1 fun hcut => h (if_pos hcut)
  rw [numDecodeFront_large_eq (leadingZeros_append hmarked y) hpos (by omega), if_neg (by omega)]
  simp only [slice_append_left hfirst, slice_append_left hsecond, if_neg (not_lt.2 hsecond), hlen]
  rw [if_neg (by omega)]

theorem numDecodeFront_append {numBits : Limit} {S : Nat} {u : Bits}
    (h : numDecodeFront numBits S u ≠ .error .malformedStream) (y : Bits) :
    numDecodeFront numBits S (u ++ y) = numDecodeFront numBits S u := by
  match u with
  | [] => exact absurd rfl h
  | true :: rest =>
    have hlong : S ≤ rest.length := not_lt.1 fun hcut => h (numDecodeFront_small_cut hcut numBits)
    have hmore : S ≤ (rest ++ y).length := by rw [List.length_append]; omega
    rw [List.cons_append, numDecodeFront, numDecodeFront, if_neg (not_lt.2 hlong), if_neg (not_lt.2 hmore),
      List.take_append_of_le_length hlong]
  | false :: rest => exact numDecodeFront_append_large (u := false :: rest) (Nat.succ_pos _) h y

theorem numDecode_append {numBits : Limit} {S pos : Nat} {b : Bits}
    (h : numDecode numBits S b pos ≠ .error .malformedStream) (y : Bits) :
    numDecode numBits S (b ++ y) pos = numDecode numBits S b pos := by
  rw [numDecode_eq_map] at h
  have hfront : numDecodeFront numBits S (b.drop pos) ≠ .error .malformedStream := fun he => h (by rw [he]; rfl)
  have hpos : pos ≤ b.length := by
    by_contra hbeyond
    exact hfront (by rw [List.drop_of_length_le (by omega)]; rfl)
  rw [numDecode_eq_map, numDecode_eq_map, List.drop_append_of_le_length hpos, numDecodeFront_append hfront]

theorem lzDeserToken_append {numBits : Limit} {S B : Nat} {b : Bits}
    (h : lzDeserToken numBits S B b 0 ≠ .error .malformedStream) (y : Bits) :
    lzDeserToken numBits S B (b ++ y) 0 = lzDeserToken numBits S B b 0 := by
  unfold lzDeserToken at h ⊢
  have hoff : numDecode numBits S b 0 ≠ .error .malformedStream := fun he => h (by simp only [he])
  rw [numDecode_append hoff]
  cases hfirst : numDecode numBits S b 0 with
  | error e => rfl
  | ok o =>
    simp only [hfirst] at h ⊢
    have hlen : numDecode numBits S b o.2 ≠ .error .malformedStream := fun he => h (by simp only [he])
    rw [numDecode_append hlen]
    cases hsecond : numDecode numBits S b o.2 with
    | error e => rfl
    | ok l =>
      simp only [hsecond] at h ⊢
      have hlit : B ≤ b.length - l.2 := not_lt.1 fun hcut => h (if_pos hcut)
      obtain ⟨-, hin, -⟩ := numDecode_ok hsecond
      have hmore : B ≤ (b ++ y).length - l.2 := by rw [List.length_append]; omega
      rw [if_neg (not_lt.2 hlit), if_neg (not_lt.2 hmore), slice_append_left (by omega)]

/-- R203 (a), (b): a proper part of a token. -/
theorem lzDeserialize_cut_token {numBits : Limit} {S B : Nat} {t : Token} {x y : Bits}
    (hoff : numBits.fits t.offset = true) (hlen : numBits.fits t.length = true)
    (hsplit : tokenBits S B t = x ++ y) (hx : x ≠ []) (hy : y ≠ []) :
    lzDeserialize numBits S B x = .error .malformedStream := by
  refine lzDeserialize_of_token_error hx ?_
  by_contra h
  have hwhole := lzDeserToken_tokenBits hoff hlen S B []
  rw [List.append_nil, hsplit, lzDeserToken_append h] at hwhole
  obtain ⟨-, hin, -⟩ := lzDeserToken_ok hwhole
  rw [List.length_append] at hin
  have := List.length_pos_iff.2 hy
  omega

/-! ### A number wider than `NUM_BITS` (R202 (e)) -/

theorem not_allows_bitlen_of_not_fits {width : Limit} {n : Nat} (h : width.fits n = false) :
    width.allows (bitlen n) = false :=
  Bool.eq_false_iff.2 fun hallows => Bool.eq_false_iff.1 h (fits_of_allows hallows (lt_two_pow_bitlen n))

theorem numDecodeFront_numCode_wide {numBits : Limit} {S n : Nat} (hlarge : 2 ^ S ≤ n)
    (hwide : numBits.fits n = false) (t : Bits) :
    numDecodeFront numBits S (numCode S n ++ t) = .error .capacityExceeded := by
  obtain ⟨f, hf⟩ := exists_minbits_eq_cons (bitlen_pos (Nat.one_le_two_pow.trans hlarge))
  have hwidth : bitlen (bitlen n) = f.length + 1 := by rw [← minbits_length, hf, List.length_cons]
  have hg : (minbits n).length = uint (true :: f) := by rw [minbits_length, ← hf, uint_minbits]
  rw [numCode_of_le hlarge, hf, hwidth, numDecodeFront_large_full hg, minbits_length,
    not_allows_bitlen_of_not_fits hwide]
  rfl

/-- The number may stand where an offset is read, or after an offset's code, where a length is. -/
theorem lzDeserialize_wide {numBits : Limit} {S n : Nat} {x : Bits}
    (hx : x = [] ∨ ∃ o, numBits.fits o = true ∧ x = numCode S o) (hlarge : 2 ^ S ≤ n)
    (hwide : numBits.fits n = false) (B : Nat) (rest : Bits) :
    lzDeserialize numBits S B (x ++ (numCode S n ++ rest)) = .error .capacityExceeded := by
  have hcode := numDecodeFront_numCode_wide hlarge hwide rest
  have hne : x ++ (numCode S n ++ rest) ≠ [] :=
    List.append_ne_nil_of_right_ne_nil _
      (List.append_ne_nil_of_left_ne_nil (List.length_pos_iff.1 (numCode_length_pos S n)) _)
  refine lzDeserialize_of_token_error hne ?_
  rcases hx with rfl | ⟨o, ho, rfl⟩
  · simp only [List.nil_append, lzDeserToken, numDecode, List.drop_zero, hcode]
  · have hafter : numDecode numBits S (numCode S o ++ (numCode S n ++ rest)) (numCode S o).length =
        .error .capacityExceeded := by
      simp only [numDecode, List.drop_left, hcode]
    simp only [lzDeserToken, numDecode_numCode_front ho, hafter]

end Sys2Proof.Machine
end

section
/-! PROOFS. What each LZ command's pseudocode ends in (spec/41_lzmatcher.md R138 to R143), and the commands: the single ones,
and the two composed ones as one after the other. -/

namespace Sys2Proof.Machine

/-! ### Raising an error -/

/-- The destinations a raising command empties are those of the tables of R27 and R28. -/
theorem exec_raises {i : Instr} {s : State} {e : ErrorKind} (h : resultOf i s = .error e) :
    exec i s = .next (afterError i e s) := by
  have hclr : i ≠ .clrOut := by rintro rfl; cases h
  rw [exec_of_error h]
  simp [raiseError, emptyDest, afterError, destOf_out, destOf_tok, hclr]

theorem lzWidthLegal_eq_false {B : Nat} (h1 : B ≠ 1) (h8 : B ≠ 8) : lzWidthLegal B = false := by
  simp [lzWidthLegal, h1, h8]

/-- Tokens found or read become TOK, and the unread part is consumed (R138, R141). -/
def takeTokens (s : State) (toks : List Token) : State := { s with tok := toks, inRd := s.inBuf.length }

theorem lzMatchResult_eq_map (s : State) : lzMatchResult s = (lzMatchTokens s).map (takeTokens s) := by
  unfold lzMatchResult
  cases lzMatchTokens s <;> rfl

theorem lzDeserResult_eq_map (s : State) : lzDeserResult s = (lzDeserTokens s).map (takeTokens s) := by
  unfold lzDeserResult
  cases lzDeserTokens s <;> rfl

/-! ### `LZ_MATCH` (R138) -/

theorem lzMatchTokens_of_illegal {s : State}
    (h : ¬ ((s.lzB = 1 ∨ s.lzB = 8) ∧ 1 ≤ s.lzL ∧ 1 ≤ s.lzK ∧ s.unread.length % s.lzB = 0)) :
    lzMatchTokens s = .error .invalidInput := by
  unfold lzMatchTokens
  cases hop : lzMatchOperand s with
  | error e => rw [lzMatchOperand_error hop]
  | ok sym =>
    obtain ⟨hB, hL, hK, hlen, -⟩ := (lzMatchOperand_ok_iff s sym).1 hop
    exact absurd ⟨hB, hL, hK, hlen⟩ h

theorem lzMatchTokens_of_full {s : State} (hB : s.lzB = 1 ∨ s.lzB = 8) (hL : 1 ≤ s.lzL) (hK : 1 ≤ s.lzK)
    (hlen : s.unread.length % s.lzB = 0)
    (hcap : s.build.tokCap.allows (lzMatch (syms s.lzB s.unread) s.lzW s.lzL s.lzK).length = false) :
    lzMatchTokens s = .error .capacityExceeded := by
  rw [lzMatchTokens, (lzMatchOperand_ok_iff s _).2 ⟨hB, hL, hK, hlen, rfl⟩]
  exact (fitTok_error_iff _ s _).2 ⟨hcap, rfl⟩

/-- Settles O35: legal operands give the search's tokens; a search that finds no candidate emits literals. -/
theorem lzMatchStoresTheTokens : Obligations.LzMatchStoresTheTokens := by
  refine ⟨fun s hB hL hK hlen hcap => ?_, fun sym W L K _ _ h => ?_⟩
  · have htoks := (lzMatchTokens_ok_iff s _).2 ⟨hB, hL, hK, hlen, rfl, hcap⟩
    exact exec_of_ok (i := .lzMatch) ((lzMatchResult_ok_iff s _).2 ⟨_, htoks, rfl⟩)
  · exact lzMatchLoop_literals h L (Nat.le_add_left _ _) []

/-! ### `LZ_RECON` (R139) -/

theorem lzReconResult_of_illegal {s : State} (h1 : s.lzB ≠ 1) (h8 : s.lzB ≠ 8) :
    lzReconResult s = .error .invalidInput := if_pos (lzWidthLegal_eq_false h1 h8)

theorem lzReconResult_of_wide {s : State} (h : ∃ t ∈ s.tok, 2 ^ s.lzB ≤ t.literal) :
    lzReconResult s = .error .invalidInput := by
  unfold lzReconResult
  split
  · rfl
  · exact if_pos (by simpa using h)

/-- Operands that pass the checks are reconstructed; the capacity is checked last. -/
theorem lzReconResult_of_legal {s : State} (hB : s.lzB = 1 ∨ s.lzB = 8) (hlit : literalsFit s.lzB s.tok) :
    lzReconResult s = (lzReconstruct s.tok).bind fun out => putOut (symBits s.lzB out) s := by
  have hwide : ¬ s.tok.any (fun t => decide (2 ^ s.lzB ≤ t.literal)) = true := by
    simpa [literalsFit] using hlit
  rw [lzReconResult, (lzWidthLegal_iff s.lzB).2 hB, if_neg (by decide), if_neg hwide, lzReconOut]
  cases lzReconstruct s.tok <;> rfl

theorem lzReconResult_of_malformed {s : State} {e : ErrorKind} (hB : s.lzB = 1 ∨ s.lzB = 8)
    (hlit : literalsFit s.lzB s.tok) (h : lzReconstruct s.tok = .error e) :
    lzReconResult s = .error .malformedStream := by
  rw [lzReconResult_of_legal hB hlit, h, lzReconstruct_error h]
  rfl

theorem lzReconResult_of_full {s : State} {out : List Symbol} (hB : s.lzB = 1 ∨ s.lzB = 8)
    (hlit : literalsFit s.lzB s.tok) (h : lzReconstruct s.tok = .ok out)
    (hcap : s.build.outCap.allows (s.lzB * out.length) = false) : lzReconResult s = .error .capacityExceeded := by
  rw [lzReconResult_of_legal hB hlit, h]
  exact (putOut_error_iff _ s _).2 ⟨by rwa [symBits_length], rfl⟩

theorem lzReconResult_of_ok {s : State} {out : List Symbol} (hB : s.lzB = 1 ∨ s.lzB = 8)
    (hlit : literalsFit s.lzB s.tok) (h : lzReconstruct s.tok = .ok out)
    (hcap : s.build.outCap.allows (s.lzB * out.length) = true) :
    lzReconResult s = .ok { s with outBuf := symBits s.lzB out } := by
  rw [lzReconResult_of_legal hB hlit, h]
  exact (putOut_ok_iff _ s _).2 ⟨by rwa [symBits_length], rfl⟩

/-- Settles O39: the checks in their order, then reconstruction, then the capacity of OUT. -/
theorem lzReconWritesTheSymbols : Obligations.LzReconWritesTheSymbols :=
  ⟨fun _ _ hB hlit hout hcap => exec_of_ok (i := .lzRecon) (lzReconResult_of_ok hB hlit hout hcap),
    fun _ h1 h8 => exec_raises (lzReconResult_of_illegal h1 h8), fun _ h => exec_raises (lzReconResult_of_wide h),
    fun _ _ hB hlit h => exec_raises (lzReconResult_of_malformed hB hlit h),
    fun _ _ hB hlit hout hcap => exec_raises (lzReconResult_of_full hB hlit hout hcap)⟩

/-! ### `LZ_SER` (R140) -/

theorem lzSerResult_of_illegal {s : State} (h1 : s.lzB ≠ 1) (h8 : s.lzB ≠ 8) :
    lzSerResult s = .error .invalidInput := if_pos (lzWidthLegal_eq_false h1 h8)

theorem lzSerResult_of_wide {s : State} (h : ∃ t ∈ s.tok, 2 ^ s.lzB ≤ t.literal) :
    lzSerResult s = .error .invalidInput := by
  unfold lzSerResult
  split
  · rfl
  · rw [lzSerOut, lzSerialize_wide h]

theorem lzSerResult_of_legal {s : State} (hB : s.lzB = 1 ∨ s.lzB = 8) (hlit : literalsFit s.lzB s.tok) :
    lzSerResult s = putOut (streamOf s.numS s.lzB s.tok) s := by
  rw [lzSerResult, (lzWidthLegal_iff s.lzB).2 hB, if_neg (by decide), lzSerOut, lzSerialize_eq_streamOf hlit]

theorem lzSerResult_of_full {s : State} (hB : s.lzB = 1 ∨ s.lzB = 8) (hlit : literalsFit s.lzB s.tok)
    (hcap : s.build.outCap.allows (streamOf s.numS s.lzB s.tok).length = false) :
    lzSerResult s = .error .capacityExceeded :=
  (lzSerResult_of_legal hB hlit).trans ((putOut_error_iff _ s _).2 ⟨hcap, rfl⟩)

theorem lzSerResult_of_ok {s : State} (hB : s.lzB = 1 ∨ s.lzB = 8) (hlit : literalsFit s.lzB s.tok)
    (hcap : s.build.outCap.allows (streamOf s.numS s.lzB s.tok).length = true) :
    lzSerResult s = .ok { s with outBuf := streamOf s.numS s.lzB s.tok } :=
  (lzSerResult_of_legal hB hlit).trans ((putOut_ok_iff _ s _).2 ⟨hcap, rfl⟩)

/-- Settles O40: the width, then the literals in the serializer, then the capacity of OUT. -/
theorem lzSerWritesTheStream : Obligations.LzSerWritesTheStream :=
  ⟨fun _ hB hlit hcap => exec_of_ok (i := .lzSer) (lzSerResult_of_ok hB hlit hcap),
    fun _ h1 h8 => exec_raises (lzSerResult_of_illegal h1 h8), fun _ h => exec_raises (lzSerResult_of_wide h),
    fun _ hB hlit hcap => exec_raises (lzSerResult_of_full hB hlit hcap)⟩

/-! ### `LZ_DESER` (R141) -/

theorem lzDeserTokens_of_illegal {s : State} (h1 : s.lzB ≠ 1) (h8 : s.lzB ≠ 8) :
    lzDeserTokens s = .error .invalidInput := if_pos (lzWidthLegal_eq_false h1 h8)

theorem lzDeserTokens_of_legal {s : State} (hB : s.lzB = 1 ∨ s.lzB = 8) :
    lzDeserTokens s =
      (lzDeserialize s.build.numBits s.numS s.lzB s.unread).bind fun toks => fitTok toks s := by
  rw [lzDeserTokens, (lzWidthLegal_iff s.lzB).2 hB, if_neg (by decide)]
  cases lzDeserialize s.build.numBits s.numS s.lzB s.unread <;> rfl

theorem lzDeserTokens_of_error {s : State} {e : ErrorKind} (hB : s.lzB = 1 ∨ s.lzB = 8)
    (h : lzDeserialize s.build.numBits s.numS s.lzB s.unread = .error e) : lzDeserTokens s = .error e := by
  rw [lzDeserTokens_of_legal hB, h]
  rfl

theorem lzDeserTokens_of_full {s : State} {toks : List Token} (hB : s.lzB = 1 ∨ s.lzB = 8)
    (h : lzDeserialize s.build.numBits s.numS s.lzB s.unread = .ok toks)
    (hcap : s.build.tokCap.allows toks.length = false) : lzDeserTokens s = .error .capacityExceeded := by
  rw [lzDeserTokens_of_legal hB, h]
  exact (fitTok_error_iff toks s _).2 ⟨hcap, rfl⟩

theorem exec_lzDeser_raises {s : State} {e : ErrorKind} (h : lzDeserTokens s = .error e) :
    exec .lzDeser s = .next (afterError .lzDeser e s) := by
  refine exec_raises ?_
  rw [resultOf, lzDeserResult_eq_map, h]
  rfl

theorem exec_lzDeser_of_ok {s : State} {toks : List Token} (hB : s.lzB = 1 ∨ s.lzB = 8)
    (h : lzDeserialize s.build.numBits s.numS s.lzB s.unread = .ok toks)
    (hcap : s.build.tokCap.allows toks.length = true) :
    exec .lzDeser s = .next { s with tok := toks, inRd := s.inBuf.length, status := .done } :=
  exec_of_ok (i := .lzDeser) ((lzDeserResult_ok_iff s _).2 ⟨toks, (lzDeserTokens_ok_iff s toks).2 ⟨hB, h, hcap⟩, rfl⟩)

/-- R137 with its three reads written out. -/
theorem lzDeserToken_cursor {numBits : Limit} {S B p q offset length : Nat} {b : Bits}
    (hoff : numDecode numBits S b 0 = .ok (offset, p)) (hlen : numDecode numBits S b p = .ok (length, q)) :
    lzDeserToken numBits S B b 0 =
      if b.length < q + B then .error .malformedStream
      else .ok (⟨offset, length, uint (slice b q (q + B))⟩, q + B) := by
  obtain ⟨-, hin, -⟩ := numDecode_ok hlen
  simp only [lzDeserToken, hoff, hlen]
  exact if_congr (by omega) rfl rfl

/-- Settles O42: the recursion of R137, then each case of R141 by what the unread part deserializes to. -/
theorem lzDeserStoresTheTokens : Obligations.LzDeserStoresTheTokens := by
  refine ⟨lzDeserialize_nil, fun numBits S B b hb => ?_, fun s toks => exec_lzDeser_of_ok,
    fun s toks hB h hcap => exec_lzDeser_raises (lzDeserTokens_of_full hB h hcap),
    fun s e hB h => ⟨lzDeserLoop_error h, exec_lzDeser_raises (lzDeserTokens_of_error hB h)⟩,
    fun s h1 h8 => exec_lzDeser_raises (lzDeserTokens_of_illegal h1 h8),
    fun s toks hB hlit hnum hu hcap => exec_lzDeser_of_ok hB (by rw [hu, lzDeserialize_streamOf hlit hnum]) hcap,
    fun s toks hB hlit hnum hu hcap =>
      exec_lzDeser_raises (lzDeserTokens_of_full hB (by rw [hu, lzDeserialize_streamOf hlit hnum]) hcap),
    fun s toks k hB hlit hnum hu => exec_lzDeser_raises (lzDeserTokens_of_error hB ?_),
    fun s toks t x y hB hlit hnum hfit hsplit hx hy hu => exec_lzDeser_raises (lzDeserTokens_of_error hB ?_),
    fun s toks x rest n hB hlit hnum hx hlarge hwide hu => exec_lzDeser_raises (lzDeserTokens_of_error hB ?_)⟩
  · rw [lzDeserialize_of_ne_nil hb]
    cases hoff : numDecode numBits S b 0 with
    | error e => simp only [lzDeserToken, hoff]; rfl
    | ok o =>
      cases hlen : numDecode numBits S b o.2 with
      | error e => simp only [lzDeserToken, hoff, hlen]; rfl
      | ok l =>
        simp only [lzDeserToken_cursor hoff hlen, hlen]
        split
        · rfl
        · simp only [Except.bind]
          cases lzDeserialize numBits S B (b.drop (l.2 + B)) <;> rfl
  · rw [hu]
    exact lzDeserialize_streamOf_append_error hlit hnum (lzDeserialize_zeros ..)
  · rw [hu]
    obtain ⟨hoff, hlen⟩ := hfit t List.mem_cons_self
    rw [streamOf_singleton] at hsplit
    exact lzDeserialize_streamOf_append_error hlit hnum (lzDeserialize_cut_token hoff hlen hsplit hx hy)
  · rw [hu, List.append_assoc, List.append_assoc]
    exact lzDeserialize_streamOf_append_error hlit hnum (lzDeserialize_wide hx hlarge hwide _ rest)

end Sys2Proof.Machine
end

section
/-! PROOFS. `LZ_ENC` and `LZ_DEC` (spec/41_lzmatcher.md R142, R143): each is its two commands in turn, so what it stores and
raises is what they do; and the round trip through both (R146). -/

namespace Sys2Proof.Machine

/-! ### The composed commands (R91, R142, R143) -/

theorem literalsFit_of_lzMatchTokens {s : State} {toks : List Token} (h : lzMatchTokens s = .ok toks) :
    literalsFit s.lzB toks := by
  obtain ⟨-, -, -, -, rfl, -⟩ := (lzMatchTokens_ok_iff s toks).1 h
  exact fun t ht => chunkVals_lt _ _ _ (mem_lzMatch ht).2.2

theorem literalsFit_of_lzDeserTokens {s : State} {toks : List Token} (h : lzDeserTokens s = .ok toks) :
    literalsFit s.lzB toks := by
  obtain ⟨-, h, -⟩ := (lzDeserTokens_ok_iff s toks).1 h
  exact fun t ht => (lzDeserLoop_ok h t ht).2.2

/-- It does not matter whether OUT is written before or after TOK and the cursor. -/
theorem putOut_takeTokens (b : Bits) (s : State) (toks : List Token) :
    putOut b (takeTokens s toks) = (putOut b s).map fun s' => consumeIn (setTok toks s') := by
  cases hcap : s.build.outCap.allows b.length with
  | true => rw [(putOut_ok_iff b s _).2 ⟨hcap, rfl⟩]; exact (putOut_ok_iff b _ _).2 ⟨hcap, rfl⟩
  | false => rw [(putOut_error_iff b s _).2 ⟨hcap, rfl⟩]; exact (putOut_error_iff b _ _).2 ⟨hcap, rfl⟩

/-- `LZ_ENC` is `LZ_MATCH`, then `LZ_SER` on the state it leaves: the width is checked again to no effect, and the tokens are
serialized from TOK. -/
theorem lzEncResult_eq_bind (s : State) : lzEncResult s = (lzMatchResult s).bind lzSerResult := by
  rw [lzMatchResult_eq_map, lzEncResult]
  cases htoks : lzMatchTokens s with
  | error e => rfl
  | ok toks =>
    obtain ⟨hB, -⟩ := (lzMatchTokens_ok_iff s toks).1 htoks
    have hlit := literalsFit_of_lzMatchTokens htoks
    have hser : lzSerResult (takeTokens s toks) = putOut (streamOf s.numS s.lzB toks) (takeTokens s toks) :=
      lzSerResult_of_legal hB hlit
    simp only [lzSerOut, lzSerialize_eq_streamOf hlit]
    change _ = lzSerResult (takeTokens s toks)
    rw [hser, putOut_takeTokens]
    cases putOut (streamOf s.numS s.lzB toks) s <;> rfl

/-- `LZ_DEC` is `LZ_DESER`, then `LZ_RECON` on the state it leaves: the literals just read all fit. -/
theorem lzDecResult_eq_bind (s : State) : lzDecResult s = (lzDeserResult s).bind lzReconResult := by
  rw [lzDeserResult_eq_map, lzDecResult]
  cases htoks : lzDeserTokens s with
  | error e => rfl
  | ok toks =>
    obtain ⟨hB, -⟩ := (lzDeserTokens_ok_iff s toks).1 htoks
    have hlit := literalsFit_of_lzDeserTokens htoks
    have hrecon : lzReconResult (takeTokens s toks) =
        (lzReconstruct toks).bind fun out => putOut (symBits s.lzB out) (takeTokens s toks) :=
      lzReconResult_of_legal hB hlit
    change _ = lzReconResult (takeTokens s toks)
    rw [hrecon]
    simp only [lzReconOut, putOut_takeTokens]
    cases lzReconstruct toks with
    | error e => rfl
    | ok out => cases hput : putOut (symBits s.lzB out) s <;> simp [Except.bind, Except.map, hput]

/-- A command whose pseudocode is that of two others in turn, and which empties both buffers on an error, is the two
commands in turn. -/
theorem exec_composed {whole first second : Instr}
    (hresult : ∀ s, resultOf whole s = (resultOf first s).bind (resultOf second))
    (hdest : destOf whole = { out := true, tok := true }) {s s1 s2 : State} (h1 : exec first s = .next s1)
    (h2 : exec second s1 = .next s2) :
    (s1.status = .done → s2.status = .done → exec whole s = .next s2) ∧
      (∀ e, s1.status = .error e → exec whole s = .next { s with tok := [], outBuf := [], status := .error e }) ∧
      (∀ e, s1.status = .done → s2.status = .error e →
        exec whole s = .next { s with tok := [], outBuf := [], status := .error e }) := by
  have hraise : ∀ e, resultOf whole s = .error e →
      exec whole s = .next { s with tok := [], outBuf := [], status := .error e } := by
    intro e he
    rw [exec_of_error he, hdest]
    rfl
  obtain ⟨t, ht, rfl⟩ | ⟨e, he, rfl⟩ := (exec_next_iff first s s1).1 h1
  · rw [completeCommand, exec_status_irrelevant] at h2
    obtain ⟨u, hu, rfl⟩ | ⟨e, he, rfl⟩ := (exec_next_iff second t s2).1 h2
    · have hwhole : resultOf whole s = .ok u := by rw [hresult, ht]; exact hu
      exact ⟨fun _ _ => exec_of_ok hwhole, fun e h => Status.noConfusion h, fun e _ h => Status.noConfusion h⟩
    · have hwhole : resultOf whole s = .error e := by rw [hresult, ht]; exact he
      refine ⟨fun _ h => Status.noConfusion h, fun e' h => Status.noConfusion h, fun e' _ h => ?_⟩
      cases h
      exact hraise e hwhole
  · have hwhole : resultOf whole s = .error e := by rw [hresult, he]; rfl
    refine ⟨fun h => Status.noConfusion h, fun e' h => ?_, fun e' h => Status.noConfusion h⟩
    cases h
    exact hraise e hwhole

/-- Settles O43: both composed commands are the two results in turn, and empty TOK and OUT on an error. -/
theorem lzBackendIsItsTwoCommands : Obligations.LzBackendIsItsTwoCommands := by
  intro s s1 s2 p hp h1 h2
  simp only [List.mem_cons, List.not_mem_nil, or_false] at hp
  rcases hp with rfl | rfl
  · exact exec_composed (whole := .lzEnc) (first := .lzMatch) (second := .lzSer) lzEncResult_eq_bind rfl h1 h2
  · exact exec_composed (whole := .lzDec) (first := .lzDeser) (second := .lzRecon) lzDecResult_eq_bind rfl h1 h2

/-! ### `LZ_ENC` -/

/-- An error of the match search is raised by both commands that begin with it. -/
theorem exec_lzMatch_lzEnc_raises {s : State} {e : ErrorKind} (h : lzMatchTokens s = .error e) {i : Instr}
    (hi : i ∈ [Instr.lzMatch, Instr.lzEnc]) : exec i s = .next (afterError i e s) := by
  have hmatch : lzMatchResult s = .error e := by rw [lzMatchResult_eq_map, h]; rfl
  simp only [List.mem_cons, List.not_mem_nil, or_false] at hi
  rcases hi with rfl | rfl
  · exact exec_raises hmatch
  · refine exec_raises ?_
    rw [resultOf, lzEncResult_eq_bind, hmatch]
    rfl

/-- Settles O36: any operand check that fails gives `InvalidInput`, and only then is the capacity of TOK looked at. -/
theorem lzMatchAndLzEncRaise : Obligations.LzMatchAndLzEncRaise := by
  refine fun s i hi => ⟨fun h1 h8 => ?_, fun hLK => ?_, fun hlen => ?_, fun hB hL hK hlen hcap =>
    exec_lzMatch_lzEnc_raises (lzMatchTokens_of_full hB hL hK hlen hcap) hi⟩
  · exact exec_lzMatch_lzEnc_raises (lzMatchTokens_of_illegal fun ⟨hB, _⟩ => hB.elim h1 h8) hi
  · exact exec_lzMatch_lzEnc_raises (lzMatchTokens_of_illegal fun ⟨_, hL, hK, _⟩ => by omega) hi
  · exact exec_lzMatch_lzEnc_raises (lzMatchTokens_of_illegal fun ⟨_, _, _, h⟩ => hlen h) hi

/-- After a match search that succeeds, `LZ_ENC` does what `LZ_SER` does on its tokens. -/
theorem lzEncResult_of_tokens {s : State} {toks : List Token} (h : lzMatchTokens s = .ok toks) :
    lzEncResult s = lzSerResult (takeTokens s toks) := by
  rw [lzEncResult_eq_bind, lzMatchResult_eq_map, h]
  rfl

theorem exec_lzEnc_of_tokens {s : State} {toks : List Token} (h : lzMatchTokens s = .ok toks) :
    (s.build.outCap.allows (streamOf s.numS s.lzB toks).length = true →
      exec .lzEnc s = .next { s with
        tok := toks, outBuf := streamOf s.numS s.lzB toks, inRd := s.inBuf.length, status := .done }) ∧
    (s.build.outCap.allows (streamOf s.numS s.lzB toks).length = false →
      exec .lzEnc s = .next (afterError .lzEnc .capacityExceeded s)) := by
  obtain ⟨hB, -⟩ := (lzMatchTokens_ok_iff s toks).1 h
  have hlit := literalsFit_of_lzMatchTokens h
  have hresult := lzEncResult_of_tokens h
  exact ⟨fun hcap => exec_of_ok (i := .lzEnc) (hresult.trans (lzSerResult_of_ok hB hlit hcap)),
    fun hcap => exec_raises (hresult.trans (lzSerResult_of_full hB hlit hcap))⟩

/-- `LZ_ENC` reports success only with the tokens of its search in TOK and their stream in OUT. -/
theorem exec_lzEnc_done {s t : State} (h : exec .lzEnc s = .next t) (hdone : t.status = .done) :
    ∃ toks, lzMatchTokens s = .ok toks ∧ t = { s with
      tok := toks, outBuf := streamOf s.numS s.lzB toks, inRd := s.inBuf.length, status := .done } := by
  cases htoks : lzMatchTokens s with
  | error e =>
    cases h.symm.trans (exec_lzMatch_lzEnc_raises htoks (by simp))
    cases hdone
  | ok toks =>
    obtain ⟨hok, hfull⟩ := exec_lzEnc_of_tokens htoks
    cases hcap : s.build.outCap.allows (streamOf s.numS s.lzB toks).length with
    | true =>
      cases h.symm.trans (hok hcap)
      exact ⟨toks, rfl, rfl⟩
    | false =>
      cases h.symm.trans (hfull hcap)
      cases hdone

/-! ### `LZ_DEC` -/

theorem exec_lzDec_raises {s : State} {e : ErrorKind} (h : lzDeserTokens s = .error e) :
    exec .lzDec s = .next (afterError .lzDec e s) := by
  refine exec_raises ?_
  rw [resultOf, lzDecResult_eq_bind, lzDeserResult_eq_map, h]
  rfl

/-- After tokens that are read and fit, `LZ_DEC` does what `LZ_RECON` does on them. -/
theorem lzDecResult_of_tokens {s : State} {toks : List Token} (h : lzDeserTokens s = .ok toks) :
    lzDecResult s = lzReconResult (takeTokens s toks) := by
  rw [lzDecResult_eq_bind, lzDeserResult_eq_map, h]
  rfl

theorem exec_lzDec_of_malformed {s : State} {toks : List Token} {e : ErrorKind} (h : lzDeserTokens s = .ok toks)
    (hrec : lzReconstruct toks = .error e) : exec .lzDec s = .next (afterError .lzDec .malformedStream s) := by
  obtain ⟨hB, -⟩ := (lzDeserTokens_ok_iff s toks).1 h
  have hlit := literalsFit_of_lzDeserTokens h
  exact exec_raises ((lzDecResult_of_tokens h).trans
    (lzReconResult_of_malformed hB hlit hrec))

theorem exec_lzDec_of_full {s : State} {toks : List Token} {out : List Symbol} (h : lzDeserTokens s = .ok toks)
    (hrec : lzReconstruct toks = .ok out) (hcap : s.build.outCap.allows (s.lzB * out.length) = false) :
    exec .lzDec s = .next (afterError .lzDec .capacityExceeded s) := by
  obtain ⟨hB, -⟩ := (lzDeserTokens_ok_iff s toks).1 h
  have hlit := literalsFit_of_lzDeserTokens h
  exact exec_raises ((lzDecResult_of_tokens h).trans
    (lzReconResult_of_full hB hlit hrec hcap))

theorem exec_lzDec_of_ok {s : State} {toks : List Token} {out : List Symbol} (h : lzDeserTokens s = .ok toks)
    (hrec : lzReconstruct toks = .ok out) (hcap : s.build.outCap.allows (s.lzB * out.length) = true) :
    exec .lzDec s = .next { s with
      tok := toks, outBuf := symBits s.lzB out, inRd := s.inBuf.length, status := .done } := by
  obtain ⟨hB, -⟩ := (lzDeserTokens_ok_iff s toks).1 h
  have hlit := literalsFit_of_lzDeserTokens h
  exact exec_of_ok (i := .lzDec) ((lzDecResult_of_tokens h).trans
    (lzReconResult_of_ok hB hlit hrec hcap))

theorem lzDeserTokens_of_stream {s : State} {toks : List Token} (hB : s.lzB = 1 ∨ s.lzB = 8)
    (hlit : literalsFit s.lzB toks) (hnum : numbersFit s.build.numBits toks) (hu : s.unread = streamOf s.numS s.lzB toks)
    (hcap : s.build.tokCap.allows toks.length = true) : lzDeserTokens s = .ok toks :=
  (lzDeserTokens_ok_iff s toks).2 ⟨hB, by rw [hu, lzDeserialize_streamOf hlit hnum], hcap⟩

/-- Settles O44: what the two commands of each store and raise, one after the other. -/
theorem lzBackendCompletes : Obligations.LzBackendCompletes := by
  refine ⟨fun s toks hB hL hK hlen htoks hcap =>
      exec_lzEnc_of_tokens ((lzMatchTokens_ok_iff s toks).2 ⟨hB, hL, hK, hlen, htoks, hcap⟩),
    fun s toks out hB hlit hnum hu hrec hcap =>
      exec_lzDec_of_ok (lzDeserTokens_of_stream hB hlit hnum hu hcap) hrec,
    fun s h1 h8 => exec_lzDec_raises (lzDeserTokens_of_illegal h1 h8),
    fun s e hB h => exec_lzDec_raises (lzDeserTokens_of_error hB h),
    fun s toks hB h => ⟨fun hcap => exec_lzDec_raises (lzDeserTokens_of_full hB h hcap), fun hcap => ?_⟩⟩
  have htoks := (lzDeserTokens_ok_iff s toks).2 ⟨hB, h, hcap⟩
  exact ⟨fun e => exec_lzDec_of_malformed htoks,
    fun out hrec => ⟨exec_lzDec_of_ok htoks hrec, exec_lzDec_of_full htoks hrec⟩⟩

/-! ### The round trip (R146) -/

/-- Where the width divides the length, no chunk is short. -/
theorem chunksFuel_length_eq {w : Nat} (fuel : Nat) {d : Bits} (h : w ∣ d.length) :
    ∀ c ∈ chunksFuel fuel w d, c.length = w := by
  induction fuel generalizing d with
  | zero => simp [chunksFuel]
  | succ fuel ih =>
    cases d with
    | nil => simp [chunksFuel]
    | cons b rest =>
      have hw : w ≤ (b :: rest).length := Nat.le_of_dvd (Nat.succ_pos _) h
      intro c hc
      rw [chunksFuel, List.mem_cons] at hc
      rcases hc with rfl | hc
      · exact List.length_take_of_le hw
      · exact ih (by rw [List.length_drop]; exact Nat.dvd_sub h dvd_rfl) c hc

/-- A whole number of symbols, cut up and written back. -/
theorem symBits_syms {w : Nat} (hw : 1 ≤ w) {d : Bits} (h : d.length % w = 0) : symBits w (syms w d) = d := by
  have hback : ∀ c ∈ chunks w d, bitsOf w (uint c) = c := fun c hc =>
    (eq_bitsOf_of_uint_eq (chunksFuel_length_eq _ (Nat.dvd_of_mod_eq_zero h) c hc) rfl).symm
  calc symBits w (syms w d)
      _ = ((chunks w d).map fun c => bitsOf w (uint c)).flatten := by
        rw [symBits, syms, chunkVals, List.flatMap_map, List.flatMap_def]
      _ = (chunks w d).flatten := by rw [List.map_congr_left hback, List.map_id']
      _ = d := chunksFuel_flatten hw _ d le_rfl

/-- Settles O45: TOK and the stream of `LZ_ENC` are those of the search, whose numbers are at most the input's length, so
`LZ_DEC` reads the same tokens and reconstructs the symbols of the input. -/
theorem lzBackendRoundTrip : Obligations.LzBackendRoundTrip := by
  intro s t X hlen hfits hout h hdone
  obtain ⟨toks, htoks, rfl⟩ := exec_lzEnc_done h hdone
  have hlit : literalsFit s.lzB toks := literalsFit_of_lzMatchTokens (s := loadIn X s) htoks
  obtain ⟨hB, -, -, -, hsearch, hcap⟩ := (lzMatchTokens_ok_iff _ toks).1 htoks
  rw [loadIn_lzB] at hB
  have hpos : 1 ≤ s.lzB := by omega
  have hX : symBits s.lzB (syms s.lzB X) = X := symBits_syms hpos hlen
  have hcount : s.lzB * (syms s.lzB X).length = X.length := by rw [← symBits_length, hX]
  have hfew : (syms s.lzB X).length ≤ X.length := hcount ▸ Nat.le_mul_of_pos_left _ hpos
  have htok : toks = lzMatch (syms s.lzB X) s.lzW s.lzL s.lzK := hsearch
  have hnum : numbersFit s.build.numBits toks := fun u hu => by
    obtain ⟨hoff, hlength, -⟩ := mem_lzMatch (htok ▸ hu)
    exact ⟨fits_mono (hoff.trans hfew) hfits, fits_mono (hlength.trans hfew) hfits⟩
  have hrec : lzReconstruct toks = .ok (syms s.lzB X) := by rw [htok, lzReconstruct_lzMatch]
  refine ⟨_, exec_lzDec_of_ok (lzDeserTokens_of_stream hB hlit hnum rfl hcap) hrec ?_, rfl, hX⟩
  exact hcount.symm ▸ hout

end Sys2Proof.Machine
end

section
/-! PROOFS. The chunks of an input and its frequency table (spec/42_huffman.md R161; spec/10_state.md R40). -/

namespace Sys2Proof.Machine

/-! ### Rounding up (R12) -/

theorem ceilDiv_zero {b : Nat} (hb : 1 ≤ b) : ceilDiv 0 b = 0 := Nat.div_eq_of_lt (by omega)

theorem ceilDiv_of_pos {a b : Nat} (hb : 1 ≤ b) (ha : 1 ≤ a) : ceilDiv a b = ceilDiv (a - b) b + 1 := by
  rcases lt_or_ge a b with hlt | hge
  · have hone : (a + b - 1) / b = 1 := Nat.div_eq_of_lt_le (by omega) (by omega)
    rw [Nat.sub_eq_zero_of_le hlt.le, ceilDiv_zero hb, ceilDiv, hone]
  · have hsum : a + b - 1 = a - b + b - 1 + b := by omega
    rw [ceilDiv, hsum, Nat.add_div_right _ hb, ceilDiv]

/-- A quotient rounded up covers the dividend, by less than one divisor. -/
theorem mul_ceilDiv_bounds {a b : Nat} (hb : 1 ≤ b) : a ≤ b * ceilDiv a b ∧ b * ceilDiv a b < a + b := by
  have hdiv := Nat.div_add_mod (a + b - 1) b
  have hmod := Nat.mod_lt (a + b - 1) hb
  rw [ceilDiv]
  omega

/-! ### Chunks (R161) -/

theorem slice_drop {α : Type} (b : List α) (k lo hi : Nat) : slice (b.drop k) lo hi = slice b (k + lo) (k + hi) := by
  rw [slice, slice, List.drop_drop, Nat.add_sub_add_left]

theorem chunksFuel_getElem? {fuel w t : Nat} {d c : Bits} (h : (chunksFuel fuel w d)[t]? = some c) :
    c = slice d (w * t) (w * t + w) := by
  induction fuel generalizing d t with
  | zero => cases h
  | succ fuel ih =>
    cases d with
    | nil => cases h
    | cons b rest =>
      cases t with
      | zero => cases h; simp [slice]
      | succ t => rw [ih h, slice_drop, ← Nat.add_assoc, Nat.mul_succ, Nat.add_comm w]

theorem chunksFuel_length {w : Nat} (hw : 1 ≤ w) {fuel : Nat} {d : Bits} (h : d.length ≤ fuel) :
    (chunksFuel fuel w d).length = ceilDiv d.length w := by
  induction fuel generalizing d with
  | zero => rw [chunksFuel, Nat.le_zero.1 h, ceilDiv_zero hw, List.length_nil]
  | succ fuel ih =>
    cases d with
    | nil => exact (ceilDiv_zero hw).symm
    | cons b rest =>
      have hdrop : ((b :: rest).drop w).length = (b :: rest).length - w := List.length_drop
      have hcons : 1 ≤ (b :: rest).length := Nat.succ_pos _
      rw [chunksFuel, List.length_cons, ih (by omega), hdrop, ceilDiv_of_pos hw hcons]

theorem chunkVals_length {w : Nat} (hw : 1 ≤ w) (d : Bits) : (chunkVals w d).length = ceilDiv d.length w := by
  rw [chunkVals, List.length_map]
  exact chunksFuel_length hw le_rfl

/-! ### The frequency table (R40) -/

/-- The order R40 asks of a table. -/
def FreqTable.ascending (f : FreqTable) : Prop := f.Pairwise fun a b => a.1 < b.1

theorem freqTally_mem_fst {v u : Symbol} {f : FreqTable} :
    u ∈ (freqTally v f).map Prod.fst ↔ u = v ∨ u ∈ f.map Prod.fst := by
  induction f with
  | nil => simp [freqTally]
  | cons e f ih =>
    obtain ⟨w, n⟩ := e
    rw [freqTally]
    split
    · simp
    · split
      · next heq => simp [heq]
      · rw [List.map_cons, List.mem_cons, ih, List.map_cons, List.mem_cons]
        exact or_left_comm

theorem FreqTable.ascending.tally {f : FreqTable} (h : f.ascending) (v : Symbol) : (freqTally v f).ascending := by
  induction f with
  | nil => exact List.pairwise_singleton _ _
  | cons e f ih =>
    obtain ⟨u, n⟩ := e
    obtain ⟨hu, hf⟩ := List.pairwise_cons.1 h
    rw [freqTally]
    split
    · next hlt =>
      refine List.pairwise_cons.2 ⟨fun x hx => ?_, h⟩
      rcases List.mem_cons.1 hx with rfl | hx
      · exact hlt
      · exact hlt.trans (hu x hx)
    · next hlt =>
      split
      · exact List.pairwise_cons.2 ⟨hu, hf⟩
      · next hne =>
        refine List.pairwise_cons.2 ⟨fun x hx => ?_, ih hf⟩
        rcases freqTally_mem_fst.1 (List.mem_map_of_mem hx) with hxv | hxf
        · exact hxv ▸ Nat.lt_of_le_of_ne (not_lt.1 hlt) (Ne.symm hne)
        · obtain ⟨y, hy, hyx⟩ := List.mem_map.1 hxf
          exact hyx ▸ hu y hy

/-- In an ascending table, a symbol below the first one is not listed. -/
theorem FreqTable.ascending.lookup_none {v u : Symbol} {n : Nat} {f : FreqTable}
    (h : FreqTable.ascending ((u, n) :: f)) (hlt : v < u) : List.lookup v ((u, n) :: f) = none := by
  obtain ⟨hu, -⟩ := List.pairwise_cons.1 h
  refine List.lookup_eq_none_iff.2 fun p hp => ?_
  rcases List.mem_cons.1 hp with rfl | hp
  · simpa using hlt.ne
  · simpa using (hlt.trans (hu p hp)).ne

theorem lookup_cons_eq_ite (u w : Symbol) (n : Nat) (f : FreqTable) :
    List.lookup u ((w, n) :: f) = if u = w then some n else List.lookup u f := by
  rw [List.lookup_cons]
  by_cases huw : u = w
  · rw [if_pos huw, huw, beq_self_eq_true]
  · rw [if_neg huw, beq_false_of_ne huw]

/-- A tally adds one to the count of its symbol and changes no other. -/
theorem freqTally_lookup {f : FreqTable} (h : f.ascending) (v u : Symbol) :
    (freqTally v f).lookup u = if u = v then some ((f.lookup v).getD 0 + 1) else f.lookup u := by
  induction f with
  | nil => rw [freqTally, lookup_cons_eq_ite]; rfl
  | cons e f ih =>
    obtain ⟨w, n⟩ := e
    obtain ⟨-, hf⟩ := List.pairwise_cons.1 h
    rw [freqTally]
    split
    · next hlt => rw [h.lookup_none hlt, lookup_cons_eq_ite]; rfl
    · split
      · next heq =>
        subst heq
        simp only [lookup_cons_eq_ite, if_true, Option.getD_some]
        split <;> rfl
      · next hne =>
        rw [lookup_cons_eq_ite, lookup_cons_eq_ite, lookup_cons_eq_ite, ih hf, if_neg hne]
        by_cases huw : u = w
        · have huv : u ≠ v := fun huv => hne (huv ▸ huw)
          rw [if_pos huw, if_neg huv, if_pos huw]
        · rw [if_neg huw, if_neg huw]

/-- A tally adds the weight of its symbol to the weights summed by occurrence. -/
theorem freqTally_sum (g : Symbol → Nat) (v : Symbol) (f : FreqTable) :
    ((freqTally v f).map fun e => e.2 * g e.1).sum = (f.map fun e => e.2 * g e.1).sum + g v := by
  induction f with
  | nil => simp [freqTally]
  | cons e f ih =>
    obtain ⟨u, n⟩ := e
    rw [freqTally]
    split
    · simp [Nat.add_comm]
    · split
      · next heq => simp [heq, Nat.succ_mul, Nat.add_right_comm]
      · simp [ih, Nat.add_assoc]

theorem freqOf_append_singleton (vals : List Nat) (v : Nat) : freqOf (vals ++ [v]) = freqTally v (freqOf vals) := by
  simp [freqOf]

theorem freqOf_ascending (vals : List Nat) : (freqOf vals).ascending := by
  induction vals using List.reverseRecOn with
  | nil => exact List.Pairwise.nil
  | append_singleton vals v ih => rw [freqOf_append_singleton]; exact ih.tally v

theorem freqOf_mem_fst {vals : List Nat} {u : Nat} : u ∈ (freqOf vals).map Prod.fst ↔ u ∈ vals := by
  induction vals using List.reverseRecOn with
  | nil => rfl
  | append_singleton vals v ih => rw [freqOf_append_singleton, freqTally_mem_fst, ih]; simp [or_comm]

theorem freqOf_lookup (vals : List Nat) (u : Nat) :
    (freqOf vals).lookup u = if vals.count u = 0 then none else some (vals.count u) := by
  induction vals using List.reverseRecOn generalizing u with
  | nil => rfl
  | append_singleton vals v ih =>
    rw [freqOf_append_singleton, freqTally_lookup (freqOf_ascending vals), ih, ih, List.count_append,
      List.count_singleton]
    by_cases huv : u = v
    · subst huv
      by_cases hzero : vals.count u = 0 <;> simp [hzero]
    · simp [huv, Ne.symm huv]

/-- Summing a weight over the table, each symbol as often as it occurs, is summing it over the values. -/
theorem freqOf_sum (g : Symbol → Nat) (vals : List Nat) :
    ((freqOf vals).map fun e => e.2 * g e.1).sum = (vals.map g).sum := by
  induction vals using List.reverseRecOn with
  | nil => rfl
  | append_singleton vals v ih => rw [freqOf_append_singleton, freqTally_sum, ih]; simp

theorem freqOf_total (vals : List Nat) : ((freqOf vals).map Prod.snd).sum = vals.length := by
  simpa using freqOf_sum (fun _ => 1) vals

/-- Settles O46: the chunks by induction on their fuel, the table by induction on the values tallied. -/
theorem hufFrequencyCounts : Obligations.HufFrequencyCounts := by
  intro d SB hSB
  refine ⟨chunksFuel_flatten hSB _ d le_rfl, chunksFuel_length hSB le_rfl, fun t c => chunksFuel_getElem?,
    freqOf_ascending _, freqOf_lookup _, ?_⟩
  rw [hufFreq, freqOf_total, chunkVals_length hSB]

end Sys2Proof.Machine
end

section
/-! PROOFS. The Huffman tree is the one of the rule's loop (spec/42_huffman.md R162, R163): an ordered priority structure
and a collection searched for its least key hold the same nodes, so they merge the same two. -/

namespace Sys2Proof.Machine

/-! ### The least key -/

/-- Keys of nodes with different sequence numbers are comparable. -/
theorem HufNode.before_of_not_before {a b : HufNode} (hne : a.seq ≠ b.seq) (h : b.before a = false) :
    a.before b = true := by
  rw [Bool.eq_false_iff, Ne, before_iff] at h
  rw [before_iff]
  omega

theorem HufNode.not_before_of_before {a b : HufNode} (h : a.before b = true) : b.before a = false := by
  rw [before_iff] at h
  rw [Bool.eq_false_iff, Ne, before_iff]
  omega

/-- The node whose key is before every other is the one the search finds. -/
theorem leastNode_eq_of_before {a : HufNode} {q : List HufNode} {best : HufNode} (hmem : a = best ∨ a ∈ q)
    (hleast : ∀ x ∈ best :: q, x = a ∨ a.before x = true) : leastNode best q = a := by
  induction q generalizing best with
  | nil => exact (hmem.resolve_right List.not_mem_nil).symm
  | cons x q ih =>
    obtain ⟨hbest, hx, hq⟩ : _ ∧ _ ∧ _ := by simpa only [List.forall_mem_cons] using hleast
    rw [leastNode]
    split
    · next hlt =>
      refine ih ?_ (List.forall_mem_cons.2 ⟨hx, hq⟩)
      rcases hmem with rfl | hmem
      · refine .inl (hx.resolve_right fun hbx => ?_).symm
        rw [HufNode.not_before_of_before hbx] at hlt
        cases hlt
      · exact List.mem_cons.1 hmem
    · next hge =>
      refine ih ?_ (List.forall_mem_cons.2 ⟨hbest, hq⟩)
      rcases hmem with rfl | hmem
      · exact .inl rfl
      · rcases List.mem_cons.1 hmem with rfl | hmem
        · exact .inl (hbest.resolve_right hge).symm
        · exact .inr hmem

/-- A priority structure as R162 keeps it: ordered by key, every node with a sequence number of its own below `seq`. -/
structure PriorityOrdered (seq : Nat) (q : List HufNode) : Prop where
  ordered : q.Pairwise fun a b => b.before a = false
  numbered : (q.map HufNode.seq).Nodup
  below : ∀ e ∈ q, e.seq < seq

theorem PriorityOrdered.tail {seq : Nat} {a : HufNode} {q : List HufNode} (h : PriorityOrdered seq (a :: q)) :
    PriorityOrdered seq q where
  ordered := (List.pairwise_cons.1 h.ordered).2
  numbered := (List.nodup_cons.1 h.numbered).2
  below := (List.forall_mem_cons.1 h.below).2

theorem PriorityOrdered.insert {seq : Nat} {q : List HufNode} (h : PriorityOrdered seq q) {e : HufNode}
    (he : e.seq = seq) : PriorityOrdered (seq + 1) (hufInsert e q) where
  ordered := hufInsert_ordered e q h.ordered
  numbered := by
    refine ((hufInsert_perm e q).map HufNode.seq).nodup_iff.2 (List.nodup_cons.2 ⟨fun hmem => ?_, h.numbered⟩)
    obtain ⟨x, hx, hxe⟩ := List.mem_map.1 hmem
    have := h.below x hx
    omega
  below := by
    intro x hx
    rcases List.mem_cons.1 ((hufInsert_perm e q).mem_iff.1 hx) with rfl | hx
    · omega
    · exact Nat.lt_succ_of_lt (h.below x hx)

/-- The head of a priority structure is the node a search of the same nodes, in whatever order, finds; and taking it away
leaves the same nodes. -/
theorem PriorityOrdered.head_eq_leastNode {seq : Nat} {a x : HufNode} {q xs : List HufNode}
    (h : PriorityOrdered seq (a :: q)) (hperm : (a :: q).Perm (x :: xs)) :
    leastNode x xs = a ∧ q.Perm ((x :: xs).erase a) := by
  obtain ⟨hleast, -⟩ := List.pairwise_cons.1 h.ordered
  obtain ⟨hseq, -⟩ := List.nodup_cons.1 h.numbered
  refine ⟨leastNode_eq_of_before ?_ fun y hy => ?_, ?_⟩
  · exact List.mem_cons.1 (hperm.mem_iff.1 List.mem_cons_self)
  · rcases List.mem_cons.1 (hperm.mem_iff.2 hy) with rfl | hy
    · exact .inl rfl
    · exact .inr (HufNode.before_of_not_before
        (fun hay => hseq (hay ▸ List.mem_map_of_mem hy)) (hleast y hy))
  · simpa using hperm.erase a

theorem hufMerge_eq_mergeBySearch {fuel seq : Nat} {q c : List HufNode} (h : PriorityOrdered seq q) (hperm : q.Perm c) :
    hufMerge fuel seq q = mergeBySearch fuel seq c := by
  induction fuel, seq, q using hufMerge.induct generalizing c with
  | case1 fuel seq => rw [List.nil_perm.1 hperm, hufMerge, mergeBySearch]
  | case2 fuel seq a =>
    obtain rfl := List.singleton_perm.1 hperm
    rw [hufMerge, mergeBySearch]
  | case3 seq a b q =>
    match c, hperm.length_eq with
    | x :: y :: xs, _ => rfl
  | case4 fuel seq a b q ih =>
    match c, hperm.length_eq with
    | x :: y :: xs, _ =>
      obtain ⟨ha, hrest⟩ := h.head_eq_leastNode hperm
      rw [hufMerge, mergeBySearch]
      simp only [ha]
      match (x :: y :: xs).erase a, hrest with
      | [], hrest => exact absurd hrest.length_eq (Nat.succ_ne_zero _)
      | u :: us, hrest =>
        obtain ⟨hb, hrest⟩ := h.tail.head_eq_leastNode hrest
        simp only [hb]
        exact ih (h.tail.tail.insert rfl) ((hufInsert_perm _ q).trans (hrest.cons _))

/-! ### The leaves -/

/-- The leaf of a table's entry, numbered (R163 (a)). -/
def numberedLeaf (e : (Symbol × Nat) × Nat) : HufNode := { seq := e.2, tree := .leaf e.1.1 e.1.2 }

theorem numberedLeaves_eq_map (f : FreqTable) : numberedLeaves f = (f.zipIdx 0).map numberedLeaf := rfl

theorem hufLeaves_perm (seq : Nat) (f : FreqTable) (q : List HufNode) :
    (hufLeaves seq f q).Perm ((f.zipIdx seq).map numberedLeaf ++ q) := by
  induction f generalizing seq q with
  | nil => exact List.Perm.refl _
  | cons e f ih =>
    rw [hufLeaves, List.zipIdx_cons, List.map_cons, List.cons_append]
    exact (ih (seq + 1) _).trans (((hufInsert_perm _ q).append_left _).trans List.perm_middle)

theorem hufLeaves_ordered {seq : Nat} {f : FreqTable} {q : List HufNode} (h : PriorityOrdered seq q) :
    PriorityOrdered (seq + f.length) (hufLeaves seq f q) := by
  induction f generalizing seq q with
  | nil => exact h
  | cons e f ih =>
    rw [hufLeaves, List.length_cons, ← Nat.add_assoc, Nat.add_right_comm]
    exact ih (h.insert rfl)

/-- The priority structure `hufTree` starts from. -/
theorem hufLeaves_start (f : FreqTable) :
    PriorityOrdered f.length (hufLeaves 0 f []) ∧ (hufLeaves 0 f []).Perm (numberedLeaves f) := by
  have hempty : PriorityOrdered 0 [] := ⟨.nil, .nil, by simp⟩
  refine ⟨?_, ?_⟩
  · simpa using hufLeaves_ordered (f := f) hempty
  · simpa [numberedLeaves_eq_map] using hufLeaves_perm 0 f []

/-- Settles O47: both loops start from the same numbered leaves and take the same two nodes at every merge. The numbers
alone make the keys distinct, so the order of the table is not used. -/
theorem hufTreeMergesTheTwoLeast : Obligations.HufTreeMergesTheTwoLeast := by
  intro f _
  obtain ⟨hordered, hperm⟩ := hufLeaves_start f
  exact hufMerge_eq_mergeBySearch hordered hperm

end Sys2Proof.Machine
end

section
/-! PROOFS. The shape of the tree and its codes (spec/42_huffman.md R164, R178; spec/10_state.md R38, R41). -/

namespace Sys2Proof.Machine

/-! ### The tree (R38, R178) -/

theorem internalNodes_succ {φ : Type} (t : HufTree φ) : internalNodes t + 1 = t.leaves.length := by
  induction t with
  | leaf v f => rfl
  | internal f l r ihl ihr => rw [HufTree.leaves, List.length_append, ← ihl, ← ihr, internalNodes]; omega

/-- The symbols on the leaves of a priority structure. -/
def leafSymbols (q : List HufNode) : List Symbol := q.flatMap fun e => e.tree.leaves

/-- Merging keeps every leaf, and the frequencies of the merged nodes add up. -/
theorem hufMerge_shape {fuel seq : Nat} {q : List HufNode} {t : HufTree Nat} (h : hufMerge fuel seq q = some t)
    (hadd : ∀ e ∈ q, frequenciesAdd e.tree) : t.leaves.Perm (leafSymbols q) ∧ frequenciesAdd t := by
  induction fuel, seq, q using hufMerge.induct with
  | case1 fuel seq => rw [hufMerge] at h; cases h
  | case2 fuel seq e =>
    rw [hufMerge] at h
    cases h
    simpa [leafSymbols] using hadd
  | case3 seq a b rest => cases h
  | case4 fuel seq a b rest ih =>
    obtain ⟨ha, hb, hrest⟩ : _ ∧ _ ∧ _ := by simpa only [List.forall_mem_cons] using hadd
    rw [hufMerge] at h
    have hins := hufInsert_perm { seq := seq, tree := .internal (a.tree.freq + b.tree.freq) a.tree b.tree } rest
    obtain ⟨hleaves, hfreq⟩ := ih h fun e he => by
      rcases List.mem_cons.1 (hins.mem_iff.1 he) with rfl | he
      · exact ⟨rfl, ha, hb⟩
      · exact hrest e he
    refine ⟨hleaves.trans ((hins.flatMap_right _).trans ?_), hfreq⟩
    simp [leafSymbols, HufTree.leaves]

theorem leafSymbols_numberedLeaves (f : FreqTable) : leafSymbols (numberedLeaves f) = f.map Prod.fst := by
  have hleaf : ∀ n, leafSymbols ((f.zipIdx n).map numberedLeaf) = f.map Prod.fst := by
    induction f with
    | nil => exact fun _ => rfl
    | cons e f ih => exact fun n => congrArg (e.1 :: ·) (ih (n + 1))
  exact hleaf 0

/-- R178: the tree of a table has the table's symbols on its leaves, and its frequencies add up (R38). -/
theorem hufTree_shape {f : FreqTable} {t : HufTree Nat} (h : hufTree f = some t) :
    t.leaves.Perm (f.map Prod.fst) ∧ frequenciesAdd t := by
  obtain ⟨-, hperm⟩ := hufLeaves_start f
  have hadd : ∀ e ∈ hufLeaves 0 f [], frequenciesAdd e.tree := fun e he => by
    obtain ⟨x, -, rfl⟩ := List.mem_map.1 (hperm.mem_iff.1 he)
    exact trivial
  obtain ⟨hleaves, hfreq⟩ := hufMerge_shape h hadd
  exact ⟨leafSymbols_numberedLeaves f ▸ hleaves.trans (hperm.flatMap_right _), hfreq⟩

/-! ### Codewords (R164) -/

/-- The codewords of a subtree extend the path to it; the part after the path leads to the symbol's leaf, by no more edges
than the subtree has internal nodes. -/
theorem hufFollow_of_mem_hufWalk {φ : Type} {t : HufTree φ} {path : Bits} {v : Symbol} {w : Bits}
    (h : (v, w) ∈ hufWalk t path) :
    ∃ edges, w = path ++ edges ∧ edges.length ≤ internalNodes t ∧
      ∀ x, hufFollow t.bare (edges ++ x) = .ok (v, x) := by
  induction t generalizing path with
  | leaf u f =>
    cases List.mem_singleton.1 h
    exact ⟨[], (List.append_nil _).symm, le_rfl, fun _ => rfl⟩
  | internal f l r ihl ihr =>
    rcases List.mem_append.1 h with h | h
    · obtain ⟨edges, rfl, hlen, hfollow⟩ := ihl h
      refine ⟨false :: edges, by simp, ?_, hfollow⟩
      rw [List.length_cons, internalNodes]
      omega
    · obtain ⟨edges, rfl, hlen, hfollow⟩ := ihr h
      refine ⟨true :: edges, by simp, ?_, hfollow⟩
      rw [List.length_cons, internalNodes]
      omega

theorem hufWalk_map_fst {φ : Type} (t : HufTree φ) (path : Bits) : (hufWalk t path).map Prod.fst = t.leaves := by
  induction t generalizing path with
  | leaf v f => rfl
  | internal f l r ihl ihr => rw [hufWalk, List.map_append, ihl, ihr, HufTree.leaves]

theorem hufCodes_map_fst {φ : Type} (t : HufTree φ) : (hufCodes (some t)).map Prod.fst = t.leaves := by
  cases t with
  | leaf v f => rfl
  | internal f l r => exact hufWalk_map_fst (.internal f l r) []

/-- A codeword has at least one bit and is what the decoder takes from the payload for its symbol (R164, R169, R170). -/
theorem hufSymbol_of_mem_hufCodes {φ : Type} {t : HufTree φ} {v : Symbol} {w : Bits} (h : (v, w) ∈ hufCodes (some t)) :
    1 ≤ w.length ∧ w.length ≤ max 1 (internalNodes t) ∧ ∀ x, hufSymbol (some t.bare) (w ++ x) = .ok (v, x) := by
  cases t with
  | leaf u f =>
    cases List.mem_singleton.1 h
    exact ⟨le_rfl, le_rfl, fun _ => rfl⟩
  | internal f l r =>
    obtain ⟨edges, hw, hlen, hfollow⟩ := hufFollow_of_mem_hufWalk (t := .internal f l r) (path := []) h
    obtain rfl : w = edges := hw
    refine ⟨?_, le_max_of_le_right hlen, hfollow⟩
    cases w with
    | nil => cases hfollow []
    | cons x w => exact Nat.succ_pos _

theorem codeFor_mem_of_mem_fst {c : CodeTable} {v : Symbol} (h : v ∈ c.map Prod.fst) : (v, codeFor c v) ∈ c := by
  rw [codeFor]
  cases hlookup : c.lookup v with
  | none =>
    obtain ⟨e, he, rfl⟩ := List.mem_map.1 h
    simpa using List.lookup_eq_none_iff.1 hlookup e he
  | some w =>
    obtain ⟨l, r, rfl, -⟩ := List.lookup_eq_some_iff.1 hlookup
    simp

section
variable {φ : Type} {t : HufTree φ} {v : Symbol}

theorem codeFor_mem_hufCodes (hv : v ∈ t.leaves) : (v, codeFor (hufCodes (some t)) v) ∈ hufCodes (some t) :=
  codeFor_mem_of_mem_fst (by rwa [hufCodes_map_fst])

theorem one_le_codeFor_length (hv : v ∈ t.leaves) : 1 ≤ (codeFor (hufCodes (some t)) v).length :=
  (hufSymbol_of_mem_hufCodes (codeFor_mem_hufCodes hv)).1

theorem codeFor_length_le (hv : v ∈ t.leaves) : (codeFor (hufCodes (some t)) v).length ≤ max 1 (internalNodes t) :=
  (hufSymbol_of_mem_hufCodes (codeFor_mem_hufCodes hv)).2.1

theorem hufSymbol_codeFor_append (hv : v ∈ t.leaves) (x : Bits) :
    hufSymbol (some t.bare) (codeFor (hufCodes (some t)) v ++ x) = .ok (v, x) :=
  (hufSymbol_of_mem_hufCodes (codeFor_mem_hufCodes hv)).2.2 x

/-- R178: a codeword that began another one would decode to both symbols. -/
theorem eq_of_codeFor_prefix {w : Symbol} (hv : v ∈ t.leaves) (hw : w ∈ t.leaves)
    (h : codeFor (hufCodes (some t)) v <+: codeFor (hufCodes (some t)) w) : v = w := by
  obtain ⟨x, hx⟩ := h
  have hdecode := hufSymbol_codeFor_append hw []
  rw [List.append_nil, ← hx, hufSymbol_codeFor_append hv x] at hdecode
  cases hdecode
  rfl

/-- Every symbol takes at least one bit of the payload. -/
theorem length_le_hufPayload_length {vals : List Nat} (h : ∀ v ∈ vals, v ∈ t.leaves) :
    vals.length ≤ (hufPayload (hufCodes (some t)) vals).length := by
  induction vals with
  | nil => exact Nat.zero_le _
  | cons v vals ih =>
    obtain ⟨hv, hvals⟩ := List.forall_mem_cons.1 h
    have hpayload : hufPayload (hufCodes (some t)) (v :: vals) =
        codeFor (hufCodes (some t)) v ++ hufPayload (hufCodes (some t)) vals := List.flatMap_cons
    have hone := one_le_codeFor_length hv
    have := ih hvals
    rw [hpayload, List.length_append, List.length_cons]
    omega

end

/-! ### The payload and the frame (R86, R167, R178) -/

theorem hufPayload_freqOf_length (c : CodeTable) (vals : List Nat) :
    (hufPayload c vals).length = ((freqOf vals).map fun e => e.2 * (codeFor c e.1).length).sum := by
  rw [freqOf_sum fun v => (codeFor c v).length, hufPayload, List.length_flatMap]

/-- With one symbol only, every codeword is the bit 0 (R164). -/
theorem hufPayload_of_single {vals : List Nat} (h : (freqOf vals).length = 1) :
    hufPayload (hufCodes (hufTree (freqOf vals))) vals = zeros vals.length := by
  obtain ⟨⟨v, n⟩, hf⟩ := List.length_eq_one_iff.1 h
  have hcode : ∀ u ∈ vals, codeFor (hufCodes (hufTree (freqOf vals))) u = [false] := fun u hu => by
    have huv := freqOf_mem_fst.2 hu
    rw [hf] at huv ⊢
    obtain rfl : u = v := List.mem_singleton.1 huv
    change ((List.lookup u [(u, [false])]).getD [] : Bits) = [false]
    simp
  rw [hufPayload, List.flatMap_congr hcode, ← List.map_eq_flatMap, List.map_const', zeros]

theorem hufFrame_length (SB : Nat) (ts : Bits) (nbytes : Nat) (payload : Bits) :
    (hufFrame SB ts nbytes payload).length = 39 + ts.length + payload.length := by
  simp only [hufFrame, List.length_append, bitsOf_length]
  omega

/-- A non-empty input is encoded when its width and its sizes fit the fields of the frame (R167, R168). -/
theorem hufEncode_ok_iff {d : Bits} (hd : d ≠ []) (SB : Nat) (b : Bits) :
    hufEncode d SB = .ok b ↔
      1 ≤ SB ∧ SB ≤ 63 ∧ ceilDiv d.length 8 ≤ 131071 ∧ (hufSerTree (hufTree (hufFreq d SB)) SB).length < 2 ^ 16 ∧
        b = hufFrame SB (hufSerTree (hufTree (hufFreq d SB)) SB) (ceilDiv d.length 8)
          (hufPayload (hufCodes (hufTree (hufFreq d SB))) (chunkVals SB d)) := by
  unfold hufEncode hufMaxSymbolBits hufMaxBytes hufMaxTreeBits
  rw [if_neg hd]
  split
  · simp; omega
  · split
    · simp; omega
    · split
      · simp; omega
      · simp only
        split
        · simp; omega
        · simp only [Except.ok.injEq, eq_comm (b := b)]
          constructor
          · exact fun h => ⟨by omega, by omega, by omega, by omega, h⟩
          · exact fun ⟨_, _, _, _, h⟩ => h

theorem hufFreq_ne_nil {d : Bits} (hd : d ≠ []) {SB : Nat} (hSB : 1 ≤ SB) : hufFreq d SB ≠ [] := by
  intro hnil
  have hcount := freqOf_total (chunkVals SB d)
  rw [hufFreq] at hnil
  rw [hnil, chunkVals_length hSB, ceilDiv_of_pos hSB (List.length_pos_iff.2 hd)] at hcount
  cases hcount

/-- Settles O48: the tree's leaves are the table's symbols; a codeword is what the decoder takes for its symbol, which
bounds it and keeps it from beginning another. -/
theorem hufTreeAndCodesStructure : Obligations.HufTreeAndCodesStructure := by
  intro d SB hSB hd f c payload
  obtain ⟨t, ht, -⟩ := hufTree_some (hufFreq_ne_nil hd hSB)
  obtain ⟨hleaves, hadd⟩ := hufTree_shape ht
  have hsymbol : ∀ v ∈ f.map Prod.fst, v ∈ t.leaves := fun v => hleaves.mem_iff.2
  have hnodes : internalNodes t = f.length - 1 := by
    have := internalNodes_succ t
    have := hleaves.length_eq
    rw [List.length_map] at this
    change _ = (hufFreq d SB).length - 1
    omega
  have hcodes : c = hufCodes (some t) := congrArg hufCodes ht
  refine ⟨⟨t, ht, hleaves, hnodes, hadd⟩, fun hm v hv => ?_, fun v hv w hw hne hprefix => ?_,
    hufPayload_freqOf_length c _, fun hone => ?_, fun b hb => ?_⟩
  · rw [hcodes]
    refine ⟨one_le_codeFor_length (hsymbol v hv), (codeFor_length_le (hsymbol v hv)).trans ?_⟩
    omega
  · rw [hcodes] at hprefix
    exact hne (eq_of_codeFor_prefix (hsymbol v hv) (hsymbol w hw) hprefix)
  · rw [← chunkVals_length hSB]
    exact hufPayload_of_single hone
  · obtain ⟨-, -, -, -, rfl⟩ := (hufEncode_ok_iff hd SB b).1 hb
    exact hufFrame_length ..

end Sys2Proof.Machine
end

section
/-! PROOFS. The tree parser reads back what the serializer wrote (spec/42_huffman.md R165, R166; spec/30_encoding.md R85). -/

namespace Sys2Proof.Machine

/-- Where a serialized tree stands in a buffer, the parser takes it and stops after it. -/
theorem hufDeserFuel_of_drop {φ : Type} {SB : Nat} {t : HufTree φ} (ht : ∀ v ∈ t.leaves, v < 2 ^ SB) {b x : Bits}
    {fuel pos : Nat} (hb : b.drop pos = hufSerNode SB t ++ x) (hfuel : (hufSerNode SB t).length ≤ fuel) :
    hufDeserFuel SB b fuel pos = .ok (t.bare, pos + (hufSerNode SB t).length) := by
  induction t generalizing fuel pos x with
  | leaf v f =>
    have hv : v < 2 ^ SB := ht v (by simp [HufTree.leaves])
    obtain ⟨fuel, rfl⟩ := Nat.exists_eq_add_of_le' (Nat.one_le_of_lt hfuel)
    have hlen : ¬ (bitsOf SB v ++ x).length < SB := by simp
    rw [hufDeserFuel, hb]
    simp only [hufSerNode, List.cons_append, if_neg hlen, List.take_left' (bitsOf_length SB v), uint_bitsOf hv,
      HufTree.bare, List.length_cons, bitsOf_length]
    rw [Nat.add_assoc, Nat.add_comm 1]
  | internal f l r ihl ihr =>
    obtain ⟨hl, hr⟩ := List.forall_mem_append.1 ht
    rw [hufSerNode, List.length_cons, List.length_append] at hfuel
    obtain ⟨fuel, rfl⟩ := Nat.exists_eq_add_of_le' (Nat.one_le_of_lt hfuel)
    have hnode : b.drop pos = false :: (hufSerNode SB l ++ (hufSerNode SB r ++ x)) := by
      rw [hb, hufSerNode, List.cons_append, List.append_assoc]
    have hleft : b.drop (pos + 1) = hufSerNode SB l ++ (hufSerNode SB r ++ x) := by
      rw [← List.drop_drop, hnode]; rfl
    have hright : b.drop (pos + 1 + (hufSerNode SB l).length) = hufSerNode SB r ++ x := by
      rw [← List.drop_drop, hleft, List.drop_left]
    have hparseLeft := ihl hl hleft (fuel := fuel) (by omega)
    have hparseRight := ihr hr hright (fuel := fuel) (by omega)
    have hend : pos + (hufSerNode SB (.internal f l r)).length =
        pos + 1 + (hufSerNode SB l).length + (hufSerNode SB r).length := by
      rw [hufSerNode, List.length_cons, List.length_append]; omega
    rw [hufDeserFuel, hnode, hend]
    simp only [hparseLeft, hparseRight, HufTree.bare]

theorem hufDeserTree_hufSerNode_append {φ : Type} {SB : Nat} {t : HufTree φ} (ht : ∀ v ∈ t.leaves, v < 2 ^ SB)
    (x : Bits) : hufDeserTree (hufSerNode SB t ++ x) 0 SB = .ok (t.bare, (hufSerNode SB t).length) := by
  have hfuel : (hufSerNode SB t).length ≤ (hufSerNode SB t ++ x).length + 1 := by simp; omega
  rw [hufDeserTree, hufDeserFuel_of_drop ht List.drop_zero hfuel, Nat.zero_add]

/-- Settles O49: a node is parsed where it stands, its subtrees after its own bit. -/
theorem hufTreeSerializationRoundTrip : Obligations.HufTreeSerializationRoundTrip := by
  intro t SB x ht
  refine ⟨hufDeserTree_hufSerNode_append ht x, ?_⟩
  have hlen := hufSerNode_length_succ SB t
  have hleaves := internalNodes_succ t
  have hmul : t.leaves.length * (SB + 2) = t.leaves.length * (1 + SB) + t.leaves.length := by ring
  rw [hufSerTree]
  omega

/-! ### The tree field of a frame (R173) -/

/-- What the parser answers does not depend on bits after the tree, nor on spare fuel. -/
theorem hufDeserFuel_append {SB fuel fuel' pos : Nat} {b : Bits} {r : HufTree Unit × Nat}
    (h : hufDeserFuel SB b fuel pos = .ok r) (hfuel : fuel ≤ fuel') (x : Bits) :
    hufDeserFuel SB (b ++ x) fuel' pos = .ok r := by
  induction fuel generalizing fuel' pos r with
  | zero => cases h
  | succ fuel ih =>
    obtain ⟨k, rfl⟩ := Nat.exists_eq_add_of_le' (Nat.one_le_of_lt hfuel)
    have hpos : pos ≤ b.length := (hufDeserFuel_ok (p := r.2) (t := r.1) h).1.le.trans (hufDeserFuel_ok h).2
    rw [hufDeserFuel] at h ⊢
    rw [List.drop_append_of_le_length hpos]
    split at h
    · cases h
    · next rest hd =>
      split at h
      · cases h
      · next hlen =>
        have hmore : ¬ (rest ++ x).length < SB := by simp; omega
        rw [hd]
        simp only [List.cons_append, if_neg hmore, List.take_append_of_le_length (not_lt.1 hlen)]
        exact h
    · next rest hd =>
      rw [hd]
      simp only [List.cons_append]
      split at h
      · cases h
      · next l p hl =>
        split at h
        · cases h
        · next rt p' hr =>
          simp only [ih hl (fuel' := k) (by omega), ih hr (fuel' := k) (by omega)]
          exact h

@[simp] theorem hufTreeField_nil (SB : Nat) : hufTreeField [] SB = .ok none := rfl

/-- A non-empty tree field is a tree when the parse ends with the field. -/
theorem hufTreeField_ok_iff {field : Bits} (hne : field ≠ []) (SB : Nat) (tree : Option (HufTree Unit)) :
    hufTreeField field SB = .ok tree ↔ ∃ t, hufDeserTree field 0 SB = .ok (t, field.length) ∧ tree = some t := by
  rw [hufTreeField, if_neg hne]
  cases hparse : hufDeserTree field 0 SB with
  | error e => simp
  | ok r =>
    obtain ⟨t, used⟩ := r
    simp only [Except.ok.injEq, Prod.mk.injEq]
    split
    · next hused => simp [hused, eq_comm]
    · next hused => simp [hused]

theorem hufSerNode_ne_nil {φ : Type} (SB : Nat) (t : HufTree φ) : hufSerNode SB t ≠ [] :=
  List.ne_nil_of_length_pos (hufSerNode_pos SB t)

theorem hufTreeField_hufSerNode {φ : Type} {SB : Nat} {t : HufTree φ} (ht : ∀ v ∈ t.leaves, v < 2 ^ SB) :
    hufTreeField (hufSerNode SB t) SB = .ok (some t.bare) := by
  have hparse := hufDeserTree_hufSerNode_append ht []
  rw [List.append_nil] at hparse
  exact (hufTreeField_ok_iff (hufSerNode_ne_nil SB t) SB _).2 ⟨t.bare, hparse, rfl⟩

/-- A field that does not parse to its end, or not at all, is malformed. -/
theorem hufTreeField_malformed {field : Bits} (hne : field ≠ []) {SB : Nat}
    (h : ∀ t, hufDeserTree field 0 SB ≠ .ok (t, field.length)) : hufTreeField field SB = .error .malformedStream := by
  cases hfield : hufTreeField field SB with
  | error e => rw [hufTreeField_error hfield]
  | ok tree =>
    obtain ⟨t, hparse, -⟩ := (hufTreeField_ok_iff hne SB tree).1 hfield
    exact absurd hparse (h t)

/-- R173 (a): bits after the tree. -/
theorem hufTreeField_overfull {φ : Type} {SB : Nat} {t : HufTree φ} (ht : ∀ v ∈ t.leaves, v < 2 ^ SB) {y : Bits}
    (hy : y ≠ []) : hufTreeField (hufSerNode SB t ++ y) SB = .error .malformedStream := by
  refine hufTreeField_malformed (List.append_ne_nil_of_right_ne_nil _ hy) fun t' hparse => ?_
  rw [hufDeserTree_hufSerNode_append ht y, List.length_append] at hparse
  have hpos := List.length_pos_iff.2 hy
  simp only [Except.ok.injEq, Prod.mk.injEq] at hparse
  omega

/-- R173 (a): a tree cut short. Were the part parsed to its end, so would the whole tree be, by the same parse. -/
theorem hufTreeField_cut {φ : Type} {SB : Nat} {t : HufTree φ} (ht : ∀ v ∈ t.leaves, v < 2 ^ SB) {y z : Bits}
    (hser : hufSerNode SB t = y ++ z) (hy : y ≠ []) (hz : z ≠ []) :
    hufTreeField y SB = .error .malformedStream := by
  refine hufTreeField_malformed hy fun t' hparse => ?_
  have hwhole := hufDeserTree_hufSerNode_append ht []
  rw [List.append_nil, hser] at hwhole
  have hmore : hufDeserTree (y ++ z) 0 SB = .ok (t', y.length) :=
    hufDeserFuel_append hparse (by rw [List.length_append]; omega) z
  rw [hmore, List.length_append] at hwhole
  have hpos := List.length_pos_iff.2 hz
  simp only [Except.ok.injEq, Prod.mk.injEq] at hwhole
  omega

end Sys2Proof.Machine
end

section
/-! PROOFS. Decoding a frame (spec/42_huffman.md R169 to R173; spec/30_encoding.md R86): what the decoder reads from the
fields of a frame, and what the symbol loop puts out. -/

namespace Sys2Proof.Machine

/-! ### The fields of a frame (R86) -/

/-- The second of three parts. -/
theorem slice_eq_of_append {α : Type} {b pre mid post : List α} {lo hi : Nat} (hb : b = pre ++ (mid ++ post))
    (hlo : pre.length = lo) (hhi : lo + mid.length = hi) : slice b lo hi = mid := by
  rw [slice, hb, List.drop_left' hlo, List.take_left' (by omega)]

theorem hufFrame_append (SB : Nat) (ts : Bits) (nbytes : Nat) (payload x : Bits) :
    hufFrame SB ts nbytes payload ++ x = hufFrame SB ts nbytes (payload ++ x) :=
  List.append_assoc ..

section
variable {SB nbytes : Nat} {ts payload : Bits}

/-- A frame whose fields fit is decoded from its fields: the tree field, then as many symbols as the byte count asks for.
The fuel is above the payload's length. -/
theorem hufDecode_hufFrame (hpos : 1 ≤ SB) (hSB : SB ≤ 63) (hts : ts.length < 2 ^ 16) (hbytes : nbytes ≤ 131071) :
    ∃ fuel, payload.length < fuel ∧ hufDecode (hufFrame SB ts nbytes payload) =
      (hufTreeField ts SB).bind fun tree => hufDecodeLoop tree SB (8 * nbytes) fuel 0 payload := by
  have hlen := hufFrame_length SB ts nbytes payload
  have hwidth : slice (hufFrame SB ts nbytes payload) 0 6 = bitsOf 6 SB :=
    slice_eq_of_append (pre := []) (by simp only [hufFrame, List.append_assoc]; rfl) rfl (by simp)
  have htreeLen : slice (hufFrame SB ts nbytes payload) 6 22 = bitsOf 16 ts.length :=
    slice_eq_of_append (pre := bitsOf 6 SB) (by simp only [hufFrame, List.append_assoc]; rfl) (by simp) (by simp)
  have htree : slice (hufFrame SB ts nbytes payload) 22 (22 + ts.length) = ts :=
    slice_eq_of_append (pre := bitsOf 6 SB ++ bitsOf 16 ts.length) (by simp only [hufFrame, List.append_assoc]; rfl) (by simp) rfl
  have hcount : slice (hufFrame SB ts nbytes payload) (22 + ts.length) (39 + ts.length) = bitsOf 17 nbytes :=
    slice_eq_of_append (pre := bitsOf 6 SB ++ bitsOf 16 ts.length ++ ts) (by simp only [hufFrame, List.append_assoc]; rfl)
      (by simp; omega)
      (by rw [bitsOf_length, Nat.add_right_comm])
  have hrest : (hufFrame SB ts nbytes payload).drop (39 + ts.length) = payload :=
    List.drop_left' (by simp; omega)
  refine ⟨(hufFrame SB ts nbytes payload).length + 1, by omega, ?_⟩
  have hne : hufFrame SB ts nbytes payload ≠ [] := List.ne_nil_of_length_pos (by omega)
  unfold hufDecode
  simp only [hwidth, htreeLen, htree, hcount, hrest, uint_bitsOf (show SB < 2 ^ 6 by omega), uint_bitsOf hts,
    uint_bitsOf (show nbytes < 2 ^ 17 by omega)]
  rw [if_neg hne, if_neg (by omega), if_neg (by omega), if_neg (by omega)]
  cases hufTreeField ts SB <;> rfl

theorem hufDecode_hufFrame_of_field_error {e : ErrorKind} (hpos : 1 ≤ SB) (hSB : SB ≤ 63) (hts : ts.length < 2 ^ 16)
    (hbytes : nbytes ≤ 131071) (h : hufTreeField ts SB = .error e) :
    hufDecode (hufFrame SB ts nbytes payload) = .error e := by
  obtain ⟨fuel, -, hdecode⟩ := hufDecode_hufFrame (payload := payload) hpos hSB hts hbytes
  rw [hdecode, h]
  rfl

theorem hufDecode_hufFrame_of_field {tree : Option (HufTree Unit)} (hpos : 1 ≤ SB) (hSB : SB ≤ 63)
    (hts : ts.length < 2 ^ 16) (hbytes : nbytes ≤ 131071) (h : hufTreeField ts SB = .ok tree) :
    ∃ fuel, payload.length < fuel ∧
      hufDecode (hufFrame SB ts nbytes payload) = hufDecodeLoop tree SB (8 * nbytes) fuel 0 payload := by
  obtain ⟨fuel, hfuel, hdecode⟩ := hufDecode_hufFrame (payload := payload) hpos hSB hts hbytes
  refine ⟨fuel, hfuel, ?_⟩
  rw [hdecode, h]
  rfl

end

/-! ### Any tree that holds the symbols (R163) -/

/-- The loop reads the codewords of the values one by one and puts out the values. -/
theorem hufDecodeLoop_hufPayload {φ : Type} {t : HufTree φ} {vals : List Nat} (h : ∀ v ∈ vals, v ∈ t.leaves) {SB : Nat}
    (hSB : 1 ≤ SB) {fuel : Nat} (hfuel : vals.length ≤ fuel) (emitted : Nat) (x : Bits) :
    hufDecodeLoop (some t.bare) SB (emitted + SB * vals.length) fuel emitted
      (hufPayload (hufCodes (some t)) vals ++ x) = .ok (symBits SB vals) := by
  induction vals generalizing fuel emitted with
  | nil => exact hufDecodeLoop_of_le le_rfl _ _
  | cons v vals ih =>
    obtain ⟨hv, hvals⟩ := List.forall_mem_cons.1 h
    obtain ⟨fuel, rfl⟩ := Nat.exists_eq_add_of_le' (Nat.one_le_of_lt hfuel)
    have htarget : emitted + SB * (v :: vals).length = emitted + SB + SB * vals.length := by
      rw [List.length_cons, Nat.mul_succ]; omega
    have hdue : emitted < emitted + SB + SB * vals.length := by omega
    rw [htarget, hufDecodeLoop_succ_ok_iff hdue]
    refine ⟨v, hufPayload (hufCodes (some t)) vals ++ x, symBits SB vals, ?_,
      ih hvals (Nat.le_of_succ_le_succ hfuel) (emitted + SB), rfl⟩
    rw [hufPayload, List.flatMap_cons, List.append_assoc]
    exact hufSymbol_codeFor_append hv _

/-- Settles O55: the tree field gives back the tree, by whose codes the payload was made. -/
theorem hufFrameOfAnyTreeDecodes : Obligations.HufFrameOfAnyTreeDecodes := by
  intro d x SB t hpos hSB hbytes hsyms hlimit _ hleaves hvals hts
  have hfield : hufTreeField (hufSerTree (some t) SB) SB = .ok (some t.bare) := hufTreeField_hufSerNode hleaves
  rw [hufFrame_append]
  obtain ⟨fuel, hfuel, hdecode⟩ := hufDecode_hufFrame_of_field
    (payload := hufPayload (hufCodes (some t)) (chunkVals SB d) ++ x) hpos hSB hts hlimit hfield
  have hd : symBits SB (chunkVals SB d) = d := symBits_syms hpos hsyms
  have htarget : 8 * (d.length / 8) = 0 + SB * (chunkVals SB d).length := by
    rw [Nat.mul_div_cancel' (Nat.dvd_of_mod_eq_zero hbytes), Nat.zero_add, ← symBits_length, hd]
  have hcount := length_le_hufPayload_length hvals
  rw [List.length_append] at hfuel
  rw [hdecode, htarget, hufDecodeLoop_hufPayload hvals hpos (by omega), hd]

/-! ### Whole symbols (R171) -/

/-- Symbols are due until the target is covered. -/
theorem ceilDiv_due {SB target emitted : Nat} (hSB : 1 ≤ SB) (h : emitted < target) :
    ceilDiv (target - emitted) SB = ceilDiv (target - (emitted + SB)) SB + 1 := by
  rw [ceilDiv_of_pos hSB (Nat.sub_pos_of_lt h), Nat.sub_sub]

theorem ceilDiv_none_due {SB target emitted : Nat} (hSB : 1 ≤ SB) (h : target ≤ emitted) :
    ceilDiv (target - emitted) SB = 0 := by
  rw [Nat.sub_eq_zero_of_le h, ceilDiv_zero hSB]

theorem hufDecodeLoop_length {t : Option (HufTree Unit)} {SB target fuel emitted : Nat} {payload out : Bits}
    (hSB : 1 ≤ SB) (h : hufDecodeLoop t SB target fuel emitted payload = .ok out) :
    out.length = SB * ceilDiv (target - emitted) SB := by
  induction fuel generalizing emitted payload out with
  | zero =>
    rcases lt_or_ge emitted target with hlt | hge
    · rw [hufDecodeLoop_zero_of_lt hlt] at h
      cases h
    · rw [hufDecodeLoop_of_le hge] at h
      cases h
      rw [ceilDiv_none_due hSB hge]
      rfl
  | succ fuel ih =>
    rcases lt_or_ge emitted target with hlt | hge
    · obtain ⟨v, rest, tail, -, htail, rfl⟩ := (hufDecodeLoop_succ_ok_iff hlt t payload out).1 h
      rw [List.length_append, bitsOf_length, ih htail, ceilDiv_due hSB hlt, Nat.mul_succ, Nat.add_comm]
    · rw [hufDecodeLoop_of_le hge] at h
      cases h
      rw [ceilDiv_none_due hSB hge]
      rfl

/-- Settles O57: each round of the loop puts out `SB` bits, and the rounds cover the target. -/
theorem hufOutputIsWholeSymbols : Obligations.HufOutputIsWholeSymbols := by
  intro b out hb h SB ts target
  obtain ⟨hSB, -, tree, -, hloop⟩ := (hufDecode_ok_iff hb out).1 h
  have hpos : 1 ≤ SB := Nat.pos_of_ne_zero hSB
  have hlen := hufDecodeLoop_length hpos hloop
  rw [Nat.sub_zero] at hlen
  rw [hlen]
  exact ⟨rfl, mul_ceilDiv_bounds hpos⟩

/-! ### A single-leaf tree (R170) -/

theorem hufDecodeLoop_leaf {SB target fuel emitted : Nat} {payload : Bits} (hSB : 1 ≤ SB) (hfuel : payload.length < fuel)
    (v : Symbol) :
    hufDecodeLoop (some (.leaf v ())) SB target fuel emitted payload =
      if ceilDiv (target - emitted) SB ≤ payload.length then
        .ok (List.replicate (ceilDiv (target - emitted) SB) (bitsOf SB v)).flatten
      else .error .malformedStream := by
  induction fuel generalizing emitted payload with
  | zero => cases hfuel
  | succ fuel ih =>
    rcases lt_or_ge emitted target with hlt | hge
    · rw [hufDecodeLoop, if_pos hlt, ceilDiv_due hSB hlt]
      cases payload with
      | nil => rfl
      | cons x payload =>
        simp only [hufSymbol, ih (emitted := emitted + SB) (Nat.lt_of_succ_lt_succ hfuel), List.length_cons,
          Nat.add_le_add_iff_right]
        by_cases hbits : ceilDiv (target - (emitted + SB)) SB ≤ payload.length
        · simp only [if_pos hbits]
          rfl
        · simp only [if_neg hbits]
    · rw [hufDecodeLoop_of_le hge, ceilDiv_none_due hSB hge]
      rfl

/-- Settles O56: the leaf alone fills the tree field, and every symbol takes a bit of the payload. -/
theorem hufDegenerateTree : Obligations.HufDegenerateTree := by
  intro SB v nbytes payload hpos hSB hv hbytes
  have hfield : hufTreeField (true :: bitsOf SB v) SB = .ok (some (.leaf v ())) :=
    hufTreeField_hufSerNode (t := .leaf v ()) (by simpa [HufTree.leaves] using hv)
  have hts : (true :: bitsOf SB v).length < 2 ^ 16 := by rw [List.length_cons, bitsOf_length]; omega
  obtain ⟨fuel, hfuel, hdecode⟩ := hufDecode_hufFrame_of_field (payload := payload) hpos hSB hts hbytes hfield
  rw [hdecode, hufDecodeLoop_leaf hpos hfuel, Nat.sub_zero]

/-! ### The tree field (R173) -/

/-- The absent tree has no symbol to put out. -/
theorem hufDecodeLoop_none {SB target fuel emitted : Nat} (h : emitted < target) (payload : Bits) :
    hufDecodeLoop none SB target fuel emitted payload = .error .malformedStream := by
  cases fuel with
  | zero => exact hufDecodeLoop_zero_of_lt h none payload
  | succ fuel => exact if_pos h

/-- Settles O58: an overfull and a cut field do not parse to their end; the empty field has no symbol to give; and with no
bytes declared none is asked for. -/
theorem hufTreeFieldIsFilledExactly : Obligations.HufTreeFieldIsFilledExactly := by
  refine ⟨fun SB nbytes t y rest hpos hSB hbytes hleaves hy hts => ?_,
    fun SB nbytes t y z rest hpos hSB hbytes hleaves hser hy hz hts => ?_, fun SB nbytes rest hpos hSB hbytes => ?_,
    fun SB t rest hpos hSB hleaves hts => ?_⟩
  · exact hufDecode_hufFrame_of_field_error hpos hSB hts hbytes (hufTreeField_overfull hleaves hy)
  · exact hufDecode_hufFrame_of_field_error hpos hSB hts hbytes (hufTreeField_cut hleaves hser hy hz)
  · obtain ⟨fuel, -, hdecode⟩ :=
      hufDecode_hufFrame_of_field (ts := []) (payload := rest) hpos hSB (by decide) hbytes (hufTreeField_nil SB)
    rw [hdecode]
    split
    · next hzero => exact hufDecodeLoop_of_le (by omega) none rest
    · next hsome => exact hufDecodeLoop_none (by omega) rest
  · obtain ⟨fuel, -, hdecode⟩ := hufDecode_hufFrame_of_field (payload := rest) hpos hSB hts (Nat.zero_le 131071)
      (hufTreeField_hufSerNode hleaves)
    exact hdecode.trans (hufDecodeLoop_of_le (Nat.zero_le 0) _ rest)

end Sys2Proof.Machine
end

section
/-! PROOFS. `HUF_ENC`, `HUF_DEC` and `HUF_TREE` (spec/42_huffman.md R174 to R176; spec/60_exceptions.md R201, R202). -/

namespace Sys2Proof.Machine

/-! ### A result put into OUT -/

section
variable {i : Instr} {s : State} {r : Except ErrorKind Bits}

theorem exec_of_hufResult_ok (hi : resultOf i s = hufResult r s) {b : Bits} (hr : r = .ok b)
    (hcap : s.build.outCap.allows b.length = true) :
    exec i s = .next { s with outBuf := b, inRd := s.inBuf.length, status := .done } :=
  exec_of_ok (hi.trans ((hufResult_ok_iff r s _).2 ⟨b, hr, hcap, rfl⟩))

theorem exec_of_hufResult_error (hi : resultOf i s = hufResult r s) {e : ErrorKind} (hr : r = .error e) :
    exec i s = .next (afterError i e s) :=
  exec_raises (hi.trans ((hufResult_error_iff r s e).2 (.inl hr)))

/-- The command raises `CapacityExceeded` when computing the result raises nothing else and no result fits OUT. -/
theorem exec_of_hufResult_full (hi : resultOf i s = hufResult r s) (herror : ∀ e, r = .error e → e = .capacityExceeded)
    (hfull : ∀ b, r = .ok b → s.build.outCap.allows b.length = false) :
    exec i s = .next (afterError i .capacityExceeded s) := by
  refine exec_raises (hi.trans ((hufResult_error_iff r s _).2 ?_))
  cases hr : r with
  | error e => rw [herror e hr]; exact .inl rfl
  | ok b => exact .inr ⟨b, rfl, hfull b hr, rfl⟩

end

/-! ### What the two encoders answer -/

@[simp] theorem hufEncode_nil (SB : Nat) : hufEncode [] SB = .ok [] := rfl

@[simp] theorem hufDecode_nil : hufDecode [] = .ok [] := rfl

@[simp] theorem hufTreeOnly_nil (SB : Nat) : hufTreeOnly [] SB = .ok [] := rfl

theorem hufTreeOnly_ok_iff {d : Bits} (hd : d ≠ []) (SB : Nat) (b : Bits) :
    hufTreeOnly d SB = .ok b ↔ 1 ≤ SB ∧ SB ≤ 63 ∧ b = hufSerTree (hufTree (hufFreq d SB)) SB := by
  unfold hufTreeOnly hufMaxSymbolBits
  rw [if_neg hd]
  split
  · next hzero => simp [hzero]
  · next hpos =>
    split
    · next hwide => simp [hwide]
    · next hfits =>
      simp only [Except.ok.injEq, eq_comm (b := b)]
      exact ⟨fun h => ⟨Nat.pos_of_ne_zero hpos, not_lt.1 hfits, h⟩, fun ⟨_, _, h⟩ => h⟩

theorem hufEncode_zero_width {d : Bits} (hd : d ≠ []) : hufEncode d 0 = .error .invalidInput := if_neg hd

theorem hufTreeOnly_zero_width {d : Bits} (hd : d ≠ []) : hufTreeOnly d 0 = .error .invalidInput := if_neg hd

/-- With a width to cut the input by, only a capacity can be exceeded (R168). -/
theorem hufEncode_error_of_pos {d : Bits} {SB : Nat} (hSB : 1 ≤ SB) {e : ErrorKind} (h : hufEncode d SB = .error e) :
    e = .capacityExceeded := by
  unfold hufEncode at h
  rw [if_neg (Nat.pos_iff_ne_zero.1 hSB)] at h
  split at h
  · cases h
  · split at h
    · cases h; rfl
    · split at h
      · cases h; rfl
      · simp only at h
        split at h <;> cases h; rfl

theorem hufTreeOnly_error_of_pos {d : Bits} {SB : Nat} (hSB : 1 ≤ SB) {e : ErrorKind}
    (h : hufTreeOnly d SB = .error e) : e = .capacityExceeded := by
  unfold hufTreeOnly at h
  rw [if_neg (Nat.pos_iff_ne_zero.1 hSB)] at h
  split at h
  · cases h
  · split at h <;> cases h; rfl

/-! ### The commands -/

/-- Settles O50: the frame of R86 fits OUT. -/
theorem hufEncWritesTheFrame : Obligations.HufEncWritesTheFrame := by
  refine ⟨fun s hu => exec_of_hufResult_ok rfl (by rw [hu, hufEncode_nil]) (allows_zero _),
    fun s ts payload hu hpos hSB hbytes hts hlimit hpayload hcap => ?_⟩
  subst hts hpayload
  refine exec_of_hufResult_ok rfl ((hufEncode_ok_iff hu s.hufSB _).2 ⟨hpos, hSB, hbytes, hlimit, rfl⟩) ?_
  rw [← hufFrame_length s.hufSB _ (ceilDiv s.unread.length 8)] at hcap
  exact hcap

/-- Settles O51: the only limit is that of OUT. -/
theorem hufTreeWritesTheTree : Obligations.HufTreeWritesTheTree := by
  refine ⟨fun s hu => exec_of_hufResult_ok rfl (by rw [hu, hufTreeOnly_nil]) (allows_zero _),
    fun s ts hu hpos hSB hts hcap => ?_⟩
  subst hts
  exact exec_of_hufResult_ok rfl ((hufTreeOnly_ok_iff hu s.hufSB _).2 ⟨hpos, hSB, rfl⟩) hcap

theorem exec_hufEnc_full {s : State} (hpos : 1 ≤ s.hufSB)
    (hfull : ∀ b, hufEncode s.unread s.hufSB = .ok b → s.build.outCap.allows b.length = false) :
    exec .hufEnc s = .next (afterError .hufEnc .capacityExceeded s) :=
  exec_of_hufResult_full rfl (fun _ => hufEncode_error_of_pos hpos) hfull

theorem exec_hufTree_full {s : State} (hpos : 1 ≤ s.hufSB)
    (hfull : ∀ b, hufTreeOnly s.unread s.hufSB = .ok b → s.build.outCap.allows b.length = false) :
    exec .hufTree s = .next (afterError .hufTree .capacityExceeded s) :=
  exec_of_hufResult_full rfl (fun _ => hufTreeOnly_error_of_pos hpos) hfull

/-- What does not allow a length does not allow a greater one. -/
theorem not_allows_mono {cap : Limit} {m n : Nat} (h : m ≤ n) (hm : cap.allows m = false) : cap.allows n = false := by
  rw [Bool.eq_false_iff] at hm ⊢
  exact fun hn => hm (allows_mono h hn)

/-- Settles O52: a width of 0 is the only other error; every other clause leaves no result that fits. -/
theorem hufEncAndHufTreeRaise : Obligations.HufEncAndHufTreeRaise := by
  intro s hu tree ts payload
  have hframe : ∀ b, hufEncode s.unread s.hufSB = .ok b → b.length = 39 + ts.length + payload.length := by
    intro b hb
    obtain ⟨-, -, -, -, rfl⟩ := (hufEncode_ok_iff hu s.hufSB b).1 hb
    exact hufFrame_length ..
  refine ⟨fun hzero => ⟨?_, ?_⟩, fun hwide => ⟨?_, ?_⟩, fun hpos hbytes => ?_, fun hpos hts => ?_,
    fun hpos hcap => ?_, fun hpos hcap => ⟨?_, ?_⟩⟩
  · exact exec_of_hufResult_error rfl (hzero ▸ hufEncode_zero_width hu)
  · exact exec_of_hufResult_error rfl (hzero ▸ hufTreeOnly_zero_width hu)
  · refine exec_hufEnc_full (Nat.zero_lt_of_lt hwide) fun b hb => ?_
    obtain ⟨-, hSB, -⟩ := (hufEncode_ok_iff hu s.hufSB b).1 hb
    exact absurd hwide (not_lt.2 hSB)
  · refine exec_hufTree_full (Nat.zero_lt_of_lt hwide) fun b hb => ?_
    obtain ⟨-, hSB, -⟩ := (hufTreeOnly_ok_iff hu s.hufSB b).1 hb
    exact absurd hwide (not_lt.2 hSB)
  · refine exec_hufEnc_full hpos fun b hb => ?_
    obtain ⟨-, -, hlimit, -⟩ := (hufEncode_ok_iff hu s.hufSB b).1 hb
    exact absurd hbytes (not_lt.2 hlimit)
  · refine exec_hufEnc_full hpos fun b hb => ?_
    obtain ⟨-, -, -, hlimit, -⟩ := (hufEncode_ok_iff hu s.hufSB b).1 hb
    exact absurd hlimit (not_lt.2 hts)
  · exact exec_hufEnc_full hpos fun b hb => by rwa [hframe b hb]
  · refine exec_hufEnc_full hpos fun b hb => ?_
    rw [hframe b hb]
    exact not_allows_mono (by omega) hcap
  · refine exec_hufTree_full hpos fun b hb => ?_
    obtain ⟨-, -, rfl⟩ := (hufTreeOnly_ok_iff hu s.hufSB b).1 hb
    exact hcap

/-- Settles O53: what does not decode is malformed, and the fields a frame needs are those of `hufDecode_ok_iff`. -/
theorem hufDecWritesTheOutput : Obligations.HufDecWritesTheOutput := by
  refine ⟨fun s hu => exec_of_hufResult_ok rfl (by rw [hu, hufDecode_nil]) (allows_zero _),
    fun s out hout hcap => exec_of_hufResult_ok rfl hout hcap,
    fun s out hout hcap => exec_raises ((hufResult_error_iff _ s _).2 (.inr ⟨out, hout, hcap, rfl⟩)),
    fun s e he => exec_of_hufResult_error rfl (hufDecode_error he ▸ he), fun s hu hbad => ?_⟩
  cases hdecode : hufDecode s.unread with
  | error e => exact exec_of_hufResult_error rfl (hufDecode_error hdecode ▸ hdecode)
  | ok out =>
    obtain ⟨hSB, hfields, -⟩ := (hufDecode_ok_iff hu out).1 hdecode
    rcases hbad with hshort | hzero | hcut
    · omega
    · exact absurd hzero hSB
    · exact absurd hfields (not_le.2 hcut)

end Sys2Proof.Machine
end

section
/-! PROOFS. The host's primitives, register number by register number (spec/43_system.md R191 to R193). -/

namespace Sys2Proof.Machine

/-! ### Writes (R191) -/

theorem hostWrite_cmd {v : Int} {s : State} (h : Reg.accepts s.build .cmd v = true) :
    hostWrite 0x00 v s = startCommand v.toNat s := if_pos h

/-- A value the port takes is written, at any register but `CMD`. -/
theorem hostWrite_of_accepts {reg : Nat} {v : Int} {s : State} (hreg : reg ≠ 0)
    (h : (decodeReg reg).accepts s.build v = true) : hostWrite reg v s = .next (writeReg (decodeReg reg) v s) := by
  unfold hostWrite
  rw [if_pos h]
  split
  · next hcmd => exact absurd (decodeReg_eq_cmd_iff.1 hcmd) hreg
  · rfl

theorem hostWrite_reserved {reg : Nat} (h : 0x0E ≤ reg) (v : Int) (s : State) : hostWrite reg v s = .next s := by
  have hreserved := decodeReg_eq_reserved_iff.2 h
  rw [hostWrite_of_accepts (by omega) (by rw [hreserved]; rfl), hreserved]
  rfl

theorem writeReg_inRd_of_le {v : Nat} {s : State} (h : v ≤ s.inBuf.length) :
    writeReg .inRd v s = { s with inRd := v } := if_pos h

theorem writeReg_inRd_of_lt {v : Nat} {s : State} (h : s.inBuf.length < v) : writeReg .inRd v s = s :=
  if_neg (not_le.2 h)

/-- Settles O7: a value inside the port's range is written by `writeReg`, which ignores what the host may not write. -/
theorem hostWriteEffects : Obligations.HostWriteEffects := by
  refine ⟨fun s v hfits => ?_, fun s v hfits => hostWrite_of_accepts (by decide) hfits, fun s n v hn => ?_⟩
  · have haccepts : (decide (0 ≤ (v : Int)) && s.build.pw.fits (v : Int).toNat) = true := by simpa using hfits
    have hinRd : hostWrite 0x0B v s = .next (writeReg .inRd v s) := hostWrite_of_accepts (by decide) haccepts
    refine ⟨hostWrite_cmd haccepts, hostWrite_of_accepts (by decide) haccepts,
      hostWrite_of_accepts (by decide) haccepts, hostWrite_of_accepts (by decide) haccepts,
      hostWrite_of_accepts (by decide) haccepts, hostWrite_of_accepts (by decide) haccepts,
      hostWrite_of_accepts (by decide) haccepts, fun hle => ?_, fun hlt => ?_⟩
    · rw [hinRd, writeReg_inRd_of_le hle]
    · rw [hinRd, writeReg_inRd_of_lt hlt]
  · rcases hn with rfl | rfl | rfl | rfl | rfl | hreserved
    case inr.inr.inr.inr.inr => exact hostWrite_reserved hreserved v s
    all_goals exact hostWrite_of_accepts (by decide) rfl

/-! ### Reads (R192) -/

theorem hostRead_reserved {reg : Nat} (h : 0x0E ≤ reg) (s : State) : hostRead reg s = .next (reply (.value 0) s) := by
  rw [hostRead, decodeReg_eq_reserved_iff.2 h]
  rfl

/-- Settles O8: each named register by its row of `readReg`, the reserved numbers by `hostRead_reserved`. -/
theorem hostReadEffects : Obligations.HostReadEffects := by
  intro s
  exact ⟨rfl, rfl, rfl, rfl, rfl, rfl, rfl, rfl, rfl, rfl, rfl, rfl, rfl, rfl, fun _ hn => hostRead_reserved hn s⟩

/-! ### The buffer primitives (R193) -/

theorem Token.wf_iff (c : Config) (t : Token) :
    t.wf c = true ↔ c.numBits.fits t.offset = true ∧ c.numBits.fits t.length = true ∧ t.literal < 2 ^ 8 := by
  simp [Token.wf, and_assoc]

theorem hostLoadIn_of_allows {b : Bits} {s : State} (h : s.build.inCap.allows b.length = true) :
    hostLoadIn b s = .next (loadIn b s) := if_pos h

theorem hostLoadTok_of_wf {toks : List Token} {s : State} (hcap : s.build.tokCap.allows toks.length = true)
    (hwf : ∀ t ∈ toks, t.wf s.build = true) : hostLoadTok toks s = .next (loadTok toks s) :=
  if_pos (by rw [hcap, List.all_eq_true.2 hwf, Bool.and_self])

/-- Settles O9: both loads meet the check their primitive makes; a read only adds a reply. -/
theorem bufferPrimitiveEffects : Obligations.BufferPrimitiveEffects :=
  ⟨fun _ _ hcap => hostLoadIn_of_allows hcap,
    fun s _ hcap hfields => hostLoadTok_of_wf hcap fun t ht => (Token.wf_iff s.build t).2 (hfields t ht),
    fun _ => rfl, fun _ => rfl⟩

end Sys2Proof.Machine
end

section
/-! PROOFS. Every command ends (spec/43_system.md R190, R196): with a result, or with an error other than the one for an illegal word
(spec/60_exceptions.md R200, R204). The errors are followed along `yieldOf`, step by step. -/

namespace Sys2Proof.Machine

/-! ### The errors a command can raise (R200, R204) -/

/-- Not the error of an illegal command word, which no command raises. -/
def NeverIllegal {α : Type} (r : Except ErrorKind α) : Prop := r ≠ .error .illegalCommand

theorem neverIllegal_bind {α β : Type} {r : Except ErrorKind α} {f : α → Except ErrorKind β} (hr : NeverIllegal r)
    (hf : ∀ a, NeverIllegal (f a)) : NeverIllegal (r >>= f) := by
  cases r with
  | error e => exact fun h => hr (by cases h; rfl)
  | ok a => exact hf a

theorem neverIllegal_ite {α : Type} {c : Prop} [Decidable c] {r r' : Except ErrorKind α} (hr : NeverIllegal r)
    (hr' : NeverIllegal r') : NeverIllegal (if c then r else r') := by
  split
  · exact hr
  · exact hr'

/-! ### The parts of a command -/

theorem numEncode_neverIllegal (n : Int) (S : Nat) : NeverIllegal (numEncode n S) :=
  neverIllegal_ite nofun nofun

theorem numDecodeFront_neverIllegal (numBits : Limit) (S : Nat) (u : Bits) : NeverIllegal (numDecodeFront numBits S u) :=
  fun h => by simpa using numDecodeFront_error h

theorem fitTok_neverIllegal (toks : List Token) (s : State) : NeverIllegal (fitTok toks s) :=
  neverIllegal_ite nofun nofun

theorem fitOut_neverIllegal {r : Except ErrorKind Bits} (h : NeverIllegal r) (s : State) : NeverIllegal (fitOut r s) :=
  neverIllegal_bind h fun _ => neverIllegal_ite nofun nofun

theorem lzMatchTokens_neverIllegal (s : State) : NeverIllegal (lzMatchTokens s) := by
  unfold lzMatchTokens
  cases hop : lzMatchOperand s with
  | error e => rw [lzMatchOperand_error hop]; nofun
  | ok sym => exact fitTok_neverIllegal _ s

theorem lzDeserTokens_neverIllegal (s : State) : NeverIllegal (lzDeserTokens s) := by
  refine neverIllegal_ite nofun ?_
  cases hdeser : lzDeserialize s.build.numBits s.numS s.lzB s.unread with
  | error e => obtain rfl | rfl := lzDeserLoop_error hdeser <;> nofun
  | ok toks => exact fitTok_neverIllegal toks s

theorem lzSerialize_neverIllegal (S B : Nat) (toks : List Token) : NeverIllegal (lzSerialize S B toks) := by
  by_cases hwide : ∃ t ∈ toks, 2 ^ B ≤ t.literal
  · rw [lzSerialize_wide hwide]
    nofun
  · rw [lzSerialize_fits (by simpa using hwide)]
    nofun

theorem lzReconstruct_bits_neverIllegal (B : Nat) (toks : List Token) :
    NeverIllegal ((lzReconstruct toks).map (symBits B)) := by
  cases hrecon : lzReconstruct toks with
  | error e => rw [lzReconstruct_error hrecon]; nofun
  | ok out => nofun

theorem hufEncode_neverIllegal (d : Bits) (SB : Nat) : NeverIllegal (hufEncode d SB) :=
  fun h => by simpa using hufEncode_error h

theorem hufDecode_neverIllegal (b : Bits) : NeverIllegal (hufDecode b) :=
  fun h => by simpa using hufDecode_error h

theorem hufTreeOnly_neverIllegal (d : Bits) (SB : Nat) : NeverIllegal (hufTreeOnly d SB) :=
  neverIllegal_ite nofun (neverIllegal_ite nofun (neverIllegal_ite nofun nofun))

/-! ### The commands -/

theorem yieldOf_neverIllegal (i : Instr) (s : State) : NeverIllegal (yieldOf i s) := by
  cases i with
  | numEnc => exact neverIllegal_bind (numEncode_neverIllegal _ _) fun _ => neverIllegal_ite nofun nofun
  | numDec => exact neverIllegal_bind (numDecodeFront_neverIllegal _ _ _) fun _ => nofun
  | lzMatch => exact neverIllegal_bind (lzMatchTokens_neverIllegal s) fun _ => nofun
  | lzDeser => exact neverIllegal_bind (lzDeserTokens_neverIllegal s) fun _ => nofun
  | lzRecon =>
    exact neverIllegal_ite nofun (neverIllegal_ite nofun
      (neverIllegal_bind (fitOut_neverIllegal (lzReconstruct_bits_neverIllegal _ _) s) fun _ => nofun))
  | lzSer =>
    exact neverIllegal_ite nofun
      (neverIllegal_bind (fitOut_neverIllegal (lzSerialize_neverIllegal _ _ _) s) fun _ => nofun)
  | lzEnc =>
    exact neverIllegal_bind (lzMatchTokens_neverIllegal s) fun toks =>
      neverIllegal_bind (fitOut_neverIllegal (lzSerialize_neverIllegal _ _ toks) s) fun _ => nofun
  | lzDec =>
    exact neverIllegal_bind (lzDeserTokens_neverIllegal s) fun toks =>
      neverIllegal_bind (fitOut_neverIllegal (lzReconstruct_bits_neverIllegal _ toks) s) fun _ => nofun
  | hufEnc => exact neverIllegal_bind (fitOut_neverIllegal (hufEncode_neverIllegal _ _) s) fun _ => nofun
  | hufDec => exact neverIllegal_bind (fitOut_neverIllegal (hufDecode_neverIllegal _) s) fun _ => nofun
  | hufTree => exact neverIllegal_bind (fitOut_neverIllegal (hufTreeOnly_neverIllegal _ _) s) fun _ => nofun
  | clrOut => nofun

/-- Settles O18: a command answers a next state, whose STATUS is `DONE` or one of the errors its yield can raise. -/
theorem everyCommandEnds : Obligations.EveryCommandEnds := by
  intro i s
  obtain ⟨t, ht⟩ := exec_answers i s
  refine ⟨t, ht, ?_⟩
  obtain ⟨y, -, rfl⟩ | ⟨e, he, rfl⟩ := (exec_next_iff_yield i s t).1 ht
  · exact .inl rfl
  · cases e with
    | invalidInput => exact .inr (.inl rfl)
    | capacityExceeded => exact .inr (.inr (.inl rfl))
    | malformedStream => exact .inr (.inr (.inr rfl))
    | illegalCommand => exact absurd he (yieldOf_neverIllegal i s)

/-- Settles O60: the command's pseudocode ends in `clearOut s`, and completes. -/
theorem clrOutEmptiesOut : Obligations.ClrOutEmptiesOut := fun _ => exec_of_ok (i := .clrOut) rfl

end Sys2Proof.Machine
end

section
/-! PROOFS. Precise errors (spec/60_exceptions.md R204, R208): what an error leaves, raised by a command or by an illegal
command word. -/

namespace Sys2Proof.Machine

/-- An error found in STATUS after a command was raised by its pseudocode: a completed command leaves `DONE` (R194). -/
theorem resultOf_error_of_status {i : Instr} {s t : State} {e : ErrorKind} (h : exec i s = .next t)
    (hstatus : t.status = .error e) : resultOf i s = .error e := by
  obtain ⟨s', -, rfl⟩ | ⟨e', hraised, rfl⟩ := (exec_next_iff i s t).1 h
  · exact Status.noConfusion hstatus
  · obtain rfl : e' = e := Status.error.inj hstatus
    exact hraised

/-- Settles O17: the error was raised by the pseudocode, and a raising command answers `afterError` of the state before. -/
theorem errorsArePrecise : Obligations.ErrorsArePrecise := by
  intro i s t e h hstatus
  have hafter := exec_raises (resultOf_error_of_status h hstatus)
  exact Host.Outcome.next.inj (h.symm.trans hafter)

/-- A word that does not decode raises `IllegalCommand` with no destination to empty (R204). -/
theorem startCommand_of_error {v : Nat} {w : IllegalWord} (h : decodeWord v = .error w) (s : State) :
    startCommand v s = .next { s with status := .error .illegalCommand } := by
  rw [startCommand, h]
  rfl

/-- Settles O4: each cause of R204 is one for which the decoder rejects the word (R77). -/
theorem illegalWordOnlySetsStatus : Obligations.IllegalWordOnlySetsStatus := by
  intro s v hcause
  have hrejected : v / 16 ≠ 0 ∨ v % 16 = 0x0 ∨ 0xD ≤ v % 16 := by omega
  obtain ⟨w, hw⟩ := (legalWordsAreTheEncodings.2 v).2 hrejected
  exact startCommand_of_error hw s

end Sys2Proof.Machine
end

section
/-! PROOFS. One step of the machine (spec/43_system.md R191 to R195; spec/70_reset_and_hazards.md R230): it takes the oldest
host action, which runs a command word, applies reset or, if it cannot be presented, stops the model by name. -/

namespace Sys2Proof.Machine

/-! ### The oldest action (R194, R195, R230) -/

/-- Settles O6: the two cases of the pending list. -/
theorem stepTakesOldestHostAction : Obligations.StepTakesOldestHostAction :=
  ⟨fun _ _ _ => step_cons, fun _ => step_nil⟩

theorem step_of_wr_cmd {s : State} {rest : List HostAction} {w : Nat} (hpending : s.pending = .wr 0x00 (w : Int) :: rest)
    (hfits : s.build.pw.fits w = true) : step s = startCommand w { s with pending := rest } := by
  obtain ⟨hcmd, -⟩ := hostWriteEffects.1 { s with pending := rest } w hfits
  rw [step_cons hpending]
  exact hcmd

theorem startCommand_of_ok {v : Nat} {i : Instr} (h : decodeWord v = .ok i) (s : State) : startCommand v s = exec i s := by
  rw [startCommand, h]

theorem decodeTableWord_eq_some_iff {nbits w : Nat} {i : Instr} :
    decodeTableWord nbits w = some i ↔ decodeWord (w % 2 ^ nbits) = .ok i := by
  unfold decodeTableWord
  cases decodeWord (w % 2 ^ nbits) <;> simp

/-- Settles O5: the written word is started, and starting it runs the command it decodes to or raises; an offered word is a
pending write to `CMD`, and taking it gives back the state it was offered to. -/
theorem stepRunsTheCommandWritten : Obligations.StepRunsTheCommandWritten := by
  refine ⟨fun s rest w i hpending hfits hi => ?_, fun s rest w e hpending hfits he => ?_, fun s nbits w i hi hfits => ?_⟩
  · rw [step_of_wr_cmd hpending hfits, startCommand_of_ok hi]
  · rw [step_of_wr_cmd hpending hfits, startCommand_of_error he]
  · have hoffered : (s.withFetchWord nbits w).pending = .wr 0x00 ((w % 2 ^ nbits : Nat) : Int) :: s.pending := rfl
    rw [step_of_wr_cmd hoffered hfits, startCommand_of_ok (decodeTableWord_eq_some_iff.1 hi)]
    rfl

/-- Settles O12: `applyReset` is the reset state with the build and the host's side kept. -/
theorem platformResetRestoresResetValues : Obligations.PlatformResetRestoresResetValues :=
  fun _ _ hpending => step_cons hpending

/-! ### Actions that cannot be presented (R191, R193) -/

theorem hostWrite_of_not_accepts {reg : Nat} {v : Int} {s : State} (h : (decodeReg reg).accepts s.build v = false) :
    hostWrite reg v s = .fault (.valueNotPresentable reg) := if_neg (Bool.eq_false_iff.1 h)

theorem hostLoadIn_of_not_allows {b : Bits} {s : State} (h : s.build.inCap.allows b.length = false) :
    hostLoadIn b s = .fault .loadInNotPresentable := if_neg (Bool.eq_false_iff.1 h)

theorem hostLoadTok_of_not_presentable {toks : List Token} {s : State}
    (h : presentable s.build (.loadTok toks) = false) : hostLoadTok toks s = .fault .loadTokNotPresentable :=
  if_neg (Bool.eq_false_iff.1 h)

theorem presentable_loadTok_iff {c : Config} {toks : List Token} :
    presentable c (.loadTok toks) = true ↔ c.tokCap.allows toks.length = true ∧ ∀ t ∈ toks, t.wf c = true := by
  simp [presentable]

/-- Settles O10: each of the three primitives checks its operand first. A token list fails the check by its length or by a
field of one of its tokens. -/
theorem unpresentableActionsFault : Obligations.UnpresentableActionsFault := by
  refine ⟨fun _ _ _ => hostWrite_of_not_accepts, fun _ _ => hostLoadIn_of_not_allows, fun s toks hbad => ?_⟩
  refine hostLoadTok_of_not_presentable (Bool.eq_false_iff.2 fun h => ?_)
  obtain ⟨hcap, hwf⟩ := presentable_loadTok_iff.1 h
  rcases hbad with hlong | ⟨t, ht, hfield⟩
  · exact nomatch hcap.symm.trans hlong
  · obtain ⟨hoffset, hlength, hliteral⟩ := (Token.wf_iff s.build t).1 (hwf t ht)
    rcases hfield with hwide | hwide | hwide
    · exact nomatch hoffset.symm.trans hwide
    · exact nomatch hlength.symm.trans hwide
    · exact absurd hliteral (not_lt.2 hwide)

end Sys2Proof.Machine
end

section
/-! PROOFS. What a host action that is taken can leave (spec/43_system.md R191 to R194, R230), and from it that no step stops
while the host keeps to what it can present. -/

namespace Sys2Proof.Machine

/-- The states a host action can leave: after a command, after an illegal command word, with a register written, with IN or
TOK loaded, with a reply added, or reset. -/
inductive HostEffect (s : State) : State → Prop where
  | command {i : Instr} {t : State} (h : exec i s = .next t) : HostEffect s t
  | illegalWord : HostEffect s (raiseError { out := false, tok := false } .illegalCommand s)
  | write {r : Reg} {v : Int} (h : r.accepts s.build v = true) : HostEffect s (writeReg r v s)
  | loadIn {b : Bits} (h : s.build.inCap.allows b.length = true) : HostEffect s (loadIn b s)
  | loadTok {toks : List Token} (hcap : s.build.tokCap.allows toks.length = true)
      (hwf : ∀ t ∈ toks, t.wf s.build = true) : HostEffect s (loadTok toks s)
  | reply (r : Reply) : HostEffect s (reply r s)
  | reset : HostEffect s (applyReset s)

theorem startCommand_effect (v : Nat) (s : State) : ∃ t, startCommand v s = .next t ∧ HostEffect s t := by
  cases hv : decodeWord v with
  | ok i =>
    obtain ⟨t, ht⟩ := exec_answers i s
    exact ⟨t, (startCommand_of_ok hv s).trans ht, .command ht⟩
  | error e => exact ⟨_, startCommand_of_error hv s, .illegalWord⟩

/-- An action that can be presented is taken (R196). -/
theorem hostStep_of_presentable {a : HostAction} {s : State} (h : presentable s.build a = true) :
    ∃ t, hostStep a s = .next t ∧ HostEffect s t := by
  cases a with
  | wr reg v =>
    by_cases hreg : reg = 0
    · subst hreg
      rw [hostStep, hostWrite_cmd h]
      exact startCommand_effect v.toNat s
    · exact ⟨_, hostWrite_of_accepts hreg h, .write h⟩
  | rd reg => exact ⟨_, rfl, .reply _⟩
  | loadIn b => exact ⟨_, hostLoadIn_of_allows h, .loadIn h⟩
  | loadTok toks =>
    obtain ⟨hcap, hwf⟩ := presentable_loadTok_iff.1 h
    exact ⟨_, hostLoadTok_of_wf hcap hwf, .loadTok hcap hwf⟩
  | readOut => exact ⟨_, rfl, .reply _⟩
  | readTok => exact ⟨_, rfl, .reply _⟩
  | reset => exact ⟨_, rfl, .reset⟩

theorem hostStep_of_not_presentable {a : HostAction} {s : State} (h : presentable s.build a = false) :
    ∃ f, hostStep a s = .fault f := by
  cases a with
  | wr reg v => exact ⟨_, hostWrite_of_not_accepts h⟩
  | loadIn b => exact ⟨_, hostLoadIn_of_not_allows h⟩
  | loadTok toks => exact ⟨_, hostLoadTok_of_not_presentable h⟩
  | rd reg | readOut | readTok | reset => cases h

theorem hostStep_effect {a : HostAction} {s t : State} (h : hostStep a s = .next t) : HostEffect s t := by
  cases ha : presentable s.build a with
  | true =>
    obtain ⟨t', ht', heffect⟩ := hostStep_of_presentable ha
    obtain rfl : t' = t := Host.Outcome.next.inj (ht'.symm.trans h)
    exact heffect
  | false =>
    obtain ⟨f, hf⟩ := hostStep_of_not_presentable ha
    exact nomatch hf.symm.trans h

/-- No host action changes the build or the other pending actions. -/
theorem HostEffect.build_pending {s t : State} (h : HostEffect s t) : t.build = s.build ∧ t.pending = s.pending := by
  cases h with
  | command h =>
    obtain ⟨hbuild, -, -, -, -, -, -, -, -, hpending, -⟩ := commandsNeverChangeParametersOrInput _ s t h
    exact ⟨hbuild, hpending⟩
  | @write r v _ =>
    obtain ⟨hbuild, -, -, -, -, -, hpending, -⟩ := writeReg_frame r v s
    exact ⟨hbuild, hpending⟩
  | illegalWord | loadIn | loadTok | reply | reset => exact ⟨rfl, rfl⟩

/-- Settles O23: the oldest action can be presented, so it is taken, and the others can still be presented to the same
build. -/
theorem stepsNeverStopWhileHostKeepsRange : Obligations.StepsNeverStopWhileHostKeepsRange := by
  intro s hrange
  cases hpending : s.pending with
  | nil => exact ⟨s, step_nil hpending, hrange, rfl, hpending⟩
  | cons a rest =>
    obtain ⟨ha, hrest⟩ : presentable s.build a = true ∧ rest.all (presentable s.build) = true := by
      simpa [HostKeepsRange, hpending] using hrange
    obtain ⟨t, ht, heffect⟩ := hostStep_of_presentable (s := { s with pending := rest }) ha
    obtain ⟨hbuild, hpending'⟩ := heffect.build_pending
    refine ⟨t, (step_cons hpending).trans ht, ?_, hbuild, hpending'⟩
    rw [HostKeepsRange, hbuild, hpending']
    exact hrest

end Sys2Proof.Machine
end

section
/-! PROOFS. The invariant (spec/10_state.md R21 to R28, R34): registers inside their widths, buffers inside their capacities,
at reset and after every step, in every coherent build. -/

namespace Sys2Proof.Machine

/-! ### Registers inside their widths -/

theorem registersFit_iff (s : State) :
    registersFit s = true ↔
      s.build.pw.fits s.numS = true ∧ s.build.pw.fits s.lzW = true ∧ s.build.pw.fits s.lzL = true ∧
        s.build.pw.fits s.lzK = true ∧ s.build.pw.fits s.lzB = true ∧ s.build.pw.fits s.hufSB = true ∧
        s.build.numBits.fitsSigned s.numN = true ∧ s.build.numBits.fits s.numR = true := by
  simp [registersFit, and_assoc]

theorem fits_of_atLeast {width : Limit} {k n : Nat} (hk : width.atLeast k = true) (hn : n < 2 ^ k) :
    width.fits n = true := by
  refine fits_of_allows (k := k) ?_ hn
  cases width <;> exact hk

theorem fitsSigned_zero (width : Limit) : width.fitsSigned 0 = true := by
  cases width <;> simp [Limit.fitsSigned]

theorem resetOf_registersFit {c : Config} (hpw : c.pw.atLeast 17 = true) : registersFit (State.resetOf c) = true := by
  have hfits : ∀ n ≤ 8, c.pw.fits n = true := fun n hn => fits_of_atLeast hpw (by omega)
  exact (registersFit_iff _).2 ⟨hfits 5 (by decide), hfits 0 (by decide), hfits 0 (by decide), hfits 0 (by decide),
    hfits 8 le_rfl, hfits 8 le_rfl, fitsSigned_zero _, fits_of_allows (n := 0) (allows_zero _) Nat.one_pos⟩

theorem writeReg_registersFit {r : Reg} {v : Int} {s : State} (h : registersFit s = true)
    (hv : r.accepts s.build v = true) : registersFit (writeReg r v s) = true := by
  rw [registersFit_iff] at h
  cases r with
  | numS | lzW | lzL | lzK | lzB | hufSB | numN =>
    simp_all [registersFit_iff, writeReg, Reg.accepts]
  | inRd =>
    rw [writeReg]
    split <;> exact (registersFit_iff _).2 h
  | cmd | status | numR | inLen | outLen | tokCnt | reserved => exact (registersFit_iff _).2 h

/-- Of the registers a command writes `NUM_R` only, with a number that was decoded (R25, R107). -/
theorem exec_registersFit {i : Instr} {s t : State} (h : registersFit s = true) (ht : exec i s = .next t) :
    registersFit t = true := by
  obtain ⟨hbuild, hS, hW, hL, hK, hB, hSB, hN, -⟩ := commandsNeverChangeParametersOrInput i s t ht
  obtain ⟨hdecoded, hkept⟩ := numRHoldsLastDecodedNumber i s t ht
  have hR : s.build.numBits.fits t.numR = true := by
    by_cases hdec : i = .numDec ∧ t.status = .done
    · obtain ⟨p, hp⟩ := hdecoded hdec.1 hdec.2
      obtain ⟨-, -, hfits⟩ := numDecode_ok hp
      exact hfits
    · obtain ⟨-, -, -, -, -, -, -, hR⟩ := (registersFit_iff s).1 h
      rwa [hkept hdec]
  rw [registersFit_iff] at h ⊢
  rw [hbuild, hS, hW, hL, hK, hB, hSB, hN]
  simp only [h, hR, and_self]

/-! ### Buffers inside their capacities -/

theorem outBuf_memory_wf {b : Bits} {s : State} (h : Memory.wf s = true)
    (hb : s.build.outCap.allows b.length = true) : Memory.wf { s with outBuf := b } = true :=
  putOut_memory_wf h ((putOut_ok_iff b s _).2 ⟨hb, rfl⟩)

/-- A token of a match search fits TOK: its offset and length are at most the input's length, which `NUM_BITS` covers, and
its literal is a symbol of the input (R28, R132). -/
theorem lzMatchTokens_wf {s : State} {toks : List Token} (hbuild : s.build.numBits.covers s.build.inCap = true)
    (hwf : Memory.wf s = true) (h : lzMatchTokens s = .ok toks) :
    s.build.tokCap.allows toks.length = true ∧ ∀ t ∈ toks, t.wf s.build = true := by
  obtain ⟨hB, -, -, hwhole, rfl, hcap⟩ := (lzMatchTokens_ok_iff s toks).1 h
  refine ⟨hcap, fun t ht => ?_⟩
  obtain ⟨hoffset, hlength, hliteral⟩ := mem_lzMatch ht
  obtain ⟨hin, -⟩ := (memory_wf_iff s).1 hwf
  have hpos : 1 ≤ s.lzB := by omega
  have hsyms : (syms s.lzB s.unread).length ≤ s.inBuf.length :=
    calc (syms s.lzB s.unread).length
        _ ≤ s.lzB * (syms s.lzB s.unread).length := Nat.le_mul_of_pos_left _ hpos
        _ = s.unread.length := by rw [← symBits_length, symBits_syms hpos hwhole]
        _ ≤ s.inBuf.length := (List.drop_suffix _ _).length_le
  have hfits : s.build.numBits.fits s.inBuf.length = true := fits_of_covers hbuild hin
  refine (Token.wf_iff _ t).2 ⟨fits_mono (hoffset.trans hsyms) hfits, fits_mono (hlength.trans hsyms) hfits, ?_⟩
  calc t.literal < 2 ^ s.lzB := chunkVals_lt _ _ _ hliteral
    _ ≤ 2 ^ 8 := Nat.pow_le_pow_right (by decide) (by omega)

theorem lzDeserTokens_wf {s : State} {toks : List Token} (h : lzDeserTokens s = .ok toks) :
    s.build.tokCap.allows toks.length = true ∧ ∀ t ∈ toks, t.wf s.build = true := by
  obtain ⟨hB, hdeser, hcap⟩ := (lzDeserTokens_ok_iff s toks).1 h
  refine ⟨hcap, fun t ht => ?_⟩
  obtain ⟨hoffset, hlength, hliteral⟩ := lzDeserLoop_ok hdeser t ht
  refine (Token.wf_iff _ t).2 ⟨hoffset, hlength, hliteral.trans_le ?_⟩
  exact Nat.pow_le_pow_right (by decide) (by omega)

theorem resultOf_memory_wf {i : Instr} {s s' : State} (hbuild : s.build.numBits.covers s.build.inCap = true)
    (hwf : Memory.wf s = true) (h : resultOf i s = .ok s') : Memory.wf s' = true := by
  cases i with
  | numEnc =>
    obtain ⟨-, hcap, rfl⟩ := (numEncResult_ok_iff s s').1 h
    exact appendOut_memory_wf hwf ((appendOut_ok_iff _ s _).2 ⟨hcap, rfl⟩)
  | numDec =>
    obtain ⟨n, p, hdec, rfl⟩ := (numDecResult_ok_iff s s').1 h
    obtain ⟨-, hp, -⟩ := numDecode_ok hdec
    obtain ⟨hin, hout, hcnt, htok, -⟩ := (memory_wf_iff s).1 hwf
    exact (memory_wf_iff _).2 ⟨hin, hout, hcnt, htok, hp⟩
  | lzMatch =>
    obtain ⟨toks, htoks, rfl⟩ := (lzMatchResult_ok_iff s s').1 h
    obtain ⟨hcnt, htok⟩ := lzMatchTokens_wf hbuild hwf htoks
    exact consumeIn_memory_wf (setTok_memory_wf hwf hcnt htok)
  | lzDeser =>
    obtain ⟨toks, htoks, rfl⟩ := (lzDeserResult_ok_iff s s').1 h
    obtain ⟨hcnt, htok⟩ := lzDeserTokens_wf htoks
    exact consumeIn_memory_wf (setTok_memory_wf hwf hcnt htok)
  | lzRecon =>
    obtain ⟨-, -, hrecon⟩ := (lzReconResult_ok_iff s s').1 h
    obtain ⟨out, -, hcap, rfl⟩ := (lzReconOut_ok_iff _ s s').1 hrecon
    exact outBuf_memory_wf hwf (by rwa [symBits_length])
  | lzSer =>
    obtain ⟨-, hser⟩ := (lzSerResult_ok_iff s s').1 h
    obtain ⟨b, -, hcap, rfl⟩ := (lzSerOut_ok_iff _ s s').1 hser
    exact outBuf_memory_wf hwf hcap
  | lzEnc =>
    obtain ⟨toks, u, htoks, hser, rfl⟩ := (lzEncResult_ok_iff s s').1 h
    obtain ⟨b, -, hcap, rfl⟩ := (lzSerOut_ok_iff _ s u).1 hser
    obtain ⟨hcnt, htok⟩ := lzMatchTokens_wf hbuild hwf htoks
    exact consumeIn_memory_wf (setTok_memory_wf (outBuf_memory_wf hwf hcap) hcnt htok)
  | lzDec =>
    obtain ⟨toks, u, htoks, hrecon, rfl⟩ := (lzDecResult_ok_iff s s').1 h
    obtain ⟨out, -, hcap, rfl⟩ := (lzReconOut_ok_iff _ s u).1 hrecon
    obtain ⟨hcnt, htok⟩ := lzDeserTokens_wf htoks
    exact consumeIn_memory_wf (setTok_memory_wf (outBuf_memory_wf hwf (by rwa [symBits_length])) hcnt htok)
  | hufEnc | hufDec | hufTree =>
    obtain ⟨b, -, hcap, rfl⟩ := (hufResult_ok_iff _ s s').1 h
    exact consumeIn_memory_wf (outBuf_memory_wf hwf hcap)
  | clrOut =>
    cases h
    exact clearOut_memory_wf hwf

theorem exec_memory_wf {i : Instr} {s t : State} (hbuild : s.build.numBits.covers s.build.inCap = true)
    (hwf : Memory.wf s = true) (ht : exec i s = .next t) : Memory.wf t = true := by
  obtain ⟨s', hs', rfl⟩ | ⟨e, -, rfl⟩ := (exec_next_iff i s t).1 ht
  · exact completeCommand_memory_wf (resultOf_memory_wf hbuild hwf hs')
  · exact raiseError_memory_wf hwf

/-! ### The invariant -/

theorem Config.wf_bounds {c : Config} (h : c.wf = true) :
    c.pw.atLeast 17 = true ∧ c.numBits.covers c.inCap = true := by
  simp only [Config.wf, Bool.and_eq_true] at h
  obtain ⟨⟨⟨⟨⟨hpw, -⟩, -⟩, -⟩, -⟩, hcovers⟩ := h
  exact ⟨hpw, hcovers⟩

theorem resetOf_goodState {c : Config} (h : c.wf = true) : GoodState (State.resetOf c) :=
  ⟨h, resetOf_registersFit (Config.wf_bounds h).1, resetOf_memory_wf c⟩

/-- Settles O21: the reset values fit the least `PW`, and the buffers are empty. -/
theorem resetMeetsInvariant : Obligations.ResetMeetsInvariant :=
  ⟨resetOf_goodState (by decide), fun _ => resetOf_goodState⟩

theorem HostEffect.goodState {s t : State} (heffect : HostEffect s t) (h : GoodState s) : GoodState t := by
  obtain ⟨hbuild, -⟩ := heffect.build_pending
  obtain ⟨hwf, hregs, hmem⟩ := h
  refine ⟨hbuild ▸ hwf, ?_⟩
  obtain ⟨hpw, hcovers⟩ := Config.wf_bounds hwf
  cases heffect with
  | command ht => exact ⟨exec_registersFit hregs ht, exec_memory_wf hcovers hmem ht⟩
  | illegalWord => exact ⟨hregs, raiseError_memory_wf hmem⟩
  | write hv => exact ⟨writeReg_registersFit hregs hv, writeReg_memory_wf hmem⟩
  | loadIn hb => exact ⟨hregs, loadIn_memory_wf hmem hb⟩
  | loadTok hcap htok => exact ⟨hregs, loadTok_memory_wf hmem hcap htok⟩
  | reply r => exact ⟨hregs, reply_memory_wf hmem⟩
  | reset => exact ⟨resetOf_registersFit hpw, applyReset_memory_wf s⟩

/-- Settles O22: a step leaves the state as it is or takes a host action, each of whose effects keeps the invariant. -/
theorem stepKeepsInvariant : Obligations.StepKeepsInvariant := by
  intro s t h ht
  cases hpending : s.pending with
  | nil =>
    obtain rfl : s = t := Host.Outcome.next.inj ((step_nil hpending).symm.trans ht)
    exact h
  | cons a rest =>
    rw [step_cons hpending] at ht
    exact (hostStep_effect ht).goodState h

end Sys2Proof.Machine
end

section
/-! PROOFS. The Huffman round trip (spec/42_huffman.md R177). -/

namespace Sys2Proof.Machine

/-- The tree of a list of values has each of them on exactly one leaf, and nothing else (R162). -/
theorem hufTree_freqOf_leaves {vals : List Nat} {t : HufTree Nat} (h : hufTree (freqOf vals) = some t) :
    t.leaves.Nodup ∧ ∀ v, v ∈ t.leaves ↔ v ∈ vals := by
  obtain ⟨hperm, -⟩ := hufTree_shape h
  have hdistinct : ((freqOf vals).map Prod.fst).Nodup :=
    List.pairwise_map.2 ((freqOf_ascending vals).imp fun hlt => Nat.ne_of_lt hlt)
  exact ⟨hperm.nodup_iff.2 hdistinct, fun v => hperm.mem_iff.trans freqOf_mem_fst⟩

/-- Settles O54: the frame of a non-empty input is the frame of a tree with the input's symbols on its leaves, so it decodes
as every such frame does (R163). -/
theorem huffmanRoundTrip : Obligations.HuffmanRoundTrip := by
  intro d x b SB hpos hSB hbytes hsyms hpad hb
  by_cases hd : d = []
  · subst hd
    obtain rfl : [] = b := Except.ok.inj hb
    rw [hpad rfl]
    rfl
  · obtain ⟨-, -, hlimit, hts, rfl⟩ := (hufEncode_ok_iff hd SB b).1 hb
    obtain ⟨t, ht, -⟩ := hufTree_some (hufFreq_ne_nil hd hpos)
    obtain ⟨hdistinct, hleaves⟩ := hufTree_freqOf_leaves ht
    have hcount : ceilDiv d.length 8 = d.length / 8 := by unfold ceilDiv; omega
    rw [ht] at hts ⊢
    rw [hcount] at hlimit ⊢
    exact hufFrameOfAnyTreeDecodes d x SB t hpos hSB hbytes hsyms hlimit hdistinct
      (fun v hv => chunkVals_lt SB d v ((hleaves v).1 hv)) (fun v hv => (hleaves v).2 hv) hts

end Sys2Proof.Machine
end
